-- ==== Sys2Proof/Word.lean ====
section
/-! DEFINITION. The word types of the core. Every value in the core is an unsigned bit vector (44_arithmetic_control_system.md
R180). -/

namespace Sys2Proof

/-- A data byte, a plane byte, a shift register (00_scope.md R6, R11). -/
abbrev Byte := BitVec 8

/-- A `uint32` operand, counter or profile field (00_scope.md R11). -/
abbrev Word := BitVec 32

/-- What fits the 19 address lines (00_scope.md R5). -/
abbrev Addr := BitVec 19

/-- The extended-bits plane `a[18:16]` (00_scope.md R5). -/
abbrev Ext := BitVec 3

end Sys2Proof
end

