-- ==== Sys2Proof/Syntax.lean ====
section
/-! DEFINITION. The eight commands of the core as syntax: one constructor per row of spec/opcode_table.json
(30_encoding.md R95). -/

namespace Sys2Proof

/-- The operand of `DMODE` (30_encoding.md R94). -/
inductive Direction where
  | input
  | output
deriving DecidableEq, Repr, Inhabited

/-- The eight commands with their operands, as wide as the formats of 30_encoding.md R92 make them. The bytes of `WDATA`
are no operand of the command word: they stand in the buffer space `BUF` (20_memory.md R62). -/
inductive Instr where
  | abegin
  | aset (address : Word)
  | dmode (dir : Direction)
  | dread
  | dwrite (value : Byte)
  | wdata (address length : Word)
  | dbgrst
  | dbgprint
deriving DecidableEq, Repr, Inhabited

/-- The four bus commands a primitive may issue while it runs inside a `WDATA` (42_write_engine.md R165). -/
inductive BusCmd where
  | aset (address : Word)
  | dmode (dir : Direction)
  | dread
  | dwrite (value : Byte)
deriving DecidableEq, Repr, Inhabited

end Sys2Proof
end

