-- ==== Sys2Proof/Config.lean ====
section
/-! DEFINITION. What is fixed before the core runs (00_scope.md R7 to R10): the board variant, the device profile, the timing
constants; the shapes of the answers that come from outside the core; and the free values, constants with no body. -/

namespace Sys2Proof

/-- `REALIZATION` (00_scope.md R7). -/
inductive Realization where
  | shift
  | direct
deriving DecidableEq, Repr, Inhabited

/-- The board variant: the realization, the two pin maps and the length of a time-unit (00_scope.md R7 to R9). Logical bit `i` is
on physical pin `map.get i`. No rule reads `tUnit` but the lower bound of a wait (70_reset_and_hazards.md R245). -/
structure Board where
  realization : Realization
  dataPinMap : Vector (Fin 8) 8
  addrPinMap : Vector (Fin 19) 19
  tUnit : Nat
deriving DecidableEq, Repr

/-- Both pin maps are bijections (00_scope.md R8): on a finite set, no two bits share a pin. -/
def Board.wf (b : Board) : Bool :=
  decide (∀ i j : Fin 8, b.dataPinMap.get i = b.dataPinMap.get j → i = j) &&
  decide (∀ i j : Fin 19, b.addrPinMap.get i = b.addrPinMap.get j → i = j)

/-- The device profile, four read-only registers (00_scope.md R10, 10_state.md R40 to R43). -/
structure Profile where
  size : Word
  block : Word
  twrite : Word
  poll : Bool
deriving DecidableEq, Repr, Inhabited

/-- One value of `ENV_DATA[p]`: the environment does not drive the line, or drives it to a level (10_state.md R34). -/
inductive Drive where
  | z
  | low
  | high
deriving DecidableEq, Repr, Inhabited

/-- `ENV_DATA[7:0]`, by physical data pin: one sample vector answers one `DREAD` (41_data_bus.md R141). -/
abbrev EnvVector := Vector Drive 8

/-- A debug register that an outside collaborator may write: all seven but `DBG_BLKCNT` (10_state.md R51). -/
inductive DebugReg where
  | lastAddr
  | lastExp
  | lastRb
  | dup
  | extra
  | sync
deriving DecidableEq, Repr, Inhabited

/-- One thing that happens to the core while a primitive runs (42_write_engine.md R165). -/
inductive PrimAct where
  /-- The primitive issues a bus command. -/
  | bus (c : BusCmd)
  /-- One of the six debug registers is written from outside, a byte register with the low byte. R165 names three of them; R51 lets all
  six hold any value after any primitive call (notes/assumptions/10.md). -/
  | debug (r : DebugReg) (v : Word)
deriving DecidableEq, Repr, Inhabited

/-- The whole of one primitive call: a finite, possibly empty sequence of acts, then one bit (42_write_engine.md R165). -/
structure Answer where
  acts : List PrimAct
  ok : Bool
deriving DecidableEq, Repr, Inhabited

namespace Config

/-- `T_SHIFT` (00_scope.md R9). -/
def tShift : Nat := 3

/-- `T_LATCH` (00_scope.md R9). -/
def tLatch : Nat := 1

/-- The level of an undriven line with a pull-up: 1 (10_state.md R34). PRESUMED: the rule itself takes the value from general
knowledge (93_implementation_defined.md G1; notes/assumptions/14.md). -/
def pullUp : Bool := true

/-- The illustrative data pin map of 41_data_bus.md, `(i + 2) mod 8`, no real board's. -/
def illustrativeDataMap : Vector (Fin 8) 8 := #v[2, 3, 4, 5, 6, 7, 0, 1]

/-- The board of the state named reset. DESIGN CHOICE, notes/assumptions/1.md: the spec leaves the board open, and no statement rests
on this one. -/
def resetBoard : Board where
  realization := .shift
  dataPinMap := illustrativeDataMap
  addrPinMap := #v[2, 3, 4, 5, 6, 7, 8, 9, 10, 11, 12, 13, 14, 15, 16, 17, 18, 0, 1]
  tUnit := 1

/-- The profile of the state named reset. DESIGN CHOICE, notes/assumptions/2.md. -/
def resetProfile : Profile := ⟨0#32, 0#32, 0#32, false⟩

/-- A free 32-bit value for each draw; narrower free values are its low bits (93_implementation_defined.md "any value"). -/
opaque freeWord : Nat → Word

/-- A free number for each draw: it chooses an order of pin writes (93_implementation_defined.md U20, U21). -/
opaque freeOrder : Nat → Nat

/-- A free sample of the data lines for each draw, once the scripted samples are used up (10_state.md R34). -/
opaque freeEnv : Nat → EnvVector

/-- A free answer of a primitive for each draw, once the scripted answers are used up (42_write_engine.md R165). -/
opaque freeAnswer : Nat → Answer

end Config

end Sys2Proof
end

