-- ==== Sys2Proof/Decode.lean ====
section
/-! DEFINITION. The command port's encoding (30_encoding.md): the decoder, total on every value of the three ports, rejecting by
name; then the encoder, from the same table. -/

namespace Sys2Proof

/-- What the host puts on the command port: the opcode and the two operands (30_encoding.md R90). -/
structure PortWord where
  cmd : Byte
  opa : Word
  opl : Word
deriving DecidableEq, Repr, Inhabited

/-- Why the decoder rejects a port word. Both are reserved encodings (30_encoding.md R96). -/
inductive DecodeError where
  /-- `CMD` is none of the eight values of 30_encoding.md R95. -/
  | reservedCommand
  /-- A must-be-zero operand bit of `DMODE` or `DWRITE` is set (30_encoding.md R93). -/
  | reservedOperand
deriving DecidableEq, Repr, Inhabited

/-- `UNIT`, bits 7..4 of `CMD` (30_encoding.md R91). -/
def unitOf (cmd : Byte) : BitVec 4 := cmd.extractLsb' 4 4

/-- `FN`, bits 3..0 of `CMD` (30_encoding.md R91). -/
def fnOf (cmd : Byte) : BitVec 4 := cmd.extractLsb' 0 4

/-- `dir = OPA[0]`, 0 for `INPUT` and 1 for `OUTPUT` (30_encoding.md R94). -/
def directionOf (b : Bool) : Direction := if b then .output else .input

/-- The bit that encodes a direction (30_encoding.md R94). -/
def directionBit : Direction → Bool
  | .input => false
  | .output => true

/-- Format M: `OPA[31:1]` must be 0 (30_encoding.md R92, R93). -/
def decodeDmode (opa : Word) : Except DecodeError Instr :=
  if opa.extractLsb' 1 31 = 0#31 then .ok (.dmode (directionOf (opa.getLsbD 0))) else .error .reservedOperand

/-- Format V: `OPA[31:8]` must be 0 (30_encoding.md R92, R93). -/
def decodeDwrite (opa : Word) : Except DecodeError Instr :=
  if opa.extractLsb' 8 24 = 0#24 then .ok (.dwrite (opa.extractLsb' 0 8)) else .error .reservedOperand

/-- The opcode map: all eight bits of `CMD` are matched, then the must-be-zero bits checked; a port the format does not use is
ignored (30_encoding.md R90, R95). -/
def decode (p : PortWord) : Except DecodeError Instr :=
  if p.cmd = 0x10#8 then .ok .abegin
  else if p.cmd = 0x11#8 then .ok (.aset p.opa)
  else if p.cmd = 0x20#8 then decodeDmode p.opa
  else if p.cmd = 0x21#8 then .ok .dread
  else if p.cmd = 0x22#8 then decodeDwrite p.opa
  else if p.cmd = 0x30#8 then .ok (.wdata p.opa p.opl)
  else if p.cmd = 0x40#8 then .ok .dbgrst
  else if p.cmd = 0x41#8 then .ok .dbgprint
  else .error .reservedCommand

/-- The words of a command; a port the format does not use is written as zero (30_encoding.md R92, R95). -/
def encode : Instr → PortWord
  | .abegin => ⟨0x10#8, 0#32, 0#32⟩
  | .aset a => ⟨0x11#8, a, 0#32⟩
  | .dmode d => ⟨0x20#8, (BitVec.ofBool (directionBit d)).setWidth 32, 0#32⟩
  | .dread => ⟨0x21#8, 0#32, 0#32⟩
  | .dwrite v => ⟨0x22#8, v.setWidth 32, 0#32⟩
  | .wdata a l => ⟨0x30#8, a, l⟩
  | .dbgrst => ⟨0x40#8, 0#32, 0#32⟩
  | .dbgprint => ⟨0x41#8, 0#32, 0#32⟩

/-- Does the command's format read `OPA` (30_encoding.md R92)? -/
def Instr.readsOpa : Instr → Bool
  | .aset _ | .dmode _ | .dwrite _ | .wdata _ _ => true
  | .abegin | .dread | .dbgrst | .dbgprint => false

/-- Does the command's format read `OPL` (30_encoding.md R92)? -/
def Instr.readsOpl : Instr → Bool
  | .wdata _ _ => true
  | .abegin | .aset _ | .dmode _ | .dread | .dwrite _ | .dbgrst | .dbgprint => false

/-- A command laid out as one number: `CMD` in bits 7..0, `OPA` in bits 39..8, `OPL` in bits 71..40, and every bit from `nbits`
up zero. The layout is the model's (DESIGN CHOICE, notes/assumptions/6.md): the spec gives three ports and no memory they
stand in. -/
def portWordOfNat (nbits w : Nat) : PortWord :=
  let v := w % 2 ^ nbits
  ⟨BitVec.ofNat 8 v, BitVec.ofNat 32 (v / 2 ^ 8), BitVec.ofNat 32 (v / 2 ^ 40)⟩

/-- The command the decoder reads from a number laid out so. -/
def decodeTableWord (nbits w : Nat) : Option Instr :=
  match decode (portWordOfNat nbits w) with
  | .ok i => some i
  | .error _ => none

end Sys2Proof
end

