-- ==== Sys2Proof/Machine/State.lean ====
section
/-! DEFINITION. The state of the core as plain data, one home for each piece the spec names (10_state.md); the events it shows the
outside world; the reasons a step stops; the state right after reset. -/

namespace Sys2Proof.Machine

/-- The buffer space `BUF` as offset and byte pairs: offsets strictly rising, no byte equal to what an unlisted offset reads as
(20_memory.md R62; notes/assumptions/7.md). -/
abbrev Memory := List Host.Cell

/-- A pin of the core (10_state.md R26, R29, R33). -/
inductive Pin where
  /-- `P_DATA` -/
  | data
  /-- `P_RCLK` -/
  | rclk
  /-- `P_SCLK_HI` -/
  | sclkHi
  /-- `P_SCLK_LO` -/
  | sclkLo
  /-- `P_EXT[i]` -/
  | ext (i : Fin 3)
  /-- `P_ADDR[p]` -/
  | addr (p : Fin 19)
  /-- physical data pin `p` -/
  | bus (p : Fin 8)
deriving DecidableEq, Repr, Inhabited

/-- `D_MODE` (10_state.md R32). -/
inductive DMode where
  | unconf
  | input
  | output
deriving DecidableEq, Repr, Inhabited

/-- The seven debug registers (10_state.md R44 to R50). -/
structure Debug where
  blkcnt : Word
  lastAddr : Word
  lastExp : Byte
  lastRb : Byte
  dup : Word
  extra : Word
  sync : Word
deriving DecidableEq, Repr, Inhabited

/-- What the core shows the outside world, in order: pin events and waits (00_scope.md R13, 70_reset_and_hazards.md R247), outgoing
calls and their answers (42_write_engine.md R166, R167), reports (43_diagnostics.md R191) and resets. -/
inductive Event where
  /-- All address pins become outputs (40_address_bus.md R110). -/
  | addrOutputs
  /-- A pin is driven to a level. -/
  | pin (p : Pin) (level : Bool)
  /-- `Delay(n)`, at least `n` time-units (70_reset_and_hazards.md R245). -/
  | delay (units : Nat)
  /-- All eight data pins change mode (41_data_bus.md R140). -/
  | dataMode (m : DMode)
  /-- The data lines are sampled once (41_data_bus.md R141). -/
  | sample (env : EnvVector)
  /-- `call PBYTE(d, a)` -/
  | callByte (d : Byte) (a : Word)
  /-- `call PBLOCK(off, n, a)` -/
  | callBlock (off n a : Word)
  /-- A primitive returns its bit. -/
  | ret (ok : Bool)
  /-- `emit` of `DBGPRINT` -/
  | report (d : Debug)
  /-- The hardware is reset (70_reset_and_hazards.md R230). -/
  | hardwareReset
deriving DecidableEq, Repr, Inhabited

/-- The command port and the buffer, written by the host (10_state.md R20, 30_encoding.md R90). -/
structure Port where
  cmd : Byte
  opa : Word
  opl : Word
  buf : Memory
deriving DecidableEq, Repr, Inhabited

/-- The result registers `RES_OK` and `RES_DATA` (10_state.md R36). -/
structure Result where
  ok : Bool
  data : Byte
deriving DecidableEq, Repr, Inhabited

/-- The AddressBus unit (10_state.md R22 to R29). `pinsOut` says that the address pins are outputs; the levels below it are what
they drive then. The fields of the realization the board does not have stay as they are (notes/assumptions/25.md, 26.md). -/
structure AddrUnit where
  aBegun : Bool
  cHi : Option Byte
  cExt : Option Ext
  pinsOut : Bool
  pData : Bool
  pRclk : Bool
  pSclkHi : Bool
  pSclkLo : Bool
  pExt : Ext
  srHi : Byte
  srLo : Byte
  qHi : Byte
  qLo : Byte
  pAddr : Addr
deriving DecidableEq, Repr, Inhabited

/-- The DataBus unit: `D_MODE` and `D_OUT`, the latter by physical pin (10_state.md R32, R33). -/
structure DataUnit where
  mode : DMode
  dOut : Byte
deriving DecidableEq, Repr, Inhabited

/-- The write engine's registers (10_state.md R37, R38). -/
structure WriteEngine where
  start : Word
  off : Word
  rem : Word
  busy : Bool
deriving DecidableEq, Repr, Inhabited

/-- Has the host started the command on its ports (30_encoding.md R90)? With `commandCutAt n` a hardware reset arrives inside it,
after `n` of its events (70_reset_and_hazards.md R232). -/
inductive Pending where
  | idle
  | command
  | commandCutAt (n : Nat)
deriving DecidableEq, Repr, Inhabited

/-- One thing the outside world does at a command boundary. -/
inductive Input where
  /-- The host fills the ports and the buffer, the bytes from offset 0 on, and starts the command (30_encoding.md R90). -/
  | issue (p : PortWord) (buf : List Byte)
  /-- The same, and a hardware reset will arrive inside the command (70_reset_and_hazards.md R232). -/
  | issueCutAt (n : Nat) (p : PortWord) (buf : List Byte)
  /-- A hardware reset between commands (70_reset_and_hazards.md R230). -/
  | reset
  /-- An external collaborator writes one of its six debug registers (10_state.md R51); a byte register takes the low byte. -/
  | debug (r : DebugReg) (v : Word)
deriving DecidableEq, Repr, Inhabited

/-- The state of the machine. From `pending` down, and `board`, the fields are the model's own: see INVENTORY.md. -/
structure State where
  board : Board
  profile : Profile
  port : Port
  res : Result
  addr : AddrUnit
  data : DataUnit
  we : WriteEngine
  dbg : Debug
  pending : Pending
  inputs : List Input
  env : List EnvVector
  oracle : List Answer
  free : Nat
  trace : List Event
deriving DecidableEq, Repr

/-- The reasons the hardware itself stops: none. "Nothing else fails" (60_exceptions.md R201): the one exception, `Fail`, ends a
command in a next state (60_exceptions.md R205), and every contract violation is undetected (R202). Raised by nobody; safe
(notes/assumptions/27.md). -/
inductive Fault : Type
deriving DecidableEq, Repr

/-- The points where the spec defines no behaviour, marked `refuse(U<n>)` in its rules (00_scope.md section 6). All safe: the
model stops where hardware does something the spec does not say (notes/assumptions/21.md). -/
inductive Refusal where
  /-- Raised by an arm of `exec` that has no meaning yet; safe. -/
  | notModelled (mnemonic : String)
  /-- U1: raised by `ASET`, also from inside `WDATA`, while `A_BEGUN = 0` (40_address_bus.md R117); safe. -/
  | asetBeforeBegin
  /-- U2: raised by `ABEGIN` while `A_BEGUN = 1` (40_address_bus.md R110); safe. -/
  | beginTwice
  /-- U3: raised by `DREAD` while `D_MODE` is not `IN` (41_data_bus.md R143); safe. -/
  | dreadOutsideInput
  /-- U4: raised by `DWRITE` while `D_MODE` is not `OUT` (41_data_bus.md R143); safe. -/
  | dwriteOutsideOutput
  /-- U5: raised by `ASET`, also from inside `WDATA`, when `a[31:19]` is not 0 (40_address_bus.md R117); safe. -/
  | addressTooWide
  /-- U6: raised by the step when `CMD` is reserved (30_encoding.md R96); safe. -/
  | reservedCommand
  /-- U6: raised by the step when a must-be-zero operand bit is set (30_encoding.md R93, R96); safe. -/
  | reservedOperand
  /-- U13: raised by `WDATA` when `PF_BLOCK` is neither 0 nor a power of two (42_write_engine.md R175); safe. -/
  | blockSizeNotAdmitted
deriving DecidableEq, Repr

/-- How far a command, or a part of one, has come: it goes on, it has raised `Fail` (60_exceptions.md R200), or it has met a point
the spec does not define. The state is the one reached, its trace included. -/
inductive Run where
  | going (s : State)
  | failed (s : State)
  | stopped (r : Refusal) (s : State)
deriving DecidableEq, Repr

/-- The address unit after reset (10_state.md R53): `A_BEGUN = 0` and no pin driven. Every other value is a DESIGN CHOICE, the spec
says "any" (notes/assumptions/3.md, 26.md). -/
def AddrUnit.reset : AddrUnit where
  aBegun := false
  cHi := none
  cExt := none
  pinsOut := false
  pData := false
  pRclk := false
  pSclkHi := false
  pSclkLo := false
  pExt := 0#3
  srHi := 0#8
  srLo := 0#8
  qHi := 0#8
  qLo := 0#8
  pAddr := 0#19

/-- The machine right after reset (10_state.md R53, 70_reset_and_hazards.md R230): `A_BEGUN = 0`, `D_MODE = UNCONF`,
`WE_BUSY = 0`, no pin driven, the core idle. Where the table says "any" the value is a DESIGN CHOICE (notes/assumptions/3.md); the
board and the profile are parameters (notes/assumptions/1.md, 2.md). -/
def State.reset : State where
  board := Config.resetBoard
  profile := Config.resetProfile
  port := ⟨0#8, 0#32, 0#32, []⟩
  res := ⟨false, 0#8⟩
  addr := AddrUnit.reset
  data := ⟨.unconf, 0#8⟩
  we := ⟨0#32, 0#32, 0#32, false⟩
  dbg := ⟨0#32, 0#32, 0#8, 0#8, 0#32, 0#32, 0#32⟩
  pending := .idle
  inputs := []
  env := []
  oracle := []
  free := 0
  trace := []

end Sys2Proof.Machine
end

