-- ==== Sys2Proof/Machine/Flags.lean ====
section
/-! DEFINITION. The only flags and result registers of the core, `RES_OK` and `RES_DATA` (10_state.md R36). There are no condition
codes. -/

namespace Sys2Proof.Machine

/-- `RES_OK <- ok`: 1 for success, 0 for failure. Written at the end of `WDATA` only. -/
def State.setResOk (ok : Bool) (s : State) : State := { s with res := { s.res with ok := ok } }

/-- `RES_DATA <- v`. Written by `DREAD` only. -/
def State.setResData (v : Byte) (s : State) : State := { s with res := { s.res with data := v } }

end Sys2Proof.Machine
end

