-- ==== Sys2Proof/Machine/Operands.lean ====
section
/-! DEFINITION. How operands are read and taken apart: the planes of an address, the buffer, the pin maps, the levels on the
lines. -/

namespace Sys2Proof.Machine

/-! ### Planes of an address (00_scope.md R5) -/

/-- `lo(a) = a[7:0]` -/
def loPlane (a : Word) : Byte := a.extractLsb' 0 8

/-- `hi(a) = a[15:8]` -/
def hiPlane (a : Word) : Byte := a.extractLsb' 8 8

/-- `ext(a) = a[18:16]` -/
def extPlane (a : Word) : Ext := a.extractLsb' 16 3

/-- `a[31:19]`, which is 0 for a legal address (40_address_bus.md R117). -/
def aboveBus (a : Word) : BitVec 13 := a.extractLsb' 19 13

/-- `a[18:0]`, what the 19 address lines show (10_state.md R31). -/
def onBus (a : Word) : Addr := a.extractLsb' 0 19

/-! ### Bits and pin maps (00_scope.md R8) -/

/-- The register `x` with pin `p` driven to `b`. -/
def setPin {n : Nat} (x : BitVec n) (p : Nat) (b : Bool) : BitVec n :=
  if b then x ||| BitVec.twoPow n p else x &&& ~~~BitVec.twoPow n p

/-- Every logical bit `i` of `v` written to its physical pin `m.get i`: `for i: OLD[M(i)] <- v[i]` (41_data_bus.md R142,
40_address_bus.md R116). -/
def scatter {n : Nat} (m : Vector (Fin n) n) (v old : BitVec n) : BitVec n :=
  (List.finRange n).foldl (fun x i => setPin x (m.get i) (v.getLsbD i)) old

/-- Every logical bit `i` read from its physical pin: `for i: RESULT[i] <- LINE[M(i)]` (41_data_bus.md R141). -/
def gather {n : Nat} (m : Vector (Fin n) n) (level : Fin n → Bool) : BitVec n :=
  BitVec.ofFnLE fun i => level (m.get i)

/-- What a serial-in shift register holds after a rising edge of its clock: `{SR[6:0], P_DATA}` (10_state.md R27). -/
def shiftIn (r : Byte) (b : Bool) : Byte := (r.extractLsb' 0 7 ++ BitVec.ofBool b : BitVec 8)

/-! ### The buffer (20_memory.md R62) -/

/-- What an offset the host has not listed reads as. DESIGN CHOICE, notes/assumptions/7.md. -/
def Memory.blank : Byte := 0#8

/-- `MemRead(BUF, off, 1)` -/
def Memory.read (off : Nat) : Memory → Byte
  | [] => Memory.blank
  | c :: rest => if c.1 = off then c.2 else if off < c.1 then Memory.blank else Memory.read off rest

/-- The host places one byte at an offset. The blank byte is never listed. -/
def Memory.write (off : Nat) (b : Byte) : Memory → Memory
  | [] => if b = Memory.blank then [] else [(off, b)]
  | c :: rest =>
    if off < c.1 then (if b = Memory.blank then c :: rest else (off, b) :: c :: rest)
    else if off = c.1 then (if b = Memory.blank then rest else (off, b) :: rest)
    else c :: Memory.write off b rest

/-- The bytes of a buffer, from an offset on. -/
def Memory.placeFrom : Nat → List Byte → Memory → Memory
  | _, [], m => m
  | off, b :: rest, m => Memory.placeFrom (off + 1) rest (Memory.write off b m)

/-- A whole buffer: byte `i` of the list at offset `i`. -/
def Memory.place (bytes : List Byte) : Memory := Memory.placeFrom 0 bytes []

/-- No offset before `low`, offsets strictly rising, no blank byte listed. -/
def Memory.wfFrom : Nat → Memory → Bool
  | _, [] => true
  | low, c :: rest => decide (low ≤ c.1) && decide (c.2 ≠ Memory.blank) && Memory.wfFrom (c.1 + 1) rest

/-- The canonical form, so that equal buffers are equal data. -/
def Memory.wf (m : Memory) : Bool := Memory.wfFrom 0 m

/-! ### Levels on the lines (10_state.md R30, R34, R35)

Where the spec says that a level is unspecified, it is the argument `undet`: a statement about such a level holds for every
`undet` (notes/assumptions/13.md). -/

/-- The level of a data line in input mode: what drives it, else the pull-up (10_state.md R34). -/
def inputLevel : Drive → Bool
  | .z => Config.pullUp
  | .low => false
  | .high => true

/-- `LINE[p]` (10_state.md R34). With both sides driving opposite levels, and undriven in `UNCONF`, it is undetermined. -/
def DataUnit.line (d : DataUnit) (undet : Byte) (env : EnvVector) (p : Fin 8) : Bool :=
  match d.mode, env.get p with
  | .input, e => inputLevel e
  | .output, .z => d.dOut.getLsbD p
  | .output, .low => d.dOut.getLsbD p && undet.getLsbD p
  | .output, .high => d.dOut.getLsbD p || undet.getLsbD p
  | .unconf, .z => undet.getLsbD p
  | .unconf, .low => false
  | .unconf, .high => true

/-- `XD`, the logical data-bus value (10_state.md R35). -/
def State.xd (s : State) (undet : Byte) (env : EnvVector) : Byte :=
  gather s.board.dataPinMap (s.data.line undet env)

/-- `XA`, the value on the external device's address lines (10_state.md R30). While the pins are no outputs the lines they drive are
undetermined; the latches of SHIFT drive theirs all the same (70_reset_and_hazards.md R231). -/
def AddrUnit.xa (b : Board) (undet : Addr) (u : AddrUnit) : Addr :=
  match b.realization with
  | .shift => ((if u.pinsOut then u.pExt else undet.extractLsb' 16 3) ++ u.qHi ++ u.qLo : BitVec 19)
  | .direct => if u.pinsOut then gather b.addrPinMap (fun p => u.pAddr.getLsbD p) else undet

/-- `XA` of a state. -/
def State.xa (s : State) (undet : Addr) : Addr := s.addr.xa s.board undet

/-! ### Block sizes (42_write_engine.md R175) -/

/-- `B = 0` or `B = 2^k` with `0 <= k <= 31`. -/
def blockAdmitted (b : Word) : Bool := decide (b = 0#32) || (List.range 32).any fun k => decide (b = BitVec.twoPow 32 k)

/-- Unsigned minimum (44_arithmetic_control_system.md R180 row 9). -/
def minWord (x y : Word) : Word := if x ≤ y then x else y

end Sys2Proof.Machine
end

