-- ==== Sys2Proof/Machine/Ops.lean ====
section
/-! DEFINITION. The shared operations: sequencing, free draws, pin events, the address bus, the data bus, the calls to the
primitives, and the one exception. -/

namespace Sys2Proof.Machine

/-! ### Sequencing -/

/-- What comes after, unless `Fail` was raised or an undefined point met. -/
def Run.andThen (r : Run) (f : State → Run) : Run :=
  match r with
  | .going s => f s
  | .failed s => .failed s
  | .stopped why s => .stopped why s

/-- The state reached, whatever happened. -/
def Run.state : Run → State
  | .going s => s
  | .failed s => s
  | .stopped _ s => s

/-! ### Free values and events -/

/-- Free value number `k` from here, `w` bits wide. -/
def State.freeBits (s : State) (w k : Nat) : BitVec w := (Config.freeWord (s.free + k)).setWidth w

/-- `k` free values have been drawn. -/
def State.drew (k : Nat) (s : State) : State := { s with free := s.free + k }

/-- The AddressBus unit takes a new value. -/
def State.setAddr (u : AddrUnit) (s : State) : State := { s with addr := u }

/-- The DataBus unit takes a new value. -/
def State.setData (d : DataUnit) (s : State) : State := { s with data := d }

/-- The debug registers take new values. -/
def State.setDbg (d : Debug) (s : State) : State := { s with dbg := d }

/-- The write engine's registers take new values. -/
def State.setWe (w : WriteEngine) (s : State) : State := { s with we := w }

/-- Events happen, oldest first. -/
def State.emit (es : List Event) (s : State) : State := { s with trace := s.trace ++ es }

/-- The rearrangement of a list that a number selects; every rearrangement is selected by some number. -/
def orderBy {α : Type} : Nat → Nat → List α → List α
  | 0, _, l => l
  | fuel + 1, code, l =>
    match l[code % l.length]? with
    | none => l
    | some x => x :: orderBy fuel (code / l.length) (l.eraseIdx (code % l.length))

/-- Pin writes whose order the spec leaves open (93_implementation_defined.md U20, U21): they happen in a free order. -/
def State.emitUnordered (es : List Event) (s : State) : State :=
  { s with trace := s.trace ++ orderBy es.length (Config.freeOrder s.free) es, free := s.free + 1 }

/-! ### Pins of the AddressBus unit -/

/-- The rising edge a pin write makes: the line was low and becomes high. -/
def rises (old new : Bool) : Bool := !old && new

/-- One pin is driven to a level, with what the edge does: a rising `P_SCLK_*` shifts its register, a rising `P_RCLK` loads both
latches (10_state.md R26 to R29). The rising edge is PRESUMED, as in the rules (notes/assumptions/16.md). -/
def AddrUnit.drive (p : Pin) (b : Bool) (u : AddrUnit) : AddrUnit :=
  match p with
  | .data => { u with pData := b }
  | .rclk =>
    { u with
      pRclk := b
      qHi := if rises u.pRclk b then u.srHi else u.qHi
      qLo := if rises u.pRclk b then u.srLo else u.qLo }
  | .sclkHi => { u with pSclkHi := b, srHi := if rises u.pSclkHi b then shiftIn u.srHi u.pData else u.srHi }
  | .sclkLo => { u with pSclkLo := b, srLo := if rises u.pSclkLo b then shiftIn u.srLo u.pData else u.srLo }
  | .ext i => { u with pExt := setPin u.pExt i b }
  | .addr q => { u with pAddr := setPin u.pAddr q b }
  | .bus _ => u

/-- The address pins become outputs (40_address_bus.md R110). -/
def AddrUnit.makeOutputs (u : AddrUnit) : AddrUnit := { u with pinsOut := true }

/-- Both caches at the sentinel and `A_BEGUN` set, the end of `ABEGIN` (40_address_bus.md R110). -/
def AddrUnit.begin (u : AddrUnit) : AddrUnit := { u with cHi := none, cExt := none, aBegun := true }

/-- `P_EXT[2:0] <- e` as one update (40_address_bus.md R125). -/
def AddrUnit.setExt (e : Ext) (u : AddrUnit) : AddrUnit := { u with pExt := e }

/-- `C_EXT <- SOME(e)` (40_address_bus.md R112). -/
def AddrUnit.cacheExt (e : Ext) (u : AddrUnit) : AddrUnit := { u with cExt := some e }

/-- `C_HI <- SOME(h)` (40_address_bus.md R112). -/
def AddrUnit.cacheHi (h : Byte) (u : AddrUnit) : AddrUnit := { u with cHi := some h }

/-- All nineteen pins as one update, through the pin map (40_address_bus.md R116). -/
def AddrUnit.setDirect (m : Vector (Fin 19) 19) (a : Addr) (u : AddrUnit) : AddrUnit :=
  { u with pAddr := scatter m a u.pAddr }

/-- One pin event of the AddressBus unit. -/
def State.drive (p : Pin) (b : Bool) (s : State) : State := (s.setAddr (s.addr.drive p b)).emit [.pin p b]

/-- `Delay(n)` changes no state; it stays an event (70_reset_and_hazards.md R245, R247). -/
def State.delay (n : Nat) (s : State) : State := s.emit [.delay n]

/-- A byte plane that has a shift register (10_state.md R27). -/
inductive BytePlane where
  | hi
  | lo
deriving DecidableEq, Repr

/-- `P_SCLK_HI` or `P_SCLK_LO`. -/
def shiftClock : BytePlane → Pin
  | .hi => .sclkHi
  | .lo => .sclkLo

/-- One iteration of `ShiftOut`, steps (1) to (4) (40_address_bus.md R114). -/
def shiftOneBit (p : BytePlane) (b : Bool) (s : State) : State :=
  (((s.drive .data b).drive (shiftClock p) true).delay Config.tShift).drive (shiftClock p) false

/-- The iterations of `ShiftOut` on the working copy `t`, step (5) between them. -/
def shiftBits (p : BytePlane) : Nat → Byte → State → State
  | 0, _, s => s
  | n + 1, t, s => shiftBits p n (t <<< 1) (shiftOneBit p (t.getLsbD 7) s)

/-- `ShiftOut(p, b)`: eight bits, most significant first (40_address_bus.md R114). -/
def shiftOut (p : BytePlane) (b : Byte) (s : State) : State := shiftBits p 8 b s

/-- `LatchPulse()` (40_address_bus.md R115). -/
def latchPulse (s : State) : State :=
  (((s.drive .rclk true).delay Config.tLatch).drive .rclk false).delay Config.tLatch

/-- `TransmitByte(p, b)` in SHIFT (40_address_bus.md R113). -/
def transmitByte (p : BytePlane) (b : Byte) (s : State) : State := latchPulse (shiftOut p b s)

/-- The three pin writes of `TransmitExt`. -/
def extEvents (e : Ext) : List Event := (List.finRange 3).map fun i => .pin (.ext i) (e.getLsbD i)

/-- `TransmitExt(e)` in SHIFT: one update of `P_EXT`, three pin events in an open order (40_address_bus.md R125). -/
def transmitExt (e : Ext) (s : State) : State :=
  (s.setAddr (s.addr.setExt e)).emitUnordered (extEvents e)

/-- `PlaneStep(EXT, e)` in SHIFT (40_address_bus.md R112). -/
def planeStepExt (e : Ext) (s : State) : State :=
  if s.addr.cExt = some e then s
  else (transmitExt e s).setAddr ((transmitExt e s).addr.cacheExt e)

/-- `PlaneStep(HI, h)` in SHIFT (40_address_bus.md R112). -/
def planeStepHi (h : Byte) (s : State) : State :=
  if s.addr.cHi = some h then s
  else (transmitByte .hi h s).setAddr ((transmitByte .hi h s).addr.cacheHi h)

/-- A legal `ASET a` in SHIFT: extended bits, high byte, and always the low byte (40_address_bus.md R111; the order is the spec's
decision, notes/assumptions/17.md). -/
def presentShift (a : Word) (s : State) : State :=
  transmitByte .lo (loPlane a) (planeStepHi (hiPlane a) (planeStepExt (extPlane a) s))

/-- The nineteen pin writes of a DIRECT `ASET` (40_address_bus.md R116). -/
def directEvents (m : Vector (Fin 19) 19) (a : Word) : List Event :=
  (List.finRange 19).map fun i => .pin (.addr (m.get i)) (a.getLsbD i)

/-- A legal `ASET a` in DIRECT: every pin written whatever the caches hold, no wait; the caches written as in SHIFT, where
`PlaneStep` leaves `SOME(v)` in either case (40_address_bus.md R112, R116). -/
def presentDirect (a : Word) (s : State) : State :=
  (s.setAddr (((s.addr.setDirect s.board.addrPinMap (onBus a)).cacheExt (extPlane a)).cacheHi (hiPlane a))).emitUnordered
    (directEvents s.board.addrPinMap a)

/-- A legal `ASET a` on the board at hand. -/
def present (a : Word) (s : State) : State :=
  match s.board.realization with
  | .shift => presentShift a s
  | .direct => presentDirect a s

/-- `ASET(a)`, as a command and as a sub-operation (40_address_bus.md R111, R117; 42_write_engine.md R164). -/
def asetRun (a : Word) (s : State) : Run :=
  if s.addr.aBegun = false then .stopped .asetBeforeBegin s
  else if aboveBus a ≠ 0#13 then .stopped .addressTooWide s
  else .going (present a s)

/-- The address pins of a board, in the order `ABEGIN` drives them; the spec lets a model take any order (40_address_bus.md R110;
notes/assumptions/15.md). -/
def addressPins : Realization → List Pin
  | .shift => [.data, .rclk, .sclkHi, .sclkLo, .ext 2, .ext 1, .ext 0]
  | .direct => (List.finRange 19).map Pin.addr

/-- `ABEGIN` (40_address_bus.md R110). -/
def abeginRun (s : State) : Run :=
  if s.addr.aBegun = true then .stopped .beginTwice s
  else
    let t := (addressPins s.board.realization).foldl (fun t p => t.drive p false)
      ((s.setAddr s.addr.makeOutputs).emit [.addrOutputs])
    .going (t.setAddr t.addr.begin)

/-! ### The DataBus unit -/

/-- The mode a direction selects (41_data_bus.md R140). -/
def modeOf : Direction → DMode
  | .input => .input
  | .output => .output

/-- `DMODE dir`: in `OUT` the driven byte is a free value until the next `DWRITE` (41_data_bus.md R140; U8;
notes/assumptions/11.md). -/
def dmodeRun (dir : Direction) (s : State) : Run :=
  match dir with
  | .output => .going (((s.setData ⟨.output, s.freeBits 8 0⟩).drew 1).emit [.dataMode .output])
  | .input => .going ((s.setData ⟨.input, s.data.dOut⟩).emit [.dataMode .input])

/-- The sample of `ENV_DATA` that answers the next `DREAD`: the next scripted one, else a free one (notes/assumptions/8.md). -/
def State.nextEnv (s : State) : EnvVector :=
  match s.env with
  | [] => Config.freeEnv s.free
  | e :: _ => e

/-- The lines are sampled: the sample is used up. -/
def State.sampleLines (s : State) : State := ({ s with env := s.env.tail }.drew 1).emit [.sample s.nextEnv]

/-- `DREAD` (41_data_bus.md R141): one sample of the lines, through the pin map, into `RES_DATA`. -/
def dreadRun (s : State) : Run :=
  if s.data.mode = .input then
    .going (s.sampleLines.setResData (gather s.board.dataPinMap fun p => inputLevel (s.nextEnv.get p)))
  else .stopped .dreadOutsideInput s

/-- The eight pin writes of `DWRITE` (41_data_bus.md R142). -/
def busEvents (m : Vector (Fin 8) 8) (v : Byte) : List Event :=
  (List.finRange 8).map fun i => .pin (.bus (m.get i)) (v.getLsbD i)

/-- `DWRITE value` (41_data_bus.md R142). -/
def dwriteRun (v : Byte) (s : State) : Run :=
  if s.data.mode = .output then
    .going ((s.setData ⟨.output, scatter s.board.dataPinMap v s.data.dOut⟩).emitUnordered (busEvents s.board.dataPinMap v))
  else .stopped .dwriteOutsideOutput s

/-! ### The primitives (42_write_engine.md R165 to R167) -/

/-- The collaborator puts a command on the ports its format reads (30_encoding.md R92, R100); a port the format does not use stays
(notes/assumptions/30.md). -/
def State.issue (i : Instr) (s : State) : State :=
  { s with port := ⟨(encode i).cmd, if i.readsOpa then (encode i).opa else s.port.opa, s.port.opl, s.port.buf⟩ }

/-- A bus command that a primitive issues through the port, run under its own rule (30_encoding.md R100). -/
def busRun (c : BusCmd) (s : State) : Run :=
  match c with
  | .aset a => asetRun a (s.issue (.aset a))
  | .dmode d => dmodeRun d (s.issue (.dmode d))
  | .dread => dreadRun (s.issue .dread)
  | .dwrite v => dwriteRun v (s.issue (.dwrite v))

/-- A debug register takes a value from outside; a byte register takes its low byte (10_state.md R45 to R51). -/
def Debug.put (r : DebugReg) (v : Word) (d : Debug) : Debug :=
  match r with
  | .lastAddr => { d with lastAddr := v }
  | .lastExp => { d with lastExp := v.setWidth 8 }
  | .lastRb => { d with lastRb := v.setWidth 8 }
  | .dup => { d with dup := v }
  | .extra => { d with extra := v }
  | .sync => { d with sync := v }

/-- `DBG_BLKCNT <- DBG_BLKCNT + 1`, modulo 2^32 (42_write_engine.md R168). -/
def Debug.countBlock (d : Debug) : Debug := { d with blkcnt := d.blkcnt + 1#32 }

/-- One act while a primitive runs (42_write_engine.md R165, 10_state.md R51). -/
def actRun (x : PrimAct) (s : State) : Run :=
  match x with
  | .bus c => busRun c s
  | .debug r v => .going (s.setDbg (s.dbg.put r v))

/-- The acts of a primitive, each from the state the previous one left. -/
def actsRun : List PrimAct → State → Run
  | [], s => .going s
  | x :: rest, s => (actRun x s).andThen (actsRun rest)

/-- The answer the next primitive call will get: the next scripted one, else a free one (notes/assumptions/9.md). -/
def State.nextAnswer (s : State) : Answer :=
  match s.oracle with
  | [] => Config.freeAnswer s.free
  | a :: _ => a

/-- The call goes out: its event, and its answer is used up. -/
def State.callOut (call : Event) (s : State) : State :=
  ({ s with oracle := s.oracle.tail }.drew 1).emit [call]

/-- A primitive returns its bit; 0 raises `Fail` (42_write_engine.md R163, 60_exceptions.md R200). -/
def returnBit (ok : Bool) (s : State) : Run :=
  if ok then .going (s.emit [.ret true]) else .failed (s.emit [.ret false])

/-- `ok <- call …; if ok = 0: raise Fail` (42_write_engine.md R161, R162, R165 to R167). -/
def callPrimitive (call : Event) (s : State) : Run :=
  (actsRun s.nextAnswer.acts (s.callOut call)).andThen (returnBit s.nextAnswer.ok)

/-! ### The end of a write and the one exception -/

/-- A `WDATA` ends: `RES_OK` and `WE_BUSY` written, the sequencer's values free from here on (42_write_engine.md R160; 10_state.md
R37; U17; notes/assumptions/12.md). -/
def endWrite (ok : Bool) (s : State) : State :=
  ((s.setWe ⟨s.freeBits 32 0, s.freeBits 32 1, s.freeBits 32 2, false⟩).drew 3).setResOk ok

/-- Taking `Fail`: nothing is saved and nothing switched; `RES_OK <- 0`, `WE_BUSY <- 0` and the command ends (60_exceptions.md
R205). There is no return from it: the core is idle afterwards (60_exceptions.md R206). -/
def takeFail (s : State) : State := endWrite false s

/-- How a command ends. -/
def Run.finish (r : Run) : Host.Outcome State Fault Refusal :=
  match r with
  | .going s => .next s
  | .failed s => .next (takeFail s)
  | .stopped why _ => .refused why

end Sys2Proof.Machine
end

