-- ==== Sys2Proof/Machine/AddressBus.lean ====
section
/-! DEFINITION. The AddressBus unit's commands (40_address_bus.md). -/

namespace Sys2Proof.Machine

/-- `ABEGIN` (40_address_bus.md R110). -/
def execAbegin (s : State) : Host.Outcome State Fault Refusal := (abeginRun s).finish

/-- `ASET address` (40_address_bus.md R111, R117). -/
def execAset (a : Word) (s : State) : Host.Outcome State Fault Refusal := (asetRun a s).finish

end Sys2Proof.Machine
end

