-- ==== Sys2Proof/Machine/DataBus.lean ====
section
/-! DEFINITION. The DataBus unit's commands (41_data_bus.md). -/

namespace Sys2Proof.Machine

/-- `DMODE dir` (41_data_bus.md R140). -/
def execDmode (dir : Direction) (s : State) : Host.Outcome State Fault Refusal := (dmodeRun dir s).finish

/-- `DREAD` (41_data_bus.md R141). -/
def execDread (s : State) : Host.Outcome State Fault Refusal := (dreadRun s).finish

/-- `DWRITE value` (41_data_bus.md R142). -/
def execDwrite (v : Byte) (s : State) : Host.Outcome State Fault Refusal := (dwriteRun v s).finish

end Sys2Proof.Machine
end

