-- ==== Sys2Proof/Machine/Diagnostics.lean ====
section
/-! DEFINITION. The diagnostics commands (43_diagnostics.md). -/

namespace Sys2Proof.Machine

/-- All seven debug registers at 0. -/
def Debug.zero : Debug := ⟨0#32, 0#32, 0#8, 0#8, 0#32, 0#32, 0#32⟩

/-- `DBGRST` zeroes the seven (43_diagnostics.md R190). -/
def dbgrstRun (s : State) : Run := .going (s.setDbg Debug.zero)

/-- `DBGPRINT` hands the seven values to the reporting collaborator and changes nothing (43_diagnostics.md R191). -/
def dbgprintRun (s : State) : Run := .going (s.emit [.report s.dbg])

/-- `DBGRST` (43_diagnostics.md R190). -/
def execDbgrst (s : State) : Host.Outcome State Fault Refusal := (dbgrstRun s).finish

/-- `DBGPRINT` (43_diagnostics.md R191). -/
def execDbgprint (s : State) : Host.Outcome State Fault Refusal := (dbgprintRun s).finish

end Sys2Proof.Machine
end

