-- ==== Sys2Proof/Machine/WriteEngine.lean ====
section
/-! DEFINITION. The write engine's command (42_write_engine.md). -/

namespace Sys2Proof.Machine

/-- The address of the next call, modulo 2^32 (42_write_engine.md R161, R162, R172). -/
def State.callAddress (s : State) : Word := s.we.start + s.we.off

/-- `WE_OFF` and `WE_REM` move by the bytes handed over, after a successful call only (42_write_engine.md R161, R162). -/
def State.advance (c : Word) (s : State) : State :=
  s.setWe ⟨s.we.start, s.we.off + c, s.we.rem - c, s.we.busy⟩

/-- `DBG_BLKCNT <- DBG_BLKCNT + 1`, modulo 2^32 (42_write_engine.md R168). -/
def State.countBlock (s : State) : State := s.setDbg s.dbg.countBlock

/-- One iteration of `ByteMode` (42_write_engine.md R161). -/
def byteStep (s : State) : Run :=
  ((asetRun s.callAddress s).andThen
    (callPrimitive (.callByte (Memory.read s.we.off.toNat s.port.buf) s.callAddress))).andThen
    fun t => .going (t.advance 1#32)

/-- `ByteMode`'s loop; `fuel` bounds its iterations and `WE_REM` is enough (42_write_engine.md R161, R177). -/
def byteLoop : Nat → State → Run
  | 0, s => .going s
  | fuel + 1, s => if s.we.rem = 0#32 then .going s else (byteStep s).andThen (byteLoop fuel)

/-- `Chunk(c)` (42_write_engine.md R162, R168). -/
def chunk (c : Word) (s : State) : Run :=
  ((asetRun s.callAddress s).andThen
    fun t => callPrimitive (.callBlock s.we.off c s.callAddress) t.countBlock).andThen
    fun t => .going (t.advance c)

/-- The loop of `BlockMode` (42_write_engine.md R162); each chunk has at least one byte, so `WE_REM` iterations are enough (R177). -/
def blockLoop : Nat → State → Run
  | 0, s => .going s
  | fuel + 1, s =>
    if s.we.rem = 0#32 then .going s
    else (chunk (minWord s.profile.block s.we.rem) s).andThen (blockLoop fuel)

/-- The lead-in: one chunk to the next block boundary if the start is not aligned, capped at the length, be it 0 (42_write_engine.md
R162, R173). -/
def leadIn (s : State) : Run :=
  let m := s.we.start % s.profile.block
  if m = 0#32 then .going s else chunk (minWord (s.profile.block - m) s.we.rem) s

/-- `BlockMode` (42_write_engine.md R162). -/
def blockMode (s : State) : Run := (leadIn s).andThen fun t => blockLoop t.we.rem.toNat t

/-- `ByteMode` (42_write_engine.md R161). -/
def byteMode (s : State) : Run := byteLoop s.we.rem.toNat s

/-- The sequencer's start: `WE_BUSY <- 1; WE_START <- s; WE_OFF <- 0; WE_REM <- L` (42_write_engine.md R160). -/
def startWrite (a l : Word) (s : State) : State := s.setWe ⟨a, 0#32, l, true⟩

/-- `WDATA` up to its end or its `Fail` (42_write_engine.md R160, R175). -/
def wdataRun (a l : Word) (s : State) : Run :=
  if blockAdmitted s.profile.block = false then .stopped .blockSizeNotAdmitted s
  else
    ((if s.profile.block = 0#32 then byteMode (startWrite a l s) else blockMode (startWrite a l s))).andThen
      fun t => .going (endWrite true t)

/-- `WDATA address, length` (42_write_engine.md R160 to R168). -/
def execWdata (a l : Word) (s : State) : Host.Outcome State Fault Refusal := (wdataRun a l s).finish

end Sys2Proof.Machine
end

