-- ==== Sys2Proof/Machine/Dispatch.lean ====
section
/-! DEFINITION. What each command does: one arm per row of spec/opcode_table.json. -/

namespace Sys2Proof.Machine

/-- The meaning of a command (30_encoding.md R95). -/
def exec (i : Instr) (s : State) : Host.Outcome State Fault Refusal :=
  match i with
  | .abegin => Sys2Proof.Machine.execAbegin s
  | .aset a => Sys2Proof.Machine.execAset a s
  | .dmode d => Sys2Proof.Machine.execDmode d s
  | .dread => Sys2Proof.Machine.execDread s
  | .dwrite v => Sys2Proof.Machine.execDwrite v s
  | .wdata a l => Sys2Proof.Machine.execWdata a l s
  | .dbgrst => Sys2Proof.Machine.execDbgrst s
  | .dbgprint => Sys2Proof.Machine.execDbgprint s

end Sys2Proof.Machine
end

