-- ==== Sys2Proof/Machine/HostPort.lean ====
section
/-! DEFINITION. What stands around a command: the port it is read from, what the outside world does between commands, and hardware
reset, between commands or inside one. -/

namespace Sys2Proof.Machine

/-! ### The command port (30_encoding.md R90) -/

/-- The words on the port. -/
def State.portWord (s : State) : PortWord := ⟨s.port.cmd, s.port.opa, s.port.opl⟩

/-- The words are put on the port; the buffer stays. -/
def State.setPort (p : PortWord) (s : State) : State :=
  { s with port := ⟨p.cmd, p.opa, p.opl, s.port.buf⟩ }

/-- The command on the port is taken: nothing is pending any more. -/
def State.taken (s : State) : State := { s with pending := .idle }

/-- The name of a reserved encoding (30_encoding.md R96). -/
def refusalOf : DecodeError → Refusal
  | .reservedCommand => .reservedCommand
  | .reservedOperand => .reservedOperand

/-- A command placed on the port and started, the number laid out as in `portWordOfNat`. -/
def State.placeCommand (nbits w : Nat) (s : State) : State := { s.setPort (portWordOfNat nbits w) with pending := .command }

/-! ### Hardware reset (70_reset_and_hazards.md R230 to R232, 10_state.md R53) -/

/-- A free cache: the sentinel or a value. -/
def freeCache (w n : Nat) : Option (BitVec w) :=
  if (Config.freeWord n).getLsbD 31 then some ((Config.freeWord n).setWidth w) else none

/-- The address unit at a reset in operation: `A_BEGUN = 0`, no pin driven, everything else free. -/
def AddrUnit.hardReset (n : Nat) : AddrUnit where
  aBegun := false
  cHi := freeCache 8 n
  cExt := freeCache 3 (n + 1)
  pinsOut := false
  pData := (Config.freeWord (n + 2)).getLsbD 0
  pRclk := (Config.freeWord (n + 2)).getLsbD 1
  pSclkHi := (Config.freeWord (n + 2)).getLsbD 2
  pSclkLo := (Config.freeWord (n + 2)).getLsbD 3
  pExt := (Config.freeWord (n + 3)).setWidth 3
  srHi := (Config.freeWord (n + 4)).setWidth 8
  srLo := (Config.freeWord (n + 5)).setWidth 8
  qHi := (Config.freeWord (n + 6)).setWidth 8
  qLo := (Config.freeWord (n + 7)).setWidth 8
  pAddr := (Config.freeWord (n + 8)).setWidth 19

/-- The debug registers at a reset in operation: free. -/
def Debug.hardReset (n : Nat) : Debug where
  blkcnt := Config.freeWord n
  lastAddr := Config.freeWord (n + 1)
  lastExp := (Config.freeWord (n + 2)).setWidth 8
  lastRb := (Config.freeWord (n + 3)).setWidth 8
  dup := Config.freeWord (n + 4)
  extra := Config.freeWord (n + 5)
  sync := Config.freeWord (n + 6)

/-- Hardware reset in operation: the table of 10_state.md R53, each "any" a free value; the board and the profile stay; the
buffer is the host's (notes/assumptions/4.md). -/
def hardReset (s : State) : State :=
  { s with
    port := ⟨s.freeBits 8 0, s.freeBits 32 1, s.freeBits 32 2, s.port.buf⟩
    res := ⟨(s.freeBits 32 3).getLsbD 0, s.freeBits 8 4⟩
    addr := AddrUnit.hardReset (s.free + 5)
    data := ⟨.unconf, s.freeBits 8 14⟩
    we := ⟨s.freeBits 32 15, s.freeBits 32 16, s.freeBits 32 17, false⟩
    dbg := Debug.hardReset (s.free + 18)
    pending := .idle
    free := s.free + 25
    trace := s.trace ++ [.hardwareReset] }

/-- A command as a run, for the state in which a reset can cut it. -/
def instrRun (i : Instr) (s : State) : Run :=
  match i with
  | .abegin => abeginRun s
  | .aset a => asetRun a s
  | .dmode d => dmodeRun d s
  | .dread => dreadRun s
  | .dwrite v => dwriteRun v s
  | .wdata a l => wdataRun a l s
  | .dbgrst => dbgrstRun s
  | .dbgprint => dbgprintRun s

/-- Is the event an outgoing call? -/
def Event.isCall : Event → Bool
  | .callByte _ _ => true
  | .callBlock _ _ _ => true
  | _ => false

/-- Is the event a sample of the data lines? -/
def Event.isSample : Event → Bool
  | .sample _ => true
  | _ => false

/-- The events of a state since an earlier one. -/
def eventsSince (s t : State) : List Event := t.trace.drop s.trace.length

/-- A reset after the first `n` events of a command that began in `s` and would have reached `t`: the outside world has seen those
events and no more, and has used up the answers and samples they took; the core's state is that of any reset
(70_reset_and_hazards.md R232; notes/assumptions/24.md). -/
def cutAt (n : Nat) (s t : State) : State :=
  let seen := (eventsSince s t).take n
  hardReset
    { s with
      trace := s.trace ++ seen
      oracle := s.oracle.drop (seen.countP Event.isCall)
      env := s.env.drop (seen.countP Event.isSample)
      free := t.free }

/-- A command that a reset cuts after `n` events; a reset wins over all that would come after it (60_exceptions.md R204), an undefined
point too. Only where that point comes before the cut, so that fewer than `n` events lead to it, the spec defines nothing. -/
def runCut (n : Nat) (i : Instr) (s : State) : Host.Outcome State Fault Refusal :=
  match instrRun i s with
  | .stopped why t => if (eventsSince s t).length < n then .refused why else .next (cutAt n s t)
  | .going t => .next (cutAt n s t)
  | .failed t => .next (cutAt n s t)

/-! ### Between commands -/

/-- One thing the outside world does at a command boundary. -/
def applyInput (x : Input) (s : State) : State :=
  match x with
  | .issue p buf => { s with port := ⟨p.cmd, p.opa, p.opl, Memory.place buf⟩, pending := .command }
  | .issueCutAt n p buf => { s with port := ⟨p.cmd, p.opa, p.opl, Memory.place buf⟩, pending := .commandCutAt n }
  | .reset => hardReset s
  | .debug r v => s.setDbg (s.dbg.put r v)

/-- The idle core: it waits for the host (70_reset_and_hazards.md R230), whose next act, if any, happens. -/
def idleStep (s : State) : State :=
  match s.inputs with
  | [] => s
  | x :: rest => applyInput x { s with inputs := rest }

end Sys2Proof.Machine
end

