-- ==== Sys2Proof/Machine/Step.lean ====
section
/-! DEFINITION. One step of the machine. The core has no program counter (10_state.md R21): a step reads the command that the host
has started on the port and runs it; with none started, the outside world moves. -/

namespace Sys2Proof.Machine

/-- One step: an idle core waits or takes an input; a started command is decoded and run to completion, or up to the reset that
cuts it (20_memory.md R69, 30_encoding.md R100, 70_reset_and_hazards.md R232). DESIGN CHOICE (notes/assumptions/24.md): a reserved encoding
(30_encoding.md R96) that a reset is to cut is refused for every count, 0 included; the spec does not say whether a reset could win
over what is no command. -/
def step (s : State) : Host.Outcome State Fault Refusal :=
  match s.pending with
  | .idle => .next (idleStep s)
  | .command =>
    match decode s.portWord with
    | .ok i => exec i s.taken
    | .error e => .refused (refusalOf e)
  | .commandCutAt n =>
    match decode s.portWord with
    | .ok i => runCut n i s.taken
    | .error e => .refused (refusalOf e)

/-- The state with a command placed where the step reads its next one: on the port, and started. -/
def State.withFetchWord (s : State) (nbits w : Nat) : State := s.placeCommand nbits w

end Sys2Proof.Machine
end

