-- ==== Sys2Proof/WellFormed.lean ====
section
/-! DEFINITION. Which commands the assembler syntax of 30_encoding.md R99 admits. The types of `Instr` already bound every
operand but one: the address of `ASET`, 32 bits wide with 19 legal ones (40_address_bus.md R111). `WDATA` checks nothing
about its operands (42_write_engine.md R172). -/

namespace Sys2Proof

/-- The legal range of an address operand, `0 .. 0x7FFFF` (20_memory.md R67). -/
abbrev addressLegal (a : Word) : Prop := a.toNat < 2 ^ 19

/-- The operands are in the ranges that 30_encoding.md R99 gives. -/
def Instr.wellFormed : Instr → Bool
  | .aset a => decide (addressLegal a)
  | .abegin => true
  | .dmode _ => true
  | .dread => true
  | .dwrite _ => true
  | .wdata _ _ => true
  | .dbgrst => true
  | .dbgprint => true

end Sys2Proof
end

