-- ==== Sys2Proof/Safety.lean ====
section
/-! DEFINITION. The terms that statements use: what the outside world sees of a run, the pin level and the command level, the
plan of a write, which answers of a primitive are defined, the coherence of the address unit and the invariant of the machine. -/

namespace Sys2Proof.Machine

/-! ### What the outside world sees -/

/-- The outgoing calls among the events, in order (42_write_engine.md R166, R167). -/
def callsOf (es : List Event) : List Event := es.filter Event.isCall

/-- The bits the primitives returned, in order. -/
def retsOf : List Event → List Bool
  | [] => []
  | .ret ok :: rest => ok :: retsOf rest
  | _ :: rest => retsOf rest

/-- Is the event one of the address pins' level: address pins made outputs or driven, or a wait? -/
def Event.isPinLevel : Event → Bool
  | .addrOutputs => true
  | .pin (.bus _) _ => false
  | .pin _ _ => true
  | .delay _ => true
  | _ => false

/-- How often a pin was driven high. The core raises a clock only from low, so this counts its rising edges
(40_address_bus.md R122). -/
def raisesOf (p : Pin) (es : List Event) : Nat := es.countP fun e => decide (e = .pin p true)

/-- The number of pin writes to `P_EXT`. -/
def extWrites (es : List Event) : Nat := es.countP fun e => match e with | .pin (.ext _) _ => true | _ => false

/-- The `Delay`s of the events, in time-units (70_reset_and_hazards.md R249). -/
def delayTotal : List Event → Nat
  | [] => 0
  | .delay n :: rest => n + delayTotal rest
  | _ :: rest => delayTotal rest

/-- The least time the waits of some events take, in the unit `T_UNIT` is counted in (70_reset_and_hazards.md R245). -/
def leastDuration (b : Board) (es : List Event) : Nat := delayTotal es * b.tUnit

/-! ### The pin level (00_scope.md R13) -/

/-- What one event does to the pins, shift registers and latches of the AddressBus unit. -/
def AddrUnit.onEvent (e : Event) (u : AddrUnit) : AddrUnit :=
  match e with
  | .addrOutputs => { u with pinsOut := true }
  | .pin p b => u.drive p b
  | .delay _ => u
  | .dataMode _ => u
  | .sample _ => u
  | .callByte _ _ => u
  | .callBlock _ _ _ => u
  | .ret _ => u
  | .report _ => u
  | .hardwareReset => u

/-- The AddressBus unit after some events. -/
def AddrUnit.replay (u : AddrUnit) (es : List Event) : AddrUnit := es.foldl (fun v e => v.onEvent e) u

/-- What one event does to the DataBus unit; `undet` is what its pins show from the moment they become outputs (U8). -/
def DataUnit.onEvent (undet : Byte) (e : Event) (d : DataUnit) : DataUnit :=
  match e with
  | .dataMode .output => ⟨.output, undet⟩
  | .dataMode m => { d with mode := m }
  | .pin (.bus p) b => { d with dOut := setPin d.dOut p b }
  | .pin _ _ => d
  | .addrOutputs => d
  | .delay _ => d
  | .sample _ => d
  | .callByte _ _ => d
  | .callBlock _ _ _ => d
  | .ret _ => d
  | .report _ => d
  | .hardwareReset => d

/-- The DataBus unit after some events. -/
def DataUnit.replay (undet : Byte) (d : DataUnit) (es : List Event) : DataUnit := es.foldl (fun v e => v.onEvent undet e) d

/-- The addresses the external device sees during some events, one after each (40_address_bus.md R118). -/
def addressesSeen (b : Board) (undet : Addr) (u : AddrUnit) : List Event → List Addr
  | [] => []
  | e :: rest => (u.onEvent e).xa b undet :: addressesSeen b undet (u.onEvent e) rest

/-- The unit without what no pin shows: the caches and the flag. -/
def AddrUnit.pinState (u : AddrUnit) : AddrUnit := { u with cHi := none, cExt := none, aBegun := false }

/-- The pin events of `ShiftOut(p, b)` (40_address_bus.md R114). -/
def shiftOutEvents (p : BytePlane) (b : Byte) : List Event :=
  (List.range 8).flatMap fun k =>
    [.pin .data (b.getLsbD (7 - k)), .pin (shiftClock p) true, .delay Config.tShift, .pin (shiftClock p) false]

/-- The pin events of `LatchPulse()` (40_address_bus.md R115). -/
def latchEvents : List Event := [.pin .rclk true, .delay Config.tLatch, .pin .rclk false, .delay Config.tLatch]

/-! ### The plan of a write -/

/-- The calls of byte mode, if none fails: `L` of them, at `s, s+1, …` (42_write_engine.md R161). -/
def byteCalls (buf : Memory) (s l : Word) : List Event :=
  (List.range l.toNat).map fun i => .callByte (Memory.read i buf) (s + BitVec.ofNat 32 i)

/-- `n` bytes from offset `off` and address `a` on, in chunks of `b` and a last shorter one: `(off, size, address)`. -/
def blockRun (b off a n : Nat) : List (Nat × Nat × Nat) :=
  ((List.range (n / b)).map fun j => (off + j * b, b, a + j * b)) ++
    if n % b = 0 then [] else [(off + n / b * b, n % b, a + n / b * b)]

/-- The closed form of block mode's chunks (42_write_engine.md R171, R173). -/
def blockPlan (b s l : Nat) : List (Nat × Nat × Nat) :=
  if s % b = 0 then blockRun b 0 s l
  else (0, min (b - s % b) l, s) :: blockRun b (min (b - s % b) l) (s + min (b - s % b) l) (l - min (b - s % b) l)

/-- A chunk of the plan as the call that hands it over. -/
def chunkCall (c : Nat × Nat × Nat) : Event :=
  .callBlock (BitVec.ofNat 32 c.1) (BitVec.ofNat 32 c.2.1) (BitVec.ofNat 32 c.2.2)

/-- The calls of a whole `WDATA a, l` in a state, if none fails. -/
def writePlan (s : State) (a l : Word) : List Event :=
  if s.profile.block = 0#32 then byteCalls s.port.buf a l
  else (blockPlan s.profile.block.toNat a.toNat l.toNat).map chunkCall

/-- The address of an outgoing call. -/
def callAddressOf : Event → Word
  | .callByte _ a => a
  | .callBlock _ _ a => a
  | _ => 0#32

/-! ### Answers the core can execute (42_write_engine.md R165) -/

/-- The mode of the data bus after an act from a mode, `none` where the spec leaves the act undefined (U3 to U5). -/
def actModeAfter (m : DMode) : PrimAct → Option DMode
  | .bus (.aset a) => if a.toNat < 2 ^ 19 then some m else none
  | .bus (.dmode d) => some (modeOf d)
  | .bus .dread => if m = .input then some m else none
  | .bus (.dwrite _) => if m = .output then some m else none
  | .debug _ _ => some m

/-- The same for a sequence of acts. -/
def actsModeAfter : DMode → List PrimAct → Option DMode
  | m, [] => some m
  | m, x :: rest =>
    match actModeAfter m x with
    | none => none
    | some m' => actsModeAfter m' rest

/-- Every answer up to the first that reports failure consists of acts the spec defines. -/
def scriptDefined : DMode → List Answer → Bool
  | _, [] => true
  | m, x :: rest =>
    match actsModeAfter m x.acts with
    | none => false
    | some m' => !x.ok || scriptDefined m' rest

/-! ### Sequences of commands and comparisons of runs -/

/-- Commands one after another, each run to its end before the next starts (20_memory.md R69). -/
def execAll : List Instr → State → Host.Outcome State Fault Refusal
  | [], s => .next s
  | i :: rest, s =>
    match exec i s with
    | .next t => execAll rest t
    | .fault r => .fault r
    | .refused r => .refused r

/-- An outcome with its next state seen through a function. -/
def seenThrough {α : Type} (f : State → α) : Host.Outcome State Fault Refusal → Host.Outcome α Fault Refusal
  | .next s => .next (f s)
  | .fault r => .fault r
  | .refused r => .refused r

/-- The state with another time-unit and other values in the three profile registers no rule reads (00_scope.md R10). -/
def State.withUnread (tUnit : Nat) (size twrite : Word) (poll : Bool) (s : State) : State :=
  { s with
    board := ⟨s.board.realization, s.board.dataPinMap, s.board.addrPinMap, tUnit⟩
    profile := ⟨size, s.profile.block, twrite, poll⟩ }

/-- No act at all: the primitive leaves the core alone (42_write_engine.md R165, "possibly empty"). -/
def Answer.quiet (x : Answer) : Bool := x.acts.isEmpty

/-- Is a debug register written while the primitive runs? -/
def Answer.writesDebug (r : DebugReg) (x : Answer) : Bool :=
  x.acts.any fun y => match y with | .debug r' _ => decide (r' = r) | .bus _ => false

/-- Does the primitive issue a `DREAD`? -/
def Answer.reads (x : Answer) : Bool := x.acts.any fun y => decide (y = .bus .dread)

/-- Does the primitive issue a `DMODE`? -/
def Answer.setsMode (x : Answer) : Bool :=
  x.acts.any fun y => match y with | .bus (.dmode _) => true | .bus _ => false | .debug _ _ => false

/-- Is the command an `ASET`? -/
def isAset : Instr → Bool
  | .aset _ => true
  | .abegin | .dmode _ | .dread | .dwrite _ | .wdata _ _ | .dbgrst | .dbgprint => false

/-- The value of one of the six debug registers, a byte register widened. -/
def Debug.get (r : DebugReg) (d : Debug) : Word :=
  match r with
  | .lastAddr => d.lastAddr
  | .lastExp => d.lastExp.setWidth 32
  | .lastRb => d.lastRb.setWidth 32
  | .dup => d.dup
  | .extra => d.extra
  | .sync => d.sync

/-- The step from `s` to `t` was a hardware reset: an input between commands or a cut inside one, and the reset is what it showed
last (70_reset_and_hazards.md R230, R232). -/
def wasReset (s t : State) : Prop :=
  ((s.pending = .idle ∧ ∃ rest, s.inputs = .reset :: rest) ∨ ∃ n, s.pending = .commandCutAt n) ∧
    ∃ es, t.trace = s.trace ++ es ++ [.hardwareReset]

/-- Is the command a `WDATA`? -/
def isWdata : Instr → Bool
  | .wdata _ _ => true
  | .abegin | .aset _ | .dmode _ | .dread | .dwrite _ | .dbgrst | .dbgprint => false

/-! ### Invariants -/

/-- A cache holds nothing, or the plane the device sees (40_address_bus.md R119). -/
def agrees {w : Nat} (c : Option (BitVec w)) (v : BitVec w) : Prop := c = none ∨ c = some v

/-- What 40_address_bus.md R119 says of the caches and the latched address. -/
structure AddrUnit.Coherent (b : Board) (u : AddrUnit) : Prop where
  pins : u.pinsOut = true
  ext : ∀ undet, agrees u.cExt ((u.xa b undet).extractLsb' 16 3)
  hi : ∀ undet, agrees u.cHi ((u.xa b undet).extractLsb' 8 8)
  both : u.cHi = none ↔ u.cExt = none

/-- What 40_address_bus.md R119 adds in SHIFT: clocks low, and registers and latches that agree with the caches. -/
structure AddrUnit.ShiftCoherent (u : AddrUnit) : Prop where
  rclk : u.pRclk = false
  sclkHi : u.pSclkHi = false
  sclkLo : u.pSclkLo = false
  hi : ∀ h, u.cHi = some h → u.srHi = h ∧ u.qHi = h
  lo : u.cHi ≠ none → u.srLo = u.qLo

/-- 40_address_bus.md R119 for a board, once `ABEGIN` has run; before it the pins are not driven (10_state.md R22). -/
def AddrUnit.Inv (b : Board) (u : AddrUnit) : Prop :=
  (u.aBegun = false → u.pinsOut = false) ∧
  (u.aBegun = true → u.Coherent b ∧ (b.realization = .shift → u.ShiftCoherent))

/-- The invariant of the machine at a command boundary: the pin maps are bijections (00_scope.md R8), the address unit is as
40_address_bus.md R119 says, the buffer is in canonical form, the write engine is idle (10_state.md R38). -/
structure State.Inv (s : State) : Prop where
  board : s.board.wf = true
  addr : s.addr.Inv s.board
  buf : s.port.buf.wf = true
  idle : s.we.busy = false

end Sys2Proof.Machine
end

