-- ==== Sys2Proof/Certificates/Slice0/Obligations.lean ====
section
/-! DEFINITION. The statements about the model, for the provers. Each says in its docstring which text of the spec it rests on. -/

open Sys2Proof Sys2Proof.Machine

/-! ### Encoding and the step -/

/-- 30_encoding.md sections 1 to 3 (the encoding is the spec's own decision D1 to D3): every command decodes from its own
encoding, and a port word that decodes to a command agrees with the command's encoding on every port the command's format reads,
so that no bit read is dropped. -/
def Obligations.EncodeAndDecodeAgree : Prop :=
  (∀ i : Instr, decode (encode i) = .ok i) ∧
  ∀ (p : PortWord) (i : Instr), decode p = .ok i →
    (encode i).cmd = p.cmd ∧ (i.readsOpa = true → (encode i).opa = p.opa) ∧ (i.readsOpl = true → (encode i).opl = p.opl)

/-- 30_encoding.md section 4 (decisions D2, D4): the reserved encodings are exactly the 248 other `CMD` values, a `DMODE` with
`OPA[31:1]` not 0 and a `DWRITE` with `OPA[31:8]` not 0. -/
def Obligations.ReservedEncodingsExactly : Prop :=
  (∀ p : PortWord, decode p = .error .reservedCommand ↔
    p.cmd.toNat ∉ [0x10, 0x11, 0x20, 0x21, 0x22, 0x30, 0x40, 0x41]) ∧
  (∀ p : PortWord, decode p = .error .reservedOperand ↔
    (p.cmd.toNat = 0x20 ∧ 2 ≤ p.opa.toNat) ∨ (p.cmd.toNat = 0x22 ∧ 2 ^ 8 ≤ p.opa.toNat)) ∧
  (List.range 256).countP (fun c => decide (decode ⟨BitVec.ofNat 8 c, 0#32, 0#32⟩ = .error .reservedCommand)) = 248

/-- 30_encoding.md section 3 and section 6: words written out from the table decode to their commands. -/
def Obligations.WrittenWordsDecode : Prop :=
  decode ⟨0b00010000#8, 0xFFFFFFFF#32, 0xFFFFFFFF#32⟩ = .ok .abegin ∧
  decode ⟨0b00010001#8, 0x00012345#32, 0#32⟩ = .ok (.aset 0x12345#32) ∧
  decode ⟨0b00100000#8, 0x00000001#32, 0#32⟩ = .ok (.dmode .output) ∧
  decode ⟨0b00100000#8, 0x00000000#32, 0#32⟩ = .ok (.dmode .input) ∧
  decode ⟨0b00100001#8, 0xFFFFFFFF#32, 0#32⟩ = .ok .dread ∧
  decode ⟨0b00100010#8, 0x000000A5#32, 0#32⟩ = .ok (.dwrite 0xA5#8) ∧
  decode ⟨0b00110000#8, 0x0000000A#32, 0x000000C8#32⟩ = .ok (.wdata 10#32 200#32) ∧
  decode ⟨0b01000000#8, 0#32, 0#32⟩ = .ok .dbgrst ∧
  decode ⟨0b01000001#8, 0#32, 0#32⟩ = .ok .dbgprint

/-- The model's reading of 30_encoding.md section 1 (notes/assumptions/5.md, 6.md): a started command that decodes is run by `exec`,
the ports and everything else as they stand, with nothing pending any more; one that does not decode is refused by name; a command
placed for the step is the one its word encodes. -/
def Obligations.StepRunsTheStartedCommand : Prop :=
  (∀ (s : State) (i : Instr), s.pending = .command → decode ⟨s.port.cmd, s.port.opa, s.port.opl⟩ = .ok i →
    step s = exec i { s with pending := .idle }) ∧
  (∀ (s : State) (e : DecodeError), s.pending = .command → decode ⟨s.port.cmd, s.port.opa, s.port.opl⟩ = .error e →
    step s = .refused (refusalOf e)) ∧
  ∀ (s : State) (n w : Nat) (i : Instr), decodeTableWord n w = some i →
    step (s.withFetchWord n w) = exec i { s.withFetchWord n w with pending := .idle }

/-- The model's idle core (70_reset_and_hazards.md R230 "after reset the core is idle and waits for the host";
notes/assumptions/5.md, 10.md, 24.md): it waits, and takes what the outside world does next. An issued command stands on the ports
and is started, be it one that a reset will cut, its bytes at the offsets of `BUF`; a collaborator's write changes the one debug
register it names, a byte register by the low byte, and never `DBG_BLKCNT`. -/
def Obligations.IdleCoreWaitsForTheHost : Prop :=
  (∀ s : State, s.pending = .idle → s.inputs = [] → step s = .next s) ∧
  (∀ (s : State) (p : PortWord) (bytes : List Byte) (rest : List Input), s.pending = .idle →
    s.inputs = .issue p bytes :: rest →
    ∃ t, step s = .next t ∧ t.pending = .command ∧ t.inputs = rest ∧ t.port.cmd = p.cmd ∧ t.port.opa = p.opa ∧
      t.port.opl = p.opl ∧ (∀ (i : Nat) (h : i < bytes.length), Memory.read i t.port.buf = bytes[i]) ∧
      t = { s with port := t.port, pending := .command, inputs := rest }) ∧
  (∀ (s : State) (n : Nat) (p : PortWord) (bytes : List Byte) (rest : List Input), s.pending = .idle →
    s.inputs = .issueCutAt n p bytes :: rest →
    ∃ t, step s = .next t ∧ t.pending = .commandCutAt n ∧ t.inputs = rest ∧ t.port.cmd = p.cmd ∧ t.port.opa = p.opa ∧
      t.port.opl = p.opl ∧ (∀ (i : Nat) (h : i < bytes.length), Memory.read i t.port.buf = bytes[i]) ∧
      t = { s with port := t.port, pending := .commandCutAt n, inputs := rest }) ∧
  ∀ (s : State) (r : DebugReg) (v : Word) (rest : List Input), s.pending = .idle → s.inputs = .debug r v :: rest →
    step s = .next { s with
      inputs := rest
      dbg :=
        { blkcnt := s.dbg.blkcnt
          lastAddr := if r = .lastAddr then v else s.dbg.lastAddr
          lastExp := if r = .lastExp then v.extractLsb' 0 8 else s.dbg.lastExp
          lastRb := if r = .lastRb then v.extractLsb' 0 8 else s.dbg.lastRb
          dup := if r = .dup then v else s.dbg.dup
          extra := if r = .extra then v else s.dbg.extra
          sync := if r = .sync then v else s.dbg.sync } }

/-! ### The AddressBus unit -/

/-- 40_address_bus.md section 1, with the decision D14 on the latches: the first `ABEGIN` completes; the pins are outputs and low,
the caches hold the sentinel, registers and latches are as before, no line rises, nothing else changes. -/
def Obligations.AbeginInitialisesTheUnit : Prop :=
  ∀ s : State, s.addr.aBegun = false → ∃ t, exec .abegin s = .next t ∧
    t.addr.aBegun = true ∧ t.addr.cHi = none ∧ t.addr.cExt = none ∧ t.addr.pinsOut = true ∧
    t.addr.srHi = s.addr.srHi ∧ t.addr.srLo = s.addr.srLo ∧ t.addr.qHi = s.addr.qHi ∧ t.addr.qLo = s.addr.qLo ∧
    (s.board.realization = .shift →
      t.addr.pData = false ∧ t.addr.pRclk = false ∧ t.addr.pSclkHi = false ∧ t.addr.pSclkLo = false ∧ t.addr.pExt = 0#3 ∧
      t.addr.pAddr = s.addr.pAddr ∧ ∀ undet, t.xa undet = (0#3 ++ s.addr.qHi ++ s.addr.qLo : BitVec 19)) ∧
    (s.board.realization = .direct →
      t.addr.pData = s.addr.pData ∧ t.addr.pRclk = s.addr.pRclk ∧ t.addr.pSclkHi = s.addr.pSclkHi ∧
      t.addr.pSclkLo = s.addr.pSclkLo ∧ t.addr.pExt = s.addr.pExt ∧ t.addr.pAddr = 0#19 ∧ ∀ undet, t.xa undet = 0#19) ∧
    (∃ es, t.trace = s.trace ++ es ∧ ∀ p, raisesOf p es = 0) ∧
    t = { s with addr := t.addr, trace := t.trace }

/-- 40_address_bus.md sections 1 to 3 (U1, U2, U5 of 93_implementation_defined.md): where `ABEGIN` and `ASET` have no defined
behaviour, and only there, they are refused by name; everywhere else they complete. That an `ASET` which meets both U1 and U5 is
refused as U1 is the order of R111's pseudocode (DEDUCED, notes/assumptions/21.md). -/
def Obligations.AddressCommandsRefusedExactly : Prop :=
  (∀ s : State, exec .abegin s = .refused .beginTwice ↔ s.addr.aBegun = true) ∧
  (∀ s : State, (∃ t, exec .abegin s = .next t) ↔ s.addr.aBegun = false) ∧
  (∀ (s : State) (a : Word), exec (.aset a) s = .refused .asetBeforeBegin ↔ s.addr.aBegun = false) ∧
  (∀ (s : State) (a : Word), exec (.aset a) s = .refused .addressTooWide ↔ s.addr.aBegun = true ∧ 2 ^ 19 ≤ a.toNat) ∧
  ∀ (s : State) (a : Word), (∃ t, exec (.aset a) s = .next t) ↔ s.addr.aBegun = true ∧ a.toNat < 2 ^ 19

/-- 10_state.md R31: at the end of every `ASET a`, on both realizations and whatever the caches held, the device sees `a`; nothing
outside the unit changes but the model's counter and trace. The premise is the invariant of 40_address_bus.md R119, which every step
keeps and R31 names. -/
def Obligations.AsetPresentsTheAddress : Prop :=
  ∀ (s : State) (a : Word), s.Inv → s.addr.aBegun = true → a.toNat < 2 ^ 19 → ∃ t, exec (.aset a) s = .next t ∧
    (∀ undet, t.xa undet = a.extractLsb' 0 19) ∧
    t = { s with addr := t.addr, free := t.free, trace := t.trace }

/-- 40_address_bus.md section 2 (what R111 derives of the state after): the caches hold the planes; in SHIFT registers and latches hold
them, the clocks are low and `P_DATA` is `a[0]`. -/
def Obligations.AsetLeavesTheUnitAtTheAddress : Prop :=
  ∀ (s : State) (a : Word), s.Inv → s.addr.aBegun = true → a.toNat < 2 ^ 19 → ∃ t, exec (.aset a) s = .next t ∧
    t.addr.aBegun = true ∧ t.addr.pinsOut = true ∧
    t.addr.cExt = some (a.extractLsb' 16 3) ∧ t.addr.cHi = some (a.extractLsb' 8 8) ∧
    (s.board.realization = .shift →
      t.addr.srLo = a.extractLsb' 0 8 ∧ t.addr.qLo = a.extractLsb' 0 8 ∧ t.addr.srHi = a.extractLsb' 8 8 ∧
      t.addr.qHi = a.extractLsb' 8 8 ∧ t.addr.pExt = a.extractLsb' 16 3 ∧ t.addr.pData = a.getLsbD 0 ∧
      t.addr.pRclk = false ∧ t.addr.pSclkHi = false ∧ t.addr.pSclkLo = false ∧ t.addr.pAddr = s.addr.pAddr)

/-- 40_address_bus.md R112 in SHIFT, with R25: the extended bits and the high byte are transmitted exactly when their caches differ,
in that order of planes (decision D11), the low byte always; each cache holds the plane afterwards. -/
def Obligations.AsetTransmitsChangedPlanes : Prop :=
  ∀ (s : State) (a : Word), s.Inv → s.board.realization = .shift → s.addr.aBegun = true → a.toNat < 2 ^ 19 →
    ∃ t ext hi, exec (.aset a) s = .next t ∧
      eventsSince s t = ext ++ hi ++ (shiftOutEvents .lo (a.extractLsb' 0 8) ++ latchEvents) ∧
      (s.addr.cExt = some (a.extractLsb' 16 3) → ext = []) ∧
      (s.addr.cExt ≠ some (a.extractLsb' 16 3) → ext.Perm (extEvents (a.extractLsb' 16 3))) ∧
      (s.addr.cHi = some (a.extractLsb' 8 8) → hi = []) ∧
      (s.addr.cHi ≠ some (a.extractLsb' 8 8) → hi = shiftOutEvents .hi (a.extractLsb' 8 8) ++ latchEvents) ∧
      t.addr.cExt = some (a.extractLsb' 16 3) ∧ t.addr.cHi = some (a.extractLsb' 8 8)

/-- 70_reset_and_hazards.md R234: after `ABEGIN` the first `ASET` transmits all three planes whatever its operand, in whatever order of
planes, and then the device sees the address, whatever the latches held and whatever commands without an `ASET` came between the
two. -/
def Obligations.FirstAsetTransmitsEveryPlane : Prop :=
  ∀ s : State, s.board.wf = true → s.addr.aBegun = false → ∃ t, exec .abegin s = .next t ∧
    ∀ (between : List Instr) (u : State) (a : Word), (∀ i ∈ between, isAset i = false ∧ isWdata i = false) →
      execAll between t = .next u → a.toNat < 2 ^ 19 → ∃ v, exec (.aset a) u = .next v ∧
        (s.board.realization = .shift →
          ∃ (ext : List Event) (planes : List (List Event)), ext.Perm (extEvents (a.extractLsb' 16 3)) ∧
            eventsSince u v = planes.flatten ∧
            planes.Perm [ext, shiftOutEvents .hi (a.extractLsb' 8 8) ++ latchEvents,
              shiftOutEvents .lo (a.extractLsb' 0 8) ++ latchEvents]) ∧
        (s.board.realization = .direct → (eventsSince u v).Perm (directEvents s.board.addrPinMap a)) ∧
        ∀ undet, v.xa undet = a.extractLsb' 0 19

/-- 40_address_bus.md section 4 (R122) and 70_reset_and_hazards.md section 4 (R249), both derived by the spec: pulses, writes of
`P_EXT` (three pins) and waits of one `ASET` in SHIFT. -/
def Obligations.AsetPulseCountsAndDelays : Prop :=
  ∀ (s : State) (a : Word), s.Inv → s.board.realization = .shift → s.addr.aBegun = true → a.toNat < 2 ^ 19 →
    ∃ t, exec (.aset a) s = .next t ∧
      raisesOf .sclkLo (eventsSince s t) = 8 ∧
      raisesOf .sclkHi (eventsSince s t) = (if s.addr.cHi = some (a.extractLsb' 8 8) then 0 else 8) ∧
      raisesOf .rclk (eventsSince s t) = (if s.addr.cHi = some (a.extractLsb' 8 8) then 1 else 2) ∧
      extWrites (eventsSince s t) = (if s.addr.cExt = some (a.extractLsb' 16 3) then 0 else 3) ∧
      delayTotal (eventsSince s t) = (if s.addr.cHi = some (a.extractLsb' 8 8) then 26 else 52)

/-- 40_address_bus.md section 2.2 (R116) and decision D12: in DIRECT every `ASET` writes all nineteen pins through the map, in some order,
with no wait, whatever the caches hold. -/
def Obligations.DirectAsetWritesEveryPin : Prop :=
  ∀ (s : State) (a : Word), s.board.wf = true → s.board.realization = .direct → s.addr.aBegun = true → a.toNat < 2 ^ 19 →
    ∃ t, exec (.aset a) s = .next t ∧
      (∀ i : Fin 19, t.addr.pAddr.getLsbD (s.board.addrPinMap.get i) = a.getLsbD i) ∧
      (eventsSince s t).Perm ((List.finRange 19).map fun i => .pin (.addr (s.board.addrPinMap.get i)) (a.getLsbD i)) ∧
      delayTotal (eventsSince s t) = 0 ∧
      t.addr = { s.addr with pAddr := t.addr.pAddr, cExt := some (a.extractLsb' 16 3), cHi := some (a.extractLsb' 8 8) }

/-- 40_address_bus.md R120 (derived by the spec from the source's property T1): the second of two equal `ASET`s leaves every pin,
register, latch and cache as the first left it. -/
def Obligations.AsetTwiceIsIdempotent : Prop :=
  ∀ (s : State) (a : Word), s.Inv → s.addr.aBegun = true → a.toNat < 2 ^ 19 →
    ∃ t v, exec (.aset a) s = .next t ∧ exec (.aset a) t = .next v ∧ v.addr = t.addr ∧ v.data = t.data ∧
      ∀ undet, v.xa undet = t.xa undet

/-- 40_address_bus.md R118 (derived by the spec): in SHIFT, once both caches hold planes, the device sees during `ASET a` first at most
three addresses whose low sixteen bits are the old ones and whose extended bits are each old or new, then the new extended bits over
the old bytes, then the new high byte over the old low byte, then `a`, in this order and nothing else. -/
def Obligations.AsetIntermediateAddresses : Prop :=
  ∀ (s : State) (a : Word) (undet : Addr), s.Inv → s.board.realization = .shift → s.addr.aBegun = true → s.addr.cHi ≠ none →
    a.toNat < 2 ^ 19 → ∃ t pre m k n, exec (.aset a) s = .next t ∧
      addressesSeen s.board undet s.addr (eventsSince s t) =
        pre ++ List.replicate m (a.extractLsb' 16 3 ++ (s.xa undet).extractLsb' 8 8 ++ (s.xa undet).extractLsb' 0 8 : BitVec 19) ++
          List.replicate k (a.extractLsb' 16 3 ++ a.extractLsb' 8 8 ++ (s.xa undet).extractLsb' 0 8 : BitVec 19) ++
          List.replicate n (a.extractLsb' 0 19) ∧
      0 < n ∧ pre.length ≤ 3 ∧
      ∀ x ∈ pre, x.extractLsb' 0 16 = (s.xa undet).extractLsb' 0 16 ∧
        ∀ j, 16 ≤ j → j < 19 → x.getLsbD j = (s.xa undet).getLsbD j ∨ x.getLsbD j = a.getLsbD j

/-- 40_address_bus.md R121 (derived by the spec): after `ABEGIN` and any commands with an `ASET` among them, a SHIFT board and a DIRECT
board show the device the same address. `WDATA` is left to the statements about it: what its primitives do is the outside world's. -/
def Obligations.RealizationsShowTheSameAddress : Prop :=
  ∀ (s1 s2 t1 t2 : State) (is : List Instr) (u1 u2 : Addr),
    s1.board.wf = true → s2.board.wf = true → s1.board.realization = .shift → s2.board.realization = .direct →
    s1.addr.aBegun = false → s2.addr.aBegun = false →
    (∀ i ∈ is, isWdata i = false) → (∃ a, Instr.aset a ∈ is) →
    execAll (.abegin :: is) s1 = .next t1 → execAll (.abegin :: is) s2 = .next t2 → t1.xa u1 = t2.xa u2

/-- 40_address_bus.md R114: `ShiftOut` drives, for each of the eight bits from the most significant on, the data line, then the shift
clock high, a wait of three, then low; after `n` bits the register holds its old bits shifted up by `n` and the top `n` bits of the
byte; after eight it holds the byte, `P_DATA` is `b[0]`, and the other register, the latches and the caches are as before. -/
def Obligations.ShiftOutSerializesTheByte : Prop :=
  ∀ (p : BytePlane) (b : Byte) (s : State), s.addr.pSclkHi = false → s.addr.pSclkLo = false →
    (shiftOut p b s).trace = s.trace ++
      ((List.range 8).flatMap fun k =>
        [.pin .data (b.getLsbD (7 - k)), .pin (match p with | .hi => .sclkHi | .lo => .sclkLo) true, .delay 3,
          .pin (match p with | .hi => .sclkHi | .lo => .sclkLo) false]) ∧
    (∀ n ≤ 8,
      let u := s.addr.replay ((shiftOutEvents p b).take (4 * n))
      (match p with | .hi => u.srHi | .lo => u.srLo) =
        ((match p with | .hi => s.addr.srHi | .lo => s.addr.srLo : Byte) <<< n) ||| (b >>> (8 - n))) ∧
    (shiftOut p b s).addr =
      match p with
      | .hi => { s.addr with pData := b.getLsbD 0, srHi := b }
      | .lo => { s.addr with pData := b.getLsbD 0, srLo := b }

/-- 40_address_bus.md section 2.1 (R115) with 10_state.md section 2 (R27, R28; the edge from general knowledge, notes/assumptions/16.md):
the latch pulse loads both latches and moves nothing else; a latch or register never moves without the rising edge of its own
clock. -/
def Obligations.LatchesAndRegistersFollowTheirClocks : Prop :=
  (∀ s : State, s.addr.pRclk = false →
    (latchPulse s).addr = { s.addr with qHi := s.addr.srHi, qLo := s.addr.srLo } ∧
    (latchPulse s).trace = s.trace ++ [.pin .rclk true, .delay 1, .pin .rclk false, .delay 1]) ∧
  ∀ (u : AddrUnit) (p : Pin) (b : Bool),
    ((u.drive p b).qHi ≠ u.qHi ∨ (u.drive p b).qLo ≠ u.qLo → p = .rclk ∧ u.pRclk = false ∧ b = true) ∧
    ((u.drive p b).srHi ≠ u.srHi → p = .sclkHi ∧ u.pSclkHi = false ∧ b = true) ∧
    ((u.drive p b).srLo ≠ u.srLo → p = .sclkLo ∧ u.pSclkLo = false ∧ b = true)

/-- 00_scope.md R13: the command level is the state after the last pin event. For every command that completes, its events, replayed
one by one from the start, in whatever order the model's free draws put them, give the AddressBus unit's pins, registers and latches
and the DataBus unit at the command's end. What the data pins drive after `DMODE OUT` is no event (U8): with some value for it the
replay gives `D_OUT`, and with any value once a data pin was written after the last `DMODE OUT`. -/
def Obligations.PinLevelAgreesWithCommandLevel : Prop :=
  ∀ (s t : State) (i : Instr), s.board.wf = true → exec i s = .next t →
    (∃ es, t.trace = s.trace ++ es) ∧ (s.addr.replay (eventsSince s t)).pinState = t.addr.pinState ∧
    (∃ undet, s.data.replay undet (eventsSince s t) = t.data) ∧
    ∀ (pre post : List Event) (p : Fin 8) (b : Bool), eventsSince s t = pre ++ .pin (.bus p) b :: post →
      .dataMode .output ∉ post → ∀ undet, s.data.replay undet (eventsSince s t) = t.data

/-! ### The DataBus unit -/

/-- 41_data_bus.md section 1 (R140; decision D16 on the driven byte): `DMODE` completes in every state and selects the mode of all
eight pins; in `OUT` the driven byte is some value the statement says nothing about; nothing else changes. The model's own: that
`D_OUT`, without meaning in `IN`, is kept by `DMODE IN` (notes/assumptions/11.md; 10_state.md R54 calls it unspecified after any
`DMODE`), and that the change of the eight pins is one event (DESIGN CHOICE, notes/assumptions/15.md). -/
def Obligations.DmodeSelectsTheMode : Prop :=
  ∀ s : State,
    (∃ t, exec (.dmode .input) s = .next t ∧ t.data.mode = .input ∧ t.data.dOut = s.data.dOut ∧
      t = { s with data := t.data, trace := s.trace ++ [.dataMode .input] }) ∧
    (∃ t, exec (.dmode .output) s = .next t ∧ t.data.mode = .output ∧
      t = { s with data := t.data, free := t.free, trace := s.trace ++ [.dataMode .output] })

/-- 41_data_bus.md section 2: `DREAD` is refused outside input mode; in input mode it completes, and bit `i` of `RES_DATA` is the level
of physical pin `M(i)`; that is `XD`; `RES_OK` and everything else stay. That an undriven line reads 1, so that a bit is 0 only where
its line is driven low and an undriven read gives 0xFF, is PRESUMED (from general knowledge, G1, notes/assumptions/14.md). -/
def Obligations.DreadReturnsTheLines : Prop :=
  (∀ opa opl : Word, decode ⟨0x21#8, opa, opl⟩ = .ok .dread) ∧
  (∀ s : State, s.data.mode ≠ .input → exec .dread s = .refused .dreadOutsideInput) ∧
  ∀ s : State, s.data.mode = .input → ∃ t, exec .dread s = .next t ∧
    (∀ i : Fin 8, t.res.data.getLsbD i = decide (s.nextEnv.get (s.board.dataPinMap.get i) ≠ .low)) ∧
    (∀ undet, t.res.data = s.xd undet s.nextEnv) ∧
    ((∀ p, s.nextEnv.get p = .z) → t.res.data = 0xFF#8) ∧
    t.res.ok = s.res.ok ∧
    t = { s with res := t.res, env := s.env.tail, free := t.free, trace := s.trace ++ [.sample s.nextEnv] }

/-- 41_data_bus.md R142: `DWRITE` is refused outside output mode; in output mode it completes, drives bit `i` on physical pin `M(i)`,
and, where no line is driven against it, the device sees the value; nothing else changes. -/
def Obligations.DwriteDrivesTheByte : Prop :=
  (∀ (opa opl : Word), opa.toNat < 2 ^ 8 → decode ⟨0x22#8, opa, opl⟩ = .ok (.dwrite (opa.extractLsb' 0 8))) ∧
  (∀ (s : State) (v : Byte), s.data.mode ≠ .output → exec (.dwrite v) s = .refused .dwriteOutsideOutput) ∧
  ∀ (s : State) (v : Byte), s.board.wf = true → s.data.mode = .output → ∃ t, exec (.dwrite v) s = .next t ∧
    t.data.mode = .output ∧
    (∀ i : Fin 8, t.data.dOut.getLsbD (s.board.dataPinMap.get i) = v.getLsbD i) ∧
    (∀ (undet : Byte) (env : EnvVector),
      (∀ p, env.get p = .z ∨ env.get p = (if t.data.dOut.getLsbD p then .high else .low)) → t.xd undet env = v) ∧
    (eventsSince s t).Perm
      ((List.finRange 8).map fun i => .pin (.bus (s.board.dataPinMap.get i)) (v.getLsbD i)) ∧
    t = { s with data := t.data, free := t.free, trace := t.trace }

/-- 41_data_bus.md R144: reading through the pin map undoes writing through it, for every bijective map and every byte; and every
physical pin has its logical bit. -/
def Obligations.DataPinMapIsUndone : Prop :=
  ∀ b : Board, b.wf = true →
    (∀ p : Fin 8, ∃ i : Fin 8, b.dataPinMap.get i = p ∧ ∀ j, b.dataPinMap.get j = p → j = i) ∧
    ∀ v old : Byte, gather b.dataPinMap (fun p => (scatter b.dataPinMap v old).getLsbD p) = v

/-- 41_data_bus.md section 5 (R149, derived by the spec; the loop-back environment is its decision D18): write, switch to input, read with
the lines driven to what the core last drove: the byte comes back, for every byte and every bijective map. -/
def Obligations.LoopBackReturnsTheByte : Prop :=
  ∀ (s s1 s2 s3 : State) (x : Byte) (rest : List EnvVector), s.board.wf = true →
    exec (.dmode .output) s = .next s1 → exec (.dwrite x) s1 = .next s2 → exec (.dmode .input) s2 = .next s3 →
    s.env = Vector.ofFn (fun p : Fin 8 => if s2.data.dOut.getLsbD p then Drive.high else Drive.low) :: rest →
    ∃ t, exec .dread s3 = .next t ∧ t.res.data = x

/-- 41_data_bus.md section 5 (R150, derived by the spec; the pull-up level from general knowledge, notes/assumptions/14.md): `DMODE IN;
DREAD` with no line driven reads 0xFF. -/
def Obligations.UndrivenReadIsAllOnes : Prop :=
  ∀ (s : State) (e : EnvVector) (rest : List EnvVector), s.env = e :: rest → (∀ p, e.get p = .z) →
    ∃ t v, exec (.dmode .input) s = .next t ∧ exec .dread t = .next v ∧ v.res.data = 0xFF#8

/-- 41_data_bus.md section 5 (R151, derived by the spec): the two bus units are independent. -/
def Obligations.BusUnitsAreIndependent : Prop :=
  (∀ (s t : State) (i : Instr), (i = .dread ∨ (∃ d, i = .dmode d) ∨ ∃ v, i = .dwrite v) → exec i s = .next t →
    t.addr = s.addr ∧ ∀ u, seenThrough (fun x => (x.data, x.res)) (exec i (s.setAddr u)) = .next (t.data, t.res)) ∧
  ∀ (s t : State) (i : Instr), (i = .abegin ∨ ∃ a, i = .aset a) → exec i s = .next t →
    t.data = s.data ∧ ∀ d, seenThrough (fun x => x.addr) (exec i (s.setData d)) = .next t.addr

/-! ### The write engine -/

/-- 42_write_engine.md R161, R162 (in the closed form of R171), R163, R174: whatever the primitives do and answer, a `WDATA` that ends
has made either every call of its plan, all answered 1, and reports 1; or the calls up to the first that answered 0, none after it,
and reports 0. That the plan of length 0 at an unaligned start is one empty call is decision D22 (notes/assumptions/19.md). -/
def Obligations.WdataHandsOverThePlan : Prop :=
  ∀ (s t : State) (a l : Word), exec (.wdata a l) s = .next t →
    t.we.busy = false ∧ (∃ es, t.trace = s.trace ++ es) ∧
    ((callsOf (eventsSince s t) = writePlan s a l ∧
        retsOf (eventsSince s t) = List.replicate (writePlan s a l).length true ∧ t.res.ok = true) ∨
      ∃ k, k < (writePlan s a l).length ∧ callsOf (eventsSince s t) = (writePlan s a l).take (k + 1) ∧
        retsOf (eventsSince s t) = List.replicate k true ++ [false] ∧ t.res.ok = false)

/-- 42_write_engine.md R163: when a primitive answers 0 its answer is the last thing the outside world sees of the write: no `ASET`, no
call, no retry follows; every earlier answer was 1 and what was handed over stays; the failure is returned; and after the answer no
loop runs on and no debug register moves. With no answer 0 the write reports success. -/
def Obligations.FirstFailureAbortsTheWrite : Prop :=
  (∀ (s t : State) (a l : Word), exec (.wdata a l) s = .next t →
    (t.res.ok = false ↔ .ret false ∈ eventsSince s t) ∧
    (t.res.ok = false → ∃ es, t.trace = s.trace ++ es ++ [.ret false] ∧ .ret false ∉ es)) ∧
  (∀ (s : State) (f : State → Run), (returnBit false s).andThen f = .failed (s.emit [.ret false])) ∧
  ∀ s : State, ∃ t, (Run.failed s).finish = .next t ∧ t.dbg = s.dbg ∧ t.trace = s.trace ∧ t.addr = s.addr ∧ t.res.ok = false

/-- 42_write_engine.md sections 1 to 3 (R163, R165, R172, R174): nothing is checked beforehand. Look at the first `n` calls of the plan,
all of it or enough of it that one answers 0: if the block size is admitted, `ABEGIN` has run where a call is due, these `n` call
addresses are on the bus and these `n` answers issue only commands the core defines, the `WDATA` completes, whatever addresses and
answers would come later, and `RES_OK` says whether all `n` answered 1. -/
def Obligations.WdataCompletes : Prop :=
  ∀ (s : State) (a l : Word) (n : Nat), blockAdmitted s.profile.block = true →
    (writePlan s a l ≠ [] → s.addr.aBegun = true) →
    n ≤ (writePlan s a l).length → n ≤ s.oracle.length →
    (∀ c ∈ (writePlan s a l).take n, (callAddressOf c).toNat < 2 ^ 19) →
    scriptDefined s.data.mode (s.oracle.take n) = true →
    (n = (writePlan s a l).length ∨ (s.oracle.take n).all Answer.ok = false) →
    ∃ t, exec (.wdata a l) s = .next t ∧ t.we.busy = false ∧ t.res.ok = (s.oracle.take n).all Answer.ok

/-- 42_write_engine.md section 3 (R172; decisions D19, D20): the engine checks nothing, so a write whose call addresses leave the 19-bit
space makes the calls before the first such address, all answered 1, and stops at the `ASET` of that one (U5), no further call
made. -/
def Obligations.WdataStopsAtTheFirstAddressOffTheBus : Prop :=
  ∀ (s : State) (a l : Word) (k : Nat) (c : Event), blockAdmitted s.profile.block = true → s.addr.aBegun = true →
    (writePlan s a l)[k]? = some c → 2 ^ 19 ≤ (callAddressOf c).toNat →
    (∀ c' ∈ (writePlan s a l).take k, (callAddressOf c').toNat < 2 ^ 19) →
    k ≤ s.oracle.length → scriptDefined s.data.mode (s.oracle.take k) = true → (s.oracle.take k).all Answer.ok = true →
    exec (.wdata a l) s = .refused .addressTooWide ∧
    ∃ v es, wdataRun a l s = .stopped .addressTooWide v ∧ v.trace = s.trace ++ es ∧
      callsOf es = (writePlan s a l).take k ∧ retsOf es = List.replicate k true

/-- 42_write_engine.md R175 (U13, decision D21) and R160: a block size that is neither 0 nor a power of two has no transition, and
neither has a write with a call due before `ABEGIN` (U1). -/
def Obligations.WdataRefusedWithoutItsPremises : Prop :=
  (∀ b : Word, blockAdmitted b = true ↔ b = 0#32 ∨ ∃ k, k < 32 ∧ b.toNat = 2 ^ k) ∧
  (∀ (s : State) (a l : Word), blockAdmitted s.profile.block = false →
    exec (.wdata a l) s = .refused .blockSizeNotAdmitted) ∧
  ∀ (s : State) (a l : Word), blockAdmitted s.profile.block = true → s.addr.aBegun = false → writePlan s a l ≠ [] →
    exec (.wdata a l) s = .refused .asetBeforeBegin

/-- 42_write_engine.md section 3 (R173, decision D22): with length 0, byte mode and an aligned start make no call, no `ASET` and report 1,
even before `ABEGIN`; an unaligned start in block mode makes exactly one empty call, whose answer is the result. -/
def Obligations.WdataOfLengthZero : Prop :=
  (∀ (s : State) (a : Word), blockAdmitted s.profile.block = true →
    (s.profile.block = 0#32 ∨ a.toNat % s.profile.block.toNat = 0) →
    ∃ t, exec (.wdata a 0#32) s = .next t ∧ t.res.ok = true ∧
      t = { s with res := ⟨true, s.res.data⟩, we := t.we, free := t.free }) ∧
  ∀ (s t : State) (a : Word), s.profile.block ≠ 0#32 → a.toNat % s.profile.block.toNat ≠ 0 →
    exec (.wdata a 0#32) s = .next t →
    callsOf (eventsSince s t) = [.callBlock 0#32 0#32 a] ∧ retsOf (eventsSince s t) = [t.res.ok] ∧
      t.dbg.blkcnt = s.dbg.blkcnt + 1#32

/-- 42_write_engine.md section 3 (R169 as corrected there, R170, derived by the spec): every block call stays inside one block, starts at a
boundary unless it is the first, hands over a whole block unless it is the first or the last, and names the address of its offset. -/
def Obligations.WdataChunksRespectBlocks : Prop :=
  ∀ (s t : State) (a l off n x : Word), s.profile.block ≠ 0#32 → a.toNat + l.toNat ≤ 2 ^ 32 →
    exec (.wdata a l) s = .next t → .callBlock off n x ∈ callsOf (eventsSince s t) →
    x.toNat = a.toNat + off.toNat ∧ off.toNat + n.toNat ≤ l.toNat ∧ n.toNat ≤ s.profile.block.toNat ∧
    (off = 0#32 ∨ x.toNat % s.profile.block.toNat = 0) ∧
    (n ≠ 0#32 → x.toNat / s.profile.block.toNat = (x.toNat + n.toNat - 1) / s.profile.block.toNat) ∧
    (n = s.profile.block ∨ off = 0#32 ∨ off.toNat + n.toNat = l.toNat)

/-- 42_write_engine.md section 3 (R171, R177, derived by the spec): how many calls a successful write makes, and the bound for any. -/
def Obligations.WdataCallCounts : Prop :=
  (∀ (s t : State) (a l : Word), s.profile.block = 0#32 → exec (.wdata a l) s = .next t →
    (callsOf (eventsSince s t)).length ≤ l.toNat ∧ (t.res.ok = true → (callsOf (eventsSince s t)).length = l.toNat)) ∧
  ∀ (s t : State) (a l : Word), s.profile.block ≠ 0#32 → a.toNat + l.toNat ≤ 2 ^ 32 → exec (.wdata a l) s = .next t →
    (callsOf (eventsSince s t)).length ≤ (l.toNat + s.profile.block.toNat - 1) / s.profile.block.toNat + 1 ∧
    (t.res.ok = true → 0 < l.toNat → (callsOf (eventsSince s t)).length =
      (a.toNat + l.toNat - 1) / s.profile.block.toNat - a.toNat / s.profile.block.toNat + 1)

/-- 42_write_engine.md section 2 (R164, decision D19): at the moment of every call the device sees that call's address, and no call
leaves for an address the bus does not have. -/
def Obligations.WdataPresentsEachCallAddress : Prop :=
  ∀ (s t : State) (a l : Word) (pre post : List Event) (c : Event), s.Inv → exec (.wdata a l) s = .next t →
    eventsSince s t = pre ++ c :: post → c.isCall = true →
    (callAddressOf c).toNat < 2 ^ 19 ∧
    ∀ undet, (s.addr.replay pre).xa s.board undet = (callAddressOf c).extractLsb' 0 19

/-- 42_write_engine.md section 2 (R168, decision D25): `DBG_BLKCNT` grows by one, modulo 2^32, for each block call, a failed one
included, and byte mode leaves it. -/
def Obligations.WdataCountsBlockCalls : Prop :=
  ∀ (s t : State) (a l : Word), exec (.wdata a l) s = .next t →
    t.dbg.blkcnt =
      if s.profile.block = 0#32 then s.dbg.blkcnt
      else s.dbg.blkcnt + BitVec.ofNat 32 (callsOf (eventsSince s t)).length

/-- 10_state.md section 9 (R54), 20_memory.md section 1, 42_write_engine.md section 2: what a `WDATA` leaves alone, whatever its primitives
do: the profile, the board, the buffer, `OPL`, `A_BEGUN`; and, when its primitives do nothing but answer, the other ports, the data
bus, `RES_DATA` and the six debug registers too (`DebugRegistersAreSideState` says the same register by register). That `OPL` stays
when a primitive issues a command that does not use it is the model's choice (DESIGN CHOICE, notes/assumptions/30.md), and that the
six move only by acts of the answers is DEDUCED (notes/assumptions/10.md). -/
def Obligations.WdataFrame : Prop :=
  (∀ (s t : State) (a l : Word), exec (.wdata a l) s = .next t →
    t.port.buf = s.port.buf ∧ t.port.opl = s.port.opl ∧ t.addr.aBegun = s.addr.aBegun ∧
    t = { s with
      port := t.port, res := t.res, addr := t.addr, data := t.data, we := t.we, dbg := t.dbg, env := t.env, oracle := t.oracle,
      free := t.free, trace := t.trace }) ∧
  ∀ (s t : State) (a l : Word), (writePlan s a l).length ≤ s.oracle.length →
    (s.oracle.take (writePlan s a l).length).all Answer.quiet = true →
    exec (.wdata a l) s = .next t →
    t.port = s.port ∧ t.data = s.data ∧ t.res.data = s.res.data ∧ t.env = s.env ∧ t.dbg = { s.dbg with blkcnt := t.dbg.blkcnt } ∧
      t.oracle = s.oracle.drop (callsOf (eventsSince s t)).length

/-- 60_exceptions.md R205: taking `Fail` saves nothing and switches nothing: `RES_OK` and `WE_BUSY` become 0, the buses, the debug
registers and everything else stay as they were at that moment; the sequencer's values are unspecified from then on. -/
def Obligations.FailWritesTheResultOnly : Prop :=
  ∀ s : State, ∃ w, (Run.failed s).finish = .next { s with res := ⟨false, s.res.data⟩, we := w, free := s.free + 3 } ∧
    w.busy = false

/-! ### Diagnostics -/

/-- 43_diagnostics.md section "DBGRST" (R190; that reset means zero is decision D24): all seven are zero, nothing else changes. -/
def Obligations.DbgrstZeroesTheSeven : Prop :=
  ∀ s : State, exec .dbgrst s = .next { s with dbg := ⟨0#32, 0#32, 0#8, 0#8, 0#32, 0#32, 0#32⟩ }

/-- 43_diagnostics.md section "DBGPRINT" (R191; the order of the tuple is decision D26): the seven values are handed out, no state of
the core changes. -/
def Obligations.DbgprintReportsTheSeven : Prop :=
  ∀ s : State, exec .dbgprint s = .next { s with trace := s.trace ++
    [.report ⟨s.dbg.blkcnt, s.dbg.lastAddr, s.dbg.lastExp, s.dbg.lastRb, s.dbg.dup, s.dbg.extra, s.dbg.sync⟩] }

/-- 43_diagnostics.md (R192) and 10_state.md section 6: the debug registers are side state. The commands but `WDATA` and `DBGRST` leave
them alone; of `WDATA`'s own doing only `DBG_BLKCNT` moves, each of the other six only where it is written while a primitive runs
(R51 lets all six be; DEDUCED, notes/assumptions/10.md); and no command but `DBGPRINT`, which reports them, does anything else for
their values, `WDATA` with all its control flow included. -/
def Obligations.DebugRegistersAreSideState : Prop :=
  (∀ (s t : State) (i : Instr), isWdata i = false → i ≠ .dbgrst → exec i s = .next t → t.dbg = s.dbg) ∧
  (∀ (s t : State) (a l : Word) (r : DebugReg), exec (.wdata a l) s = .next t →
    (writePlan s a l).length ≤ s.oracle.length →
    (∀ x ∈ s.oracle.take (writePlan s a l).length, Answer.writesDebug r x = false) → t.dbg.get r = s.dbg.get r) ∧
  ∀ (s : State) (d : Debug) (i : Instr), i ≠ .dbgprint →
    seenThrough (State.setDbg Debug.zero) (exec i (s.setDbg d)) = seenThrough (State.setDbg Debug.zero) (exec i s)

/-! ### The whole machine -/

/-- 70_reset_and_hazards.md R246 and 10_state.md R40, R42, R43: no command reads the length of a time-unit, `PF_SIZE`, `PF_TWRITE` or
`PF_POLL`: with other values in them everything else comes out the same. -/
def Obligations.TimeAndIdleProfileFieldsAreUnread : Prop :=
  ∀ (s : State) (i : Instr) (u : Nat) (size twrite : Word) (poll : Bool),
    exec i (s.withUnread u size twrite poll) = seenThrough (State.withUnread u size twrite poll) (exec i s)

/-- 10_state.md section 7 (R52), 20_memory.md R62, 30_encoding.md R100: no step changes the board or the profile, no command changes the
buffer, and none but `WDATA`, whose primitives issue commands through them, changes the ports. -/
def Obligations.ConfigurationNeverChanges : Prop :=
  (∀ s t : State, step s = .next t → t.board = s.board ∧ t.profile = s.profile) ∧
  ∀ (s t : State) (i : Instr), exec i s = .next t →
    t.port.buf = s.port.buf ∧ (isWdata i = false → t.port = s.port) ∧ t.inputs = s.inputs ∧ t.pending = s.pending

/-- 10_state.md section 4 (R36, decision D1 for the ports): `RES_OK` is written by `WDATA` only, `RES_DATA` by `DREAD` only, be it one a
primitive issues inside a `WDATA`: a command during which the lines were not sampled leaves it, and so does a `WDATA` whose scripted
primitives issue no `DREAD`, whatever else they do. -/
def Obligations.ResultFlagsHaveTheirWriters : Prop :=
  (∀ (s t : State) (i : Instr), exec i s = .next t →
    (isWdata i = false → t.res.ok = s.res.ok ∧ (i ≠ .dread → t.res.data = s.res.data)) ∧
    ((∀ e ∈ eventsSince s t, e.isSample = false) → t.res.data = s.res.data)) ∧
  ∀ (s t : State) (a l : Word), exec (.wdata a l) s = .next t → (writePlan s a l).length ≤ s.oracle.length →
    (∀ x ∈ s.oracle.take (writePlan s a l).length, Answer.reads x = false) → t.res.data = s.res.data

/-- 10_state.md R22, R32 (the flag is decision D7, the mode before the first `DMODE` decision D15): `A_BEGUN` rises by `ABEGIN` only and
falls by a step that is a hardware reset only; `D_MODE` moves by `DMODE`, by a `WDATA` during which the pins were switched to the mode
it ends in, or by a step that is a hardware reset; and a `WDATA` whose scripted primitives issue no `DMODE` leaves it. -/
def Obligations.ModeFlagsHaveTheirWriters : Prop :=
  (∀ s t : State, step s = .next t →
    (s.addr.aBegun = false → t.addr.aBegun = true →
      s.pending = .command ∧ decode ⟨s.port.cmd, s.port.opa, s.port.opl⟩ = .ok .abegin) ∧
    (s.addr.aBegun = true → t.addr.aBegun = false → wasReset s t) ∧
    (t.data.mode ≠ s.data.mode →
      wasReset s t ∨
        ∃ i, s.pending = .command ∧ decode ⟨s.port.cmd, s.port.opa, s.port.opl⟩ = .ok i ∧
          ((∃ d, i = .dmode d ∧ t.data.mode = modeOf d) ∨
            (isWdata i = true ∧ .dataMode t.data.mode ∈ eventsSince s t)))) ∧
  ∀ (s t : State) (a l : Word), exec (.wdata a l) s = .next t → (writePlan s a l).length ≤ s.oracle.length →
    (∀ x ∈ s.oracle.take (writePlan s a l).length, Answer.setsMode x = false) → t.data.mode = s.data.mode

/-- 40_address_bus.md R119 with 00_scope.md R8, 10_state.md R22, R38 and the canonical buffer: the invariant of the machine is kept by
every step, a hardware reset between or inside commands included. -/
def Obligations.EveryStepKeepsTheInvariant : Prop :=
  ∀ s t : State, s.Inv → step s = .next t → t.Inv

/-- The invariant of `EveryStepKeepsTheInvariant` (40_address_bus.md section 4, 00_scope.md section 4, 10_state.md section 8) holds right
after reset. That the pin maps of the reset board are bijections rests on the board the model names (DESIGN CHOICE,
notes/assumptions/1.md). -/
def Obligations.ResetMeetsTheInvariant : Prop := State.reset.Inv

/-- 10_state.md section 8 (R53, the spec's decision D27): what reset gives a value to. -/
def Obligations.ResetValues : Prop :=
  State.reset.addr.aBegun = false ∧ State.reset.addr.pinsOut = false ∧ State.reset.data.mode = .unconf ∧
    State.reset.we.busy = false ∧ State.reset.pending = .idle

/-- 70_reset_and_hazards.md section 1 (R230, R231; decision D27): a hardware reset between commands. What the table calls "any" the
statement leaves open. The model's own (DEDUCED, notes/assumptions/4.md): that a reset is an entry of the list of inputs, that the
host's buffer survives it, and that the samples and answers still to come do. -/
def Obligations.HardwareResetBetweenCommands : Prop :=
  ∀ (s : State) (rest : List Input), s.pending = .idle → s.inputs = .reset :: rest →
    ∃ t, step s = .next t ∧ t.addr.aBegun = false ∧ t.addr.pinsOut = false ∧ t.data.mode = .unconf ∧ t.we.busy = false ∧
      t.pending = .idle ∧ t.inputs = rest ∧ t.trace = s.trace ++ [.hardwareReset] ∧
      t.board = s.board ∧ t.profile = s.profile ∧ t.port.buf = s.port.buf ∧ t.env = s.env ∧ t.oracle = s.oracle

/-- 70_reset_and_hazards.md section 1 (R232) and 60_exceptions.md section 3 (R204): a hardware reset inside a command wins over all that
would come after it: the world has seen the command's first `n` events, no further pin event and no further call; the core is as
after any reset. An undefined point that the command would meet after those events does not matter; only one it meets after fewer
is refused. The model's own: the cut after exactly `n` events, at the end where the command has no more (DESIGN CHOICE,
notes/assumptions/24.md), and the buffer that stays (DEDUCED, notes/assumptions/4.md). -/
def Obligations.HardwareResetInsideACommand : Prop :=
  (∀ (i : Instr) (s : State), exec i s = (instrRun i s).finish) ∧
  (∀ (s : State) (n : Nat) (i : Instr), s.pending = .commandCutAt n →
    decode ⟨s.port.cmd, s.port.opa, s.port.opl⟩ = .ok i →
    (∀ why v, instrRun i { s with pending := .idle } = .stopped why v → n ≤ (eventsSince s v).length) →
    ∃ t, step s = .next t ∧ t.addr.aBegun = false ∧ t.addr.pinsOut = false ∧ t.data.mode = .unconf ∧ t.we.busy = false ∧
      t.pending = .idle ∧ t.board = s.board ∧ t.profile = s.profile ∧ t.port.buf = s.port.buf ∧ t.inputs = s.inputs ∧
      t.trace = s.trace ++ ((eventsSince s (instrRun i { s with pending := .idle }).state).take n ++ [.hardwareReset])) ∧
  ∀ (s v : State) (n : Nat) (i : Instr) (why : Refusal), s.pending = .commandCutAt n →
    decode ⟨s.port.cmd, s.port.opa, s.port.opl⟩ = .ok i → instrRun i { s with pending := .idle } = .stopped why v →
    (eventsSince s v).length < n → step s = .refused why
end

