-- ==== Sys2Proof/Laws/Bits.lean ====
section
/-! SUPPORT. What single bits, pin maps and shift registers do, bit by bit. -/

namespace Sys2Proof.Machine

theorem getLsbD_setPin {n : Nat} (x : BitVec n) (p : Nat) (b : Bool) (i : Nat) (hi : i < n) :
    (setPin x p b).getLsbD i = if i = p then b else x.getLsbD i := by
  unfold setPin
  by_cases h : i = p
  · subst h
    cases b <;> simp [hi]
  · cases b <;> simp [hi, h]

/-- Driving pins one after another to levels that depend on the pin alone: each pin listed ends at its level, whatever the order. -/
theorem getLsbD_foldl_setPin {n : Nat} (level : Nat → Bool) (pins : List Nat) (x : BitVec n) (i : Nat) (hi : i < n) :
    (pins.foldl (fun y p => setPin y p (level p)) x).getLsbD i = if i ∈ pins then level i else x.getLsbD i := by
  induction pins generalizing x with
  | nil => simp
  | cons p rest ih =>
    rw [List.foldl_cons, ih, getLsbD_setPin _ _ _ _ hi]
    by_cases h : i ∈ rest <;> by_cases hp : i = p <;> simp_all

theorem getLsbD_gather {n : Nat} (m : Vector (Fin n) n) (level : Fin n → Bool) (i : Fin n) :
    (gather m level).getLsbD i = level (m.get i) := by
  simp [gather, i.isLt]

/-- With a map in which no two bits share a pin, each bit ends on its pin. -/
theorem getLsbD_scatter {n : Nat} (m : Vector (Fin n) n) (hm : ∀ i j, m.get i = m.get j → i = j) (v old : BitVec n) (i : Fin n) :
    (scatter m v old).getLsbD (m.get i) = v.getLsbD i := by
  unfold scatter
  suffices H : ∀ (l : List (Fin n)) (x : BitVec n),
      (l.foldl (fun x k => setPin x (m.get k) (v.getLsbD k)) x).getLsbD (m.get i) =
        if i ∈ l then v.getLsbD i else x.getLsbD (m.get i) by
    simpa using H (List.finRange n) old
  intro l
  induction l with
  | nil => simp
  | cons k rest ih =>
    intro x
    rw [List.foldl_cons, ih, getLsbD_setPin _ _ _ _ (m.get i).isLt]
    by_cases hk : i = k
    · subst hk; simp
    · have : m.get i ≠ m.get k := fun h => hk (hm _ _ h)
      simp [hk, Fin.val_inj, this]

/-- Reading back through the map what was written through it gives the value (41_data_bus.md R144). -/
theorem gather_scatter {n : Nat} (m : Vector (Fin n) n) (hm : ∀ i j, m.get i = m.get j → i = j) (v old : BitVec n) :
    gather m (fun p => (scatter m v old).getLsbD p) = v := by
  apply BitVec.eq_of_getLsbD_eq
  intro i hi
  have h1 := getLsbD_gather m (fun p => (scatter m v old).getLsbD p) ⟨i, hi⟩
  have h2 := getLsbD_scatter m hm v old ⟨i, hi⟩
  exact h1.trans h2

theorem getLsbD_shiftIn (r : Byte) (b : Bool) (i : Nat) (hi : i < 8) :
    (shiftIn r b).getLsbD i = if i = 0 then b else r.getLsbD (i - 1) := by
  unfold shiftIn
  rw [BitVec.getLsbD_append]
  by_cases h : i < 1
  · have h0 : i = 0 := by omega
    subst h0; simp
  · have h1 : i ≠ 0 := by omega
    simp [h1, BitVec.getLsbD_extractLsb']
    omega

/-- Eight bits shifted in, the first ending in place 7: the register holds them, whatever it held (40_address_bus.md R114). -/
theorem shiftIn_eight (r b : Byte) :
    shiftIn (shiftIn (shiftIn (shiftIn (shiftIn (shiftIn (shiftIn (shiftIn r (b.getLsbD 7)) (b.getLsbD 6)) (b.getLsbD 5))
      (b.getLsbD 4)) (b.getLsbD 3)) (b.getLsbD 2)) (b.getLsbD 1)) (b.getLsbD 0) = b := by
  apply BitVec.eq_of_getLsbD_eq
  intro i hi
  interval_cases i <;> simp only [getLsbD_shiftIn, Nat.reduceLT, Nat.reduceSub, OfNat.ofNat_ne_zero, if_true, if_false, one_ne_zero]

/-- The 19 address lines are the three planes side by side. -/
theorem planes_append (a : Word) : (extPlane a ++ hiPlane a ++ loPlane a : BitVec 19) = onBus a := by
  apply BitVec.eq_of_getLsbD_eq
  intro i hi
  simp only [extPlane, hiPlane, loPlane, onBus, BitVec.getLsbD_append, BitVec.getLsbD_extractLsb']
  by_cases h1 : i < 8
  · simp [h1, hi]
  · by_cases h2 : i < 16
    · have : i - 8 < 8 := by omega
      have e : 8 + (i - 8) = i := by omega
      simp [h1, this, hi, e]
    · have h3 : ¬ (i - 8 < 8) := by omega
      have h4 : i - 8 - 8 < 3 := by omega
      have e : 16 + (i - 8 - 8) = i := by omega
      simp [h1, h3, h4, hi, e]

theorem aboveBus_eq_zero_iff (a : Word) : aboveBus a = 0#13 ↔ a.toNat < 2 ^ 19 := by
  rw [← BitVec.toNat_inj]
  simp only [aboveBus, BitVec.extractLsb'_toNat, BitVec.toNat_ofNat, Nat.shiftRight_eq_div_pow]
  have := a.isLt
  omega

end Sys2Proof.Machine
end

