-- ==== Sys2Proof/Laws/Order.lean ====
section
/-! SUPPORT. The free order of pin writes: every selected order is a rearrangement, and every rearrangement is selected. -/

namespace Sys2Proof.Machine

theorem orderBy_perm {α : Type} (fuel code : Nat) (l : List α) : (orderBy fuel code l).Perm l := by
  induction fuel generalizing code l with
  | zero => exact List.Perm.refl _
  | succ n ih =>
    unfold orderBy
    split
    · exact List.Perm.refl _
    · rename_i x hx
      obtain ⟨hlt, rfl⟩ := List.getElem?_eq_some_iff.mp hx
      exact ((ih _ _).cons _).trans (List.getElem_cons_eraseIdx_perm hlt)

theorem mem_orderBy {α : Type} {fuel code : Nat} {l : List α} {x : α} : x ∈ orderBy fuel code l ↔ x ∈ l :=
  (orderBy_perm fuel code l).mem_iff

theorem length_orderBy {α : Type} (fuel code : Nat) (l : List α) : (orderBy fuel code l).length = l.length :=
  (orderBy_perm fuel code l).length_eq

/-- No order is shut out: each rearrangement is the one some number selects. -/
theorem orderBy_surjective {α : Type} (l l' : List α) (h : l'.Perm l) : ∃ code, orderBy l.length code l = l' := by
  induction l' generalizing l with
  | nil => exact ⟨0, by simp [List.nil_perm.mp h, orderBy]⟩
  | cons x rest ih =>
    have hx : x ∈ l := h.mem_iff.mp (List.mem_cons_self ..)
    obtain ⟨k, hk, rfl⟩ := List.mem_iff_getElem.mp hx
    have hp : rest.Perm (l.eraseIdx k) := (h.trans (List.getElem_cons_eraseIdx_perm hk).symm).cons_inv
    obtain ⟨c, hc⟩ := ih _ hp
    have hpos : 0 < l.length := by omega
    have hlen : l.length = (l.eraseIdx k).length + 1 := by rw [List.length_eraseIdx_of_lt hk]; omega
    refine ⟨c * l.length + k, ?_⟩
    have hmod : (c * l.length + k) % l.length = k := by
      rw [Nat.add_comm, Nat.add_mul_mod_self_right, Nat.mod_eq_of_lt hk]
    have hdiv : (c * l.length + k) / l.length = c := by
      rw [Nat.add_comm, Nat.add_mul_div_right _ _ hpos, Nat.div_eq_of_lt hk, Nat.zero_add]
    have step : orderBy ((l.eraseIdx k).length + 1) (c * l.length + k) l = l[k] :: rest := by
      simp only [orderBy, hmod, hdiv, List.getElem?_eq_getElem hk, hc]
    rwa [← hlen] at step

end Sys2Proof.Machine
end

