-- ==== Sys2Proof/Laws/State.lean ====
section
/-! SUPPORT. One lemma per field per named update of State, all true by rfl, so that no proof unfolds a record update. -/

namespace Sys2Proof.Machine

variable (s : State)

/-! ### setAddr -/

@[simp] theorem setAddr_board (u : AddrUnit) : (s.setAddr u).board = s.board := rfl
@[simp] theorem setAddr_profile (u : AddrUnit) : (s.setAddr u).profile = s.profile := rfl
@[simp] theorem setAddr_port (u : AddrUnit) : (s.setAddr u).port = s.port := rfl
@[simp] theorem setAddr_res (u : AddrUnit) : (s.setAddr u).res = s.res := rfl
@[simp] theorem setAddr_addr (u : AddrUnit) : (s.setAddr u).addr = u := rfl
@[simp] theorem setAddr_data (u : AddrUnit) : (s.setAddr u).data = s.data := rfl
@[simp] theorem setAddr_we (u : AddrUnit) : (s.setAddr u).we = s.we := rfl
@[simp] theorem setAddr_dbg (u : AddrUnit) : (s.setAddr u).dbg = s.dbg := rfl
@[simp] theorem setAddr_pending (u : AddrUnit) : (s.setAddr u).pending = s.pending := rfl
@[simp] theorem setAddr_inputs (u : AddrUnit) : (s.setAddr u).inputs = s.inputs := rfl
@[simp] theorem setAddr_env (u : AddrUnit) : (s.setAddr u).env = s.env := rfl
@[simp] theorem setAddr_oracle (u : AddrUnit) : (s.setAddr u).oracle = s.oracle := rfl
@[simp] theorem setAddr_free (u : AddrUnit) : (s.setAddr u).free = s.free := rfl
@[simp] theorem setAddr_trace (u : AddrUnit) : (s.setAddr u).trace = s.trace := rfl

/-! ### setData -/

@[simp] theorem setData_board (d : DataUnit) : (s.setData d).board = s.board := rfl
@[simp] theorem setData_profile (d : DataUnit) : (s.setData d).profile = s.profile := rfl
@[simp] theorem setData_port (d : DataUnit) : (s.setData d).port = s.port := rfl
@[simp] theorem setData_res (d : DataUnit) : (s.setData d).res = s.res := rfl
@[simp] theorem setData_addr (d : DataUnit) : (s.setData d).addr = s.addr := rfl
@[simp] theorem setData_data (d : DataUnit) : (s.setData d).data = d := rfl
@[simp] theorem setData_we (d : DataUnit) : (s.setData d).we = s.we := rfl
@[simp] theorem setData_dbg (d : DataUnit) : (s.setData d).dbg = s.dbg := rfl
@[simp] theorem setData_pending (d : DataUnit) : (s.setData d).pending = s.pending := rfl
@[simp] theorem setData_inputs (d : DataUnit) : (s.setData d).inputs = s.inputs := rfl
@[simp] theorem setData_env (d : DataUnit) : (s.setData d).env = s.env := rfl
@[simp] theorem setData_oracle (d : DataUnit) : (s.setData d).oracle = s.oracle := rfl
@[simp] theorem setData_free (d : DataUnit) : (s.setData d).free = s.free := rfl
@[simp] theorem setData_trace (d : DataUnit) : (s.setData d).trace = s.trace := rfl

/-! ### setDbg -/

@[simp] theorem setDbg_board (d : Debug) : (s.setDbg d).board = s.board := rfl
@[simp] theorem setDbg_profile (d : Debug) : (s.setDbg d).profile = s.profile := rfl
@[simp] theorem setDbg_port (d : Debug) : (s.setDbg d).port = s.port := rfl
@[simp] theorem setDbg_res (d : Debug) : (s.setDbg d).res = s.res := rfl
@[simp] theorem setDbg_addr (d : Debug) : (s.setDbg d).addr = s.addr := rfl
@[simp] theorem setDbg_data (d : Debug) : (s.setDbg d).data = s.data := rfl
@[simp] theorem setDbg_we (d : Debug) : (s.setDbg d).we = s.we := rfl
@[simp] theorem setDbg_dbg (d : Debug) : (s.setDbg d).dbg = d := rfl
@[simp] theorem setDbg_pending (d : Debug) : (s.setDbg d).pending = s.pending := rfl
@[simp] theorem setDbg_inputs (d : Debug) : (s.setDbg d).inputs = s.inputs := rfl
@[simp] theorem setDbg_env (d : Debug) : (s.setDbg d).env = s.env := rfl
@[simp] theorem setDbg_oracle (d : Debug) : (s.setDbg d).oracle = s.oracle := rfl
@[simp] theorem setDbg_free (d : Debug) : (s.setDbg d).free = s.free := rfl
@[simp] theorem setDbg_trace (d : Debug) : (s.setDbg d).trace = s.trace := rfl

/-! ### setWe -/

@[simp] theorem setWe_board (w : WriteEngine) : (s.setWe w).board = s.board := rfl
@[simp] theorem setWe_profile (w : WriteEngine) : (s.setWe w).profile = s.profile := rfl
@[simp] theorem setWe_port (w : WriteEngine) : (s.setWe w).port = s.port := rfl
@[simp] theorem setWe_res (w : WriteEngine) : (s.setWe w).res = s.res := rfl
@[simp] theorem setWe_addr (w : WriteEngine) : (s.setWe w).addr = s.addr := rfl
@[simp] theorem setWe_data (w : WriteEngine) : (s.setWe w).data = s.data := rfl
@[simp] theorem setWe_we (w : WriteEngine) : (s.setWe w).we = w := rfl
@[simp] theorem setWe_dbg (w : WriteEngine) : (s.setWe w).dbg = s.dbg := rfl
@[simp] theorem setWe_pending (w : WriteEngine) : (s.setWe w).pending = s.pending := rfl
@[simp] theorem setWe_inputs (w : WriteEngine) : (s.setWe w).inputs = s.inputs := rfl
@[simp] theorem setWe_env (w : WriteEngine) : (s.setWe w).env = s.env := rfl
@[simp] theorem setWe_oracle (w : WriteEngine) : (s.setWe w).oracle = s.oracle := rfl
@[simp] theorem setWe_free (w : WriteEngine) : (s.setWe w).free = s.free := rfl
@[simp] theorem setWe_trace (w : WriteEngine) : (s.setWe w).trace = s.trace := rfl

/-! ### emit -/

@[simp] theorem emit_board (es : List Event) : (s.emit es).board = s.board := rfl
@[simp] theorem emit_profile (es : List Event) : (s.emit es).profile = s.profile := rfl
@[simp] theorem emit_port (es : List Event) : (s.emit es).port = s.port := rfl
@[simp] theorem emit_res (es : List Event) : (s.emit es).res = s.res := rfl
@[simp] theorem emit_addr (es : List Event) : (s.emit es).addr = s.addr := rfl
@[simp] theorem emit_data (es : List Event) : (s.emit es).data = s.data := rfl
@[simp] theorem emit_we (es : List Event) : (s.emit es).we = s.we := rfl
@[simp] theorem emit_dbg (es : List Event) : (s.emit es).dbg = s.dbg := rfl
@[simp] theorem emit_pending (es : List Event) : (s.emit es).pending = s.pending := rfl
@[simp] theorem emit_inputs (es : List Event) : (s.emit es).inputs = s.inputs := rfl
@[simp] theorem emit_env (es : List Event) : (s.emit es).env = s.env := rfl
@[simp] theorem emit_oracle (es : List Event) : (s.emit es).oracle = s.oracle := rfl
@[simp] theorem emit_free (es : List Event) : (s.emit es).free = s.free := rfl
@[simp] theorem emit_trace (es : List Event) : (s.emit es).trace = s.trace ++ es := rfl

/-! ### emitUnordered -/

@[simp] theorem emitUnordered_board (es : List Event) : (s.emitUnordered es).board = s.board := rfl
@[simp] theorem emitUnordered_profile (es : List Event) : (s.emitUnordered es).profile = s.profile := rfl
@[simp] theorem emitUnordered_port (es : List Event) : (s.emitUnordered es).port = s.port := rfl
@[simp] theorem emitUnordered_res (es : List Event) : (s.emitUnordered es).res = s.res := rfl
@[simp] theorem emitUnordered_addr (es : List Event) : (s.emitUnordered es).addr = s.addr := rfl
@[simp] theorem emitUnordered_data (es : List Event) : (s.emitUnordered es).data = s.data := rfl
@[simp] theorem emitUnordered_we (es : List Event) : (s.emitUnordered es).we = s.we := rfl
@[simp] theorem emitUnordered_dbg (es : List Event) : (s.emitUnordered es).dbg = s.dbg := rfl
@[simp] theorem emitUnordered_pending (es : List Event) : (s.emitUnordered es).pending = s.pending := rfl
@[simp] theorem emitUnordered_inputs (es : List Event) : (s.emitUnordered es).inputs = s.inputs := rfl
@[simp] theorem emitUnordered_env (es : List Event) : (s.emitUnordered es).env = s.env := rfl
@[simp] theorem emitUnordered_oracle (es : List Event) : (s.emitUnordered es).oracle = s.oracle := rfl
@[simp] theorem emitUnordered_free (es : List Event) : (s.emitUnordered es).free = s.free + 1 := rfl
@[simp] theorem emitUnordered_trace (es : List Event) : (s.emitUnordered es).trace =
  s.trace ++ orderBy es.length (Config.freeOrder s.free) es := rfl

/-! ### drew -/

@[simp] theorem drew_board (k : Nat) : (s.drew k).board = s.board := rfl
@[simp] theorem drew_profile (k : Nat) : (s.drew k).profile = s.profile := rfl
@[simp] theorem drew_port (k : Nat) : (s.drew k).port = s.port := rfl
@[simp] theorem drew_res (k : Nat) : (s.drew k).res = s.res := rfl
@[simp] theorem drew_addr (k : Nat) : (s.drew k).addr = s.addr := rfl
@[simp] theorem drew_data (k : Nat) : (s.drew k).data = s.data := rfl
@[simp] theorem drew_we (k : Nat) : (s.drew k).we = s.we := rfl
@[simp] theorem drew_dbg (k : Nat) : (s.drew k).dbg = s.dbg := rfl
@[simp] theorem drew_pending (k : Nat) : (s.drew k).pending = s.pending := rfl
@[simp] theorem drew_inputs (k : Nat) : (s.drew k).inputs = s.inputs := rfl
@[simp] theorem drew_env (k : Nat) : (s.drew k).env = s.env := rfl
@[simp] theorem drew_oracle (k : Nat) : (s.drew k).oracle = s.oracle := rfl
@[simp] theorem drew_free (k : Nat) : (s.drew k).free = s.free + k := rfl
@[simp] theorem drew_trace (k : Nat) : (s.drew k).trace = s.trace := rfl

/-! ### drive -/

@[simp] theorem drive_board (p : Pin) (b : Bool) : (s.drive p b).board = s.board := rfl
@[simp] theorem drive_profile (p : Pin) (b : Bool) : (s.drive p b).profile = s.profile := rfl
@[simp] theorem drive_port (p : Pin) (b : Bool) : (s.drive p b).port = s.port := rfl
@[simp] theorem drive_res (p : Pin) (b : Bool) : (s.drive p b).res = s.res := rfl
@[simp] theorem drive_addr (p : Pin) (b : Bool) : (s.drive p b).addr = s.addr.drive p b := rfl
@[simp] theorem drive_data (p : Pin) (b : Bool) : (s.drive p b).data = s.data := rfl
@[simp] theorem drive_we (p : Pin) (b : Bool) : (s.drive p b).we = s.we := rfl
@[simp] theorem drive_dbg (p : Pin) (b : Bool) : (s.drive p b).dbg = s.dbg := rfl
@[simp] theorem drive_pending (p : Pin) (b : Bool) : (s.drive p b).pending = s.pending := rfl
@[simp] theorem drive_inputs (p : Pin) (b : Bool) : (s.drive p b).inputs = s.inputs := rfl
@[simp] theorem drive_env (p : Pin) (b : Bool) : (s.drive p b).env = s.env := rfl
@[simp] theorem drive_oracle (p : Pin) (b : Bool) : (s.drive p b).oracle = s.oracle := rfl
@[simp] theorem drive_free (p : Pin) (b : Bool) : (s.drive p b).free = s.free := rfl
@[simp] theorem drive_trace (p : Pin) (b : Bool) : (s.drive p b).trace = s.trace ++ [.pin p b] := rfl

/-! ### delay -/

@[simp] theorem delay_board (n : Nat) : (s.delay n).board = s.board := rfl
@[simp] theorem delay_profile (n : Nat) : (s.delay n).profile = s.profile := rfl
@[simp] theorem delay_port (n : Nat) : (s.delay n).port = s.port := rfl
@[simp] theorem delay_res (n : Nat) : (s.delay n).res = s.res := rfl
@[simp] theorem delay_addr (n : Nat) : (s.delay n).addr = s.addr := rfl
@[simp] theorem delay_data (n : Nat) : (s.delay n).data = s.data := rfl
@[simp] theorem delay_we (n : Nat) : (s.delay n).we = s.we := rfl
@[simp] theorem delay_dbg (n : Nat) : (s.delay n).dbg = s.dbg := rfl
@[simp] theorem delay_pending (n : Nat) : (s.delay n).pending = s.pending := rfl
@[simp] theorem delay_inputs (n : Nat) : (s.delay n).inputs = s.inputs := rfl
@[simp] theorem delay_env (n : Nat) : (s.delay n).env = s.env := rfl
@[simp] theorem delay_oracle (n : Nat) : (s.delay n).oracle = s.oracle := rfl
@[simp] theorem delay_free (n : Nat) : (s.delay n).free = s.free := rfl
@[simp] theorem delay_trace (n : Nat) : (s.delay n).trace = s.trace ++ [.delay n] := rfl

/-! ### setResOk -/

@[simp] theorem setResOk_board (b : Bool) : (s.setResOk b).board = s.board := rfl
@[simp] theorem setResOk_profile (b : Bool) : (s.setResOk b).profile = s.profile := rfl
@[simp] theorem setResOk_port (b : Bool) : (s.setResOk b).port = s.port := rfl
@[simp] theorem setResOk_res (b : Bool) : (s.setResOk b).res = ⟨b, s.res.data⟩ := rfl
@[simp] theorem setResOk_addr (b : Bool) : (s.setResOk b).addr = s.addr := rfl
@[simp] theorem setResOk_data (b : Bool) : (s.setResOk b).data = s.data := rfl
@[simp] theorem setResOk_we (b : Bool) : (s.setResOk b).we = s.we := rfl
@[simp] theorem setResOk_dbg (b : Bool) : (s.setResOk b).dbg = s.dbg := rfl
@[simp] theorem setResOk_pending (b : Bool) : (s.setResOk b).pending = s.pending := rfl
@[simp] theorem setResOk_inputs (b : Bool) : (s.setResOk b).inputs = s.inputs := rfl
@[simp] theorem setResOk_env (b : Bool) : (s.setResOk b).env = s.env := rfl
@[simp] theorem setResOk_oracle (b : Bool) : (s.setResOk b).oracle = s.oracle := rfl
@[simp] theorem setResOk_free (b : Bool) : (s.setResOk b).free = s.free := rfl
@[simp] theorem setResOk_trace (b : Bool) : (s.setResOk b).trace = s.trace := rfl

/-! ### setResData -/

@[simp] theorem setResData_board (v : Byte) : (s.setResData v).board = s.board := rfl
@[simp] theorem setResData_profile (v : Byte) : (s.setResData v).profile = s.profile := rfl
@[simp] theorem setResData_port (v : Byte) : (s.setResData v).port = s.port := rfl
@[simp] theorem setResData_res (v : Byte) : (s.setResData v).res = ⟨s.res.ok, v⟩ := rfl
@[simp] theorem setResData_addr (v : Byte) : (s.setResData v).addr = s.addr := rfl
@[simp] theorem setResData_data (v : Byte) : (s.setResData v).data = s.data := rfl
@[simp] theorem setResData_we (v : Byte) : (s.setResData v).we = s.we := rfl
@[simp] theorem setResData_dbg (v : Byte) : (s.setResData v).dbg = s.dbg := rfl
@[simp] theorem setResData_pending (v : Byte) : (s.setResData v).pending = s.pending := rfl
@[simp] theorem setResData_inputs (v : Byte) : (s.setResData v).inputs = s.inputs := rfl
@[simp] theorem setResData_env (v : Byte) : (s.setResData v).env = s.env := rfl
@[simp] theorem setResData_oracle (v : Byte) : (s.setResData v).oracle = s.oracle := rfl
@[simp] theorem setResData_free (v : Byte) : (s.setResData v).free = s.free := rfl
@[simp] theorem setResData_trace (v : Byte) : (s.setResData v).trace = s.trace := rfl

/-! ### sampleLines -/

@[simp] theorem sampleLines_board : (s.sampleLines).board = s.board := rfl
@[simp] theorem sampleLines_profile : (s.sampleLines).profile = s.profile := rfl
@[simp] theorem sampleLines_port : (s.sampleLines).port = s.port := rfl
@[simp] theorem sampleLines_res : (s.sampleLines).res = s.res := rfl
@[simp] theorem sampleLines_addr : (s.sampleLines).addr = s.addr := rfl
@[simp] theorem sampleLines_data : (s.sampleLines).data = s.data := rfl
@[simp] theorem sampleLines_we : (s.sampleLines).we = s.we := rfl
@[simp] theorem sampleLines_dbg : (s.sampleLines).dbg = s.dbg := rfl
@[simp] theorem sampleLines_pending : (s.sampleLines).pending = s.pending := rfl
@[simp] theorem sampleLines_inputs : (s.sampleLines).inputs = s.inputs := rfl
@[simp] theorem sampleLines_env : (s.sampleLines).env = s.env.tail := rfl
@[simp] theorem sampleLines_oracle : (s.sampleLines).oracle = s.oracle := rfl
@[simp] theorem sampleLines_free : (s.sampleLines).free = s.free + 1 := rfl
@[simp] theorem sampleLines_trace : (s.sampleLines).trace = s.trace ++ [.sample s.nextEnv] := rfl

/-! ### callOut -/

@[simp] theorem callOut_board (e : Event) : (s.callOut e).board = s.board := rfl
@[simp] theorem callOut_profile (e : Event) : (s.callOut e).profile = s.profile := rfl
@[simp] theorem callOut_port (e : Event) : (s.callOut e).port = s.port := rfl
@[simp] theorem callOut_res (e : Event) : (s.callOut e).res = s.res := rfl
@[simp] theorem callOut_addr (e : Event) : (s.callOut e).addr = s.addr := rfl
@[simp] theorem callOut_data (e : Event) : (s.callOut e).data = s.data := rfl
@[simp] theorem callOut_we (e : Event) : (s.callOut e).we = s.we := rfl
@[simp] theorem callOut_dbg (e : Event) : (s.callOut e).dbg = s.dbg := rfl
@[simp] theorem callOut_pending (e : Event) : (s.callOut e).pending = s.pending := rfl
@[simp] theorem callOut_inputs (e : Event) : (s.callOut e).inputs = s.inputs := rfl
@[simp] theorem callOut_env (e : Event) : (s.callOut e).env = s.env := rfl
@[simp] theorem callOut_oracle (e : Event) : (s.callOut e).oracle = s.oracle.tail := rfl
@[simp] theorem callOut_free (e : Event) : (s.callOut e).free = s.free + 1 := rfl
@[simp] theorem callOut_trace (e : Event) : (s.callOut e).trace = s.trace ++ [e] := rfl

/-! ### taken -/

@[simp] theorem taken_board : (s.taken).board = s.board := rfl
@[simp] theorem taken_profile : (s.taken).profile = s.profile := rfl
@[simp] theorem taken_port : (s.taken).port = s.port := rfl
@[simp] theorem taken_res : (s.taken).res = s.res := rfl
@[simp] theorem taken_addr : (s.taken).addr = s.addr := rfl
@[simp] theorem taken_data : (s.taken).data = s.data := rfl
@[simp] theorem taken_we : (s.taken).we = s.we := rfl
@[simp] theorem taken_dbg : (s.taken).dbg = s.dbg := rfl
@[simp] theorem taken_pending : (s.taken).pending = .idle := rfl
@[simp] theorem taken_inputs : (s.taken).inputs = s.inputs := rfl
@[simp] theorem taken_env : (s.taken).env = s.env := rfl
@[simp] theorem taken_oracle : (s.taken).oracle = s.oracle := rfl
@[simp] theorem taken_free : (s.taken).free = s.free := rfl
@[simp] theorem taken_trace : (s.taken).trace = s.trace := rfl

/-! ### issue -/

@[simp] theorem issue_board (i : Instr) : (s.issue i).board = s.board := rfl
@[simp] theorem issue_profile (i : Instr) : (s.issue i).profile = s.profile := rfl
@[simp] theorem issue_port (i : Instr) : (s.issue i).port = ⟨(encode i).cmd, if i.readsOpa then (encode i).opa else s.port.opa,
  s.port.opl, s.port.buf⟩ := rfl
@[simp] theorem issue_res (i : Instr) : (s.issue i).res = s.res := rfl
@[simp] theorem issue_addr (i : Instr) : (s.issue i).addr = s.addr := rfl
@[simp] theorem issue_data (i : Instr) : (s.issue i).data = s.data := rfl
@[simp] theorem issue_we (i : Instr) : (s.issue i).we = s.we := rfl
@[simp] theorem issue_dbg (i : Instr) : (s.issue i).dbg = s.dbg := rfl
@[simp] theorem issue_pending (i : Instr) : (s.issue i).pending = s.pending := rfl
@[simp] theorem issue_inputs (i : Instr) : (s.issue i).inputs = s.inputs := rfl
@[simp] theorem issue_env (i : Instr) : (s.issue i).env = s.env := rfl
@[simp] theorem issue_oracle (i : Instr) : (s.issue i).oracle = s.oracle := rfl
@[simp] theorem issue_free (i : Instr) : (s.issue i).free = s.free := rfl
@[simp] theorem issue_trace (i : Instr) : (s.issue i).trace = s.trace := rfl

/-! ### setPort -/

@[simp] theorem setPort_board (p : PortWord) : (s.setPort p).board = s.board := rfl
@[simp] theorem setPort_profile (p : PortWord) : (s.setPort p).profile = s.profile := rfl
@[simp] theorem setPort_port (p : PortWord) : (s.setPort p).port = ⟨p.cmd, p.opa, p.opl, s.port.buf⟩ := rfl
@[simp] theorem setPort_res (p : PortWord) : (s.setPort p).res = s.res := rfl
@[simp] theorem setPort_addr (p : PortWord) : (s.setPort p).addr = s.addr := rfl
@[simp] theorem setPort_data (p : PortWord) : (s.setPort p).data = s.data := rfl
@[simp] theorem setPort_we (p : PortWord) : (s.setPort p).we = s.we := rfl
@[simp] theorem setPort_dbg (p : PortWord) : (s.setPort p).dbg = s.dbg := rfl
@[simp] theorem setPort_pending (p : PortWord) : (s.setPort p).pending = s.pending := rfl
@[simp] theorem setPort_inputs (p : PortWord) : (s.setPort p).inputs = s.inputs := rfl
@[simp] theorem setPort_env (p : PortWord) : (s.setPort p).env = s.env := rfl
@[simp] theorem setPort_oracle (p : PortWord) : (s.setPort p).oracle = s.oracle := rfl
@[simp] theorem setPort_free (p : PortWord) : (s.setPort p).free = s.free := rfl
@[simp] theorem setPort_trace (p : PortWord) : (s.setPort p).trace = s.trace := rfl

/-! ### advance -/

@[simp] theorem advance_board (c : Word) : (s.advance c).board = s.board := rfl
@[simp] theorem advance_profile (c : Word) : (s.advance c).profile = s.profile := rfl
@[simp] theorem advance_port (c : Word) : (s.advance c).port = s.port := rfl
@[simp] theorem advance_res (c : Word) : (s.advance c).res = s.res := rfl
@[simp] theorem advance_addr (c : Word) : (s.advance c).addr = s.addr := rfl
@[simp] theorem advance_data (c : Word) : (s.advance c).data = s.data := rfl
@[simp] theorem advance_we (c : Word) : (s.advance c).we = ⟨s.we.start, s.we.off + c, s.we.rem - c, s.we.busy⟩ := rfl
@[simp] theorem advance_dbg (c : Word) : (s.advance c).dbg = s.dbg := rfl
@[simp] theorem advance_pending (c : Word) : (s.advance c).pending = s.pending := rfl
@[simp] theorem advance_inputs (c : Word) : (s.advance c).inputs = s.inputs := rfl
@[simp] theorem advance_env (c : Word) : (s.advance c).env = s.env := rfl
@[simp] theorem advance_oracle (c : Word) : (s.advance c).oracle = s.oracle := rfl
@[simp] theorem advance_free (c : Word) : (s.advance c).free = s.free := rfl
@[simp] theorem advance_trace (c : Word) : (s.advance c).trace = s.trace := rfl

/-! ### countBlock -/

@[simp] theorem countBlock_board : (s.countBlock).board = s.board := rfl
@[simp] theorem countBlock_profile : (s.countBlock).profile = s.profile := rfl
@[simp] theorem countBlock_port : (s.countBlock).port = s.port := rfl
@[simp] theorem countBlock_res : (s.countBlock).res = s.res := rfl
@[simp] theorem countBlock_addr : (s.countBlock).addr = s.addr := rfl
@[simp] theorem countBlock_data : (s.countBlock).data = s.data := rfl
@[simp] theorem countBlock_we : (s.countBlock).we = s.we := rfl
@[simp] theorem countBlock_dbg : (s.countBlock).dbg = s.dbg.countBlock := rfl
@[simp] theorem countBlock_pending : (s.countBlock).pending = s.pending := rfl
@[simp] theorem countBlock_inputs : (s.countBlock).inputs = s.inputs := rfl
@[simp] theorem countBlock_env : (s.countBlock).env = s.env := rfl
@[simp] theorem countBlock_oracle : (s.countBlock).oracle = s.oracle := rfl
@[simp] theorem countBlock_free : (s.countBlock).free = s.free := rfl
@[simp] theorem countBlock_trace : (s.countBlock).trace = s.trace := rfl

/-! ### startWrite -/

@[simp] theorem startWrite_board (a l : Word) : (startWrite a l s).board = s.board := rfl
@[simp] theorem startWrite_profile (a l : Word) : (startWrite a l s).profile = s.profile := rfl
@[simp] theorem startWrite_port (a l : Word) : (startWrite a l s).port = s.port := rfl
@[simp] theorem startWrite_res (a l : Word) : (startWrite a l s).res = s.res := rfl
@[simp] theorem startWrite_addr (a l : Word) : (startWrite a l s).addr = s.addr := rfl
@[simp] theorem startWrite_data (a l : Word) : (startWrite a l s).data = s.data := rfl
@[simp] theorem startWrite_we (a l : Word) : (startWrite a l s).we = ⟨a, 0#32, l, true⟩ := rfl
@[simp] theorem startWrite_dbg (a l : Word) : (startWrite a l s).dbg = s.dbg := rfl
@[simp] theorem startWrite_pending (a l : Word) : (startWrite a l s).pending = s.pending := rfl
@[simp] theorem startWrite_inputs (a l : Word) : (startWrite a l s).inputs = s.inputs := rfl
@[simp] theorem startWrite_env (a l : Word) : (startWrite a l s).env = s.env := rfl
@[simp] theorem startWrite_oracle (a l : Word) : (startWrite a l s).oracle = s.oracle := rfl
@[simp] theorem startWrite_free (a l : Word) : (startWrite a l s).free = s.free := rfl
@[simp] theorem startWrite_trace (a l : Word) : (startWrite a l s).trace = s.trace := rfl

/-! ### endWrite -/

@[simp] theorem endWrite_board (b : Bool) : (endWrite b s).board = s.board := rfl
@[simp] theorem endWrite_profile (b : Bool) : (endWrite b s).profile = s.profile := rfl
@[simp] theorem endWrite_port (b : Bool) : (endWrite b s).port = s.port := rfl
@[simp] theorem endWrite_res (b : Bool) : (endWrite b s).res = ⟨b, s.res.data⟩ := rfl
@[simp] theorem endWrite_addr (b : Bool) : (endWrite b s).addr = s.addr := rfl
@[simp] theorem endWrite_data (b : Bool) : (endWrite b s).data = s.data := rfl
@[simp] theorem endWrite_we (b : Bool) : (endWrite b s).we = ⟨s.freeBits 32 0, s.freeBits 32 1, s.freeBits 32 2, false⟩ := rfl
@[simp] theorem endWrite_dbg (b : Bool) : (endWrite b s).dbg = s.dbg := rfl
@[simp] theorem endWrite_pending (b : Bool) : (endWrite b s).pending = s.pending := rfl
@[simp] theorem endWrite_inputs (b : Bool) : (endWrite b s).inputs = s.inputs := rfl
@[simp] theorem endWrite_env (b : Bool) : (endWrite b s).env = s.env := rfl
@[simp] theorem endWrite_oracle (b : Bool) : (endWrite b s).oracle = s.oracle := rfl
@[simp] theorem endWrite_free (b : Bool) : (endWrite b s).free = s.free + 3 := rfl
@[simp] theorem endWrite_trace (b : Bool) : (endWrite b s).trace = s.trace := rfl

/-! ### takeFail -/

@[simp] theorem takeFail_board : (takeFail s).board = s.board := rfl
@[simp] theorem takeFail_profile : (takeFail s).profile = s.profile := rfl
@[simp] theorem takeFail_port : (takeFail s).port = s.port := rfl
@[simp] theorem takeFail_res : (takeFail s).res = ⟨false, s.res.data⟩ := rfl
@[simp] theorem takeFail_addr : (takeFail s).addr = s.addr := rfl
@[simp] theorem takeFail_data : (takeFail s).data = s.data := rfl
@[simp] theorem takeFail_we : (takeFail s).we = ⟨s.freeBits 32 0, s.freeBits 32 1, s.freeBits 32 2, false⟩ := rfl
@[simp] theorem takeFail_dbg : (takeFail s).dbg = s.dbg := rfl
@[simp] theorem takeFail_pending : (takeFail s).pending = s.pending := rfl
@[simp] theorem takeFail_inputs : (takeFail s).inputs = s.inputs := rfl
@[simp] theorem takeFail_env : (takeFail s).env = s.env := rfl
@[simp] theorem takeFail_oracle : (takeFail s).oracle = s.oracle := rfl
@[simp] theorem takeFail_free : (takeFail s).free = s.free + 3 := rfl
@[simp] theorem takeFail_trace : (takeFail s).trace = s.trace := rfl

end Sys2Proof.Machine
end

