-- ==== Sys2Proof/Laws/AddressBus.lean ====
section
/-! SUPPORT. What the operations of the AddressBus unit do, each said once: the closed form from a state with low clocks, and the
frame. -/

namespace Sys2Proof.Machine

/-! ### ShiftOut and LatchPulse -/

/-- The unit after `ShiftOut(p, b)` from low clocks (40_address_bus.md R114). -/
def AddrUnit.shifted (p : BytePlane) (b : Byte) (u : AddrUnit) : AddrUnit :=
  match p with
  | .hi => { u with pData := b.getLsbD 0, srHi := b }
  | .lo => { u with pData := b.getLsbD 0, srLo := b }

/-- The unit after `LatchPulse()` from a low latch line (40_address_bus.md R115). -/
def AddrUnit.latched (u : AddrUnit) : AddrUnit := { u with qHi := u.srHi, qLo := u.srLo }

/-- All three clock lines low, as they are between events (40_address_bus.md R119). -/
structure AddrUnit.ClocksLow (u : AddrUnit) : Prop where
  rclk : u.pRclk = false
  sclkHi : u.pSclkHi = false
  sclkLo : u.pSclkLo = false

theorem AddrUnit.ShiftCoherent.clocksLow {u : AddrUnit} (h : u.ShiftCoherent) : u.ClocksLow := ⟨h.rclk, h.sclkHi, h.sclkLo⟩

theorem AddrUnit.ClocksLow.shifted {u : AddrUnit} (h : u.ClocksLow) (p : BytePlane) (b : Byte) : (u.shifted p b).ClocksLow := by
  cases p <;> exact ⟨h.rclk, h.sclkHi, h.sclkLo⟩

/-- `ShiftOut(p, b)` from low clocks: the register of the plane ends at `b` whatever it held, `P_DATA` at `b[0]`, nothing else
changes, and the pin events are those of 40_address_bus.md R114. -/
theorem shiftOut_closed (p : BytePlane) (b : Byte) (s : State) (h : s.addr.ClocksLow) :
    shiftOut p b s = (s.setAddr (s.addr.shifted p b)).emit (shiftOutEvents p b) := by
  have hi := h.sclkHi
  have lo := h.sclkLo
  have e1 := shiftIn_eight s.addr.srHi b
  have e2 := shiftIn_eight s.addr.srLo b
  obtain ⟨bd, pf, po, rs, ad, da, we, db, pe, inp, en, orc, fr, tr⟩ := s
  obtain ⟨a1, a2, a3, a4, a5, a6, a7, a8, a9, a10, a11, a12, a13, a14⟩ := ad
  simp only at hi lo e1 e2
  subst hi lo
  cases p <;>
    simp [shiftOut, shiftBits, shiftOneBit, State.drive, State.delay, State.emit, State.setAddr, AddrUnit.drive, shiftClock, rises,
      AddrUnit.shifted, shiftOutEvents, List.range_succ] at e1 e2 ⊢
  · exact e1
  · exact e2

/-- `LatchPulse()` from a low line: both latches take their registers (40_address_bus.md R115). -/
theorem latchPulse_closed (s : State) (h : s.addr.pRclk = false) :
    latchPulse s = (s.setAddr s.addr.latched).emit latchEvents := by
  obtain ⟨bd, pf, po, rs, ad, da, we, db, pe, inp, en, orc, fr, tr⟩ := s
  obtain ⟨a1, a2, a3, a4, a5, a6, a7, a8, a9, a10, a11, a12, a13, a14⟩ := ad
  simp only at h
  subst h
  simp [latchPulse, State.drive, State.delay, State.emit, State.setAddr, AddrUnit.drive, rises, AddrUnit.latched, latchEvents]

/-- `TransmitByte(p, b)` from low clocks (40_address_bus.md R113). -/
theorem transmitByte_closed (p : BytePlane) (b : Byte) (s : State) (h : s.addr.ClocksLow) :
    transmitByte p b s = (s.setAddr (s.addr.shifted p b).latched).emit (shiftOutEvents p b ++ latchEvents) := by
  rw [transmitByte, shiftOut_closed p b s h, latchPulse_closed _ (h.shifted p b).rclk]
  simp [State.emit, State.setAddr]

/-! ### What never changes on the address bus -/

/-- An address-bus operation moves the AddressBus unit but `A_BEGUN`, the free counter and the trace, which grows by events of the
address pins and waits only. -/
def OnlyAddr (s t : State) : Prop :=
  ∃ u n es, t = { s with addr := u, free := n, trace := s.trace ++ es } ∧ u.aBegun = s.addr.aBegun ∧ ∀ e ∈ es, e.isPinLevel

theorem OnlyAddr.refl (s : State) : OnlyAddr s s := ⟨s.addr, s.free, [], by simp, rfl, by simp⟩

theorem OnlyAddr.trans {s t v : State} (h : OnlyAddr s t) (h' : OnlyAddr t v) : OnlyAddr s v := by
  obtain ⟨u, n, es, rfl, hb, he⟩ := h
  obtain ⟨u', n', es', rfl, hb', he'⟩ := h'
  refine ⟨u', n', es ++ es', by simp, hb'.trans hb, ?_⟩
  intro e h
  rcases List.mem_append.mp h with h | h
  · exact he e h
  · exact he' e h

theorem onlyAddr_emit (es : List Event) (s : State) (h : ∀ e ∈ es, e.isPinLevel) : OnlyAddr s (s.emit es) :=
  ⟨s.addr, s.free, es, rfl, rfl, h⟩

theorem onlyAddr_setAddr (u : AddrUnit) (s : State) (h : u.aBegun = s.addr.aBegun) : OnlyAddr s (s.setAddr u) :=
  ⟨u, s.free, [], by simp [State.setAddr], h, by simp⟩

theorem onlyAddr_emitUnordered (es : List Event) (s : State) (h : ∀ e ∈ es, e.isPinLevel) : OnlyAddr s (s.emitUnordered es) :=
  ⟨s.addr, _, _, rfl, rfl, fun e he => h e (mem_orderBy.mp he)⟩

theorem aBegun_drive (p : Pin) (b : Bool) (u : AddrUnit) : (u.drive p b).aBegun = u.aBegun := by
  cases p <;> rfl

theorem onlyAddr_drive (p : Pin) (b : Bool) (s : State) (h : (Event.pin p b).isPinLevel = true) : OnlyAddr s (s.drive p b) :=
  .trans (onlyAddr_setAddr _ s (aBegun_drive ..)) (onlyAddr_emit _ _ (by simpa using h))

theorem isPinLevel_shiftClock (p : BytePlane) (b : Bool) : (Event.pin (shiftClock p) b).isPinLevel = true := by
  cases p <;> rfl

theorem onlyAddr_delay (n : Nat) (s : State) : OnlyAddr s (s.delay n) := onlyAddr_emit _ s (by simp [Event.isPinLevel])

theorem onlyAddr_shiftBits (p : BytePlane) (n : Nat) (t : Byte) (s : State) : OnlyAddr s (shiftBits p n t s) := by
  induction n generalizing t s with
  | zero => exact .refl s
  | succ n ih =>
    exact .trans (.trans (.trans (.trans (onlyAddr_drive _ _ _ rfl) (onlyAddr_drive _ _ _ (isPinLevel_shiftClock ..)))
      (onlyAddr_delay ..)) (onlyAddr_drive _ _ _ (isPinLevel_shiftClock ..))) (ih ..)

theorem onlyAddr_latchPulse (s : State) : OnlyAddr s (latchPulse s) :=
  .trans (.trans (.trans (onlyAddr_drive _ _ _ rfl) (onlyAddr_delay ..)) (onlyAddr_drive _ _ _ rfl)) (onlyAddr_delay ..)

theorem onlyAddr_transmitByte (p : BytePlane) (b : Byte) (s : State) : OnlyAddr s (transmitByte p b s) :=
  .trans (onlyAddr_shiftBits ..) (onlyAddr_latchPulse _)

theorem onlyAddr_transmitExt (e : Ext) (s : State) : OnlyAddr s (transmitExt e s) :=
  .trans (onlyAddr_setAddr _ s rfl) (onlyAddr_emitUnordered _ _ (by simp [extEvents, Event.isPinLevel]))

theorem onlyAddr_planeStepExt (e : Ext) (s : State) : OnlyAddr s (planeStepExt e s) := by
  unfold planeStepExt
  split
  · exact .refl s
  · exact .trans (onlyAddr_transmitExt e s) (onlyAddr_setAddr _ _ rfl)

theorem onlyAddr_planeStepHi (h : Byte) (s : State) : OnlyAddr s (planeStepHi h s) := by
  unfold planeStepHi
  split
  · exact .refl s
  · exact .trans (onlyAddr_transmitByte _ _ s) (onlyAddr_setAddr _ _ rfl)

/-- The frame of a legal `ASET` on either board. -/
theorem onlyAddr_present (a : Word) (s : State) : OnlyAddr s (present a s) := by
  unfold present
  split
  · exact .trans (.trans (onlyAddr_planeStepExt ..) (onlyAddr_planeStepHi ..)) (onlyAddr_transmitByte ..)
  · exact .trans (onlyAddr_setAddr _ s rfl) (onlyAddr_emitUnordered _ _ (by simp [directEvents, Event.isPinLevel]))

/-! ### The three outcomes of ASET and the two of ABEGIN -/

/-- All that `ASET` can do (40_address_bus.md R111, R117). -/
theorem asetRun_cases (a : Word) (s : State) :
    (s.addr.aBegun = false ∧ asetRun a s = .stopped .asetBeforeBegin s) ∨
    (s.addr.aBegun = true ∧ ¬ a.toNat < 2 ^ 19 ∧ asetRun a s = .stopped .addressTooWide s) ∨
    (s.addr.aBegun = true ∧ a.toNat < 2 ^ 19 ∧ asetRun a s = .going (present a s)) := by
  unfold asetRun
  by_cases hb : s.addr.aBegun = false
  · exact .inl ⟨hb, if_pos hb⟩
  · have hb' : s.addr.aBegun = true := by simpa using hb
    by_cases ha : a.toNat < 2 ^ 19
    · exact .inr (.inr ⟨hb', ha, by simp [hb', (aboveBus_eq_zero_iff a).mpr ha]⟩)
    · have : aboveBus a ≠ 0#13 := fun h => ha ((aboveBus_eq_zero_iff a).mp h)
      exact .inr (.inl ⟨hb', ha, by simp [hb', this]⟩)

theorem asetRun_going {a : Word} {s t : State} (h : asetRun a s = .going t) :
    s.addr.aBegun = true ∧ a.toNat < 2 ^ 19 ∧ t = present a s := by
  rcases asetRun_cases a s with ⟨-, e⟩ | ⟨-, -, e⟩ | ⟨hb, ha, e⟩ <;> rw [e] at h <;> cases h
  exact ⟨hb, ha, rfl⟩

theorem asetRun_legal {a : Word} {s : State} (hb : s.addr.aBegun = true) (ha : a.toNat < 2 ^ 19) :
    asetRun a s = .going (present a s) := by
  rcases asetRun_cases a s with ⟨hn, -⟩ | ⟨-, hn, -⟩ | ⟨-, -, e⟩
  · simp [hb] at hn
  · exact absurd ha hn
  · exact e

/-! ### The closed form of a legal ASET -/

/-- The events of `PlaneStep(EXT, e)` (40_address_bus.md R112): none if the cache holds the value, else the three pins in the order
the draw selects. -/
def planeExtEvents (e : Ext) (c : Option Ext) (draw : Nat) : List Event :=
  if c = some e then [] else orderBy 3 (Config.freeOrder draw) (extEvents e)

/-- The events of `PlaneStep(HI, h)` (40_address_bus.md R112). -/
def planeHiEvents (h : Byte) (c : Option Byte) : List Event :=
  if c = some h then [] else shiftOutEvents .hi h ++ latchEvents

/-- The events of a legal `ASET a` in SHIFT, with the caches at its start. -/
def presentShiftEvents (a : Word) (u : AddrUnit) (draw : Nat) : List Event :=
  planeExtEvents (extPlane a) u.cExt draw ++ planeHiEvents (hiPlane a) u.cHi ++ (shiftOutEvents .lo (loPlane a) ++ latchEvents)

/-- The AddressBus unit after a legal `ASET a` in SHIFT from low clocks, whatever the caches held (40_address_bus.md R111). -/
def AddrUnit.presented (a : Word) (u : AddrUnit) : AddrUnit :=
  { u with
    cExt := some (extPlane a)
    cHi := some (hiPlane a)
    pExt := if u.cExt = some (extPlane a) then u.pExt else extPlane a
    srHi := if u.cHi = some (hiPlane a) then u.srHi else hiPlane a
    qHi := if u.cHi = some (hiPlane a) then u.srHi else hiPlane a
    srLo := loPlane a
    qLo := loPlane a
    pData := a.getLsbD 0 }

/-- The three planes one after another from low clocks. -/
theorem presentShift_closed (a : Word) (s : State) (h : s.addr.ClocksLow) :
    presentShift a s =
      ((s.setAddr (s.addr.presented a)).drew (if s.addr.cExt = some (extPlane a) then 0 else 1)).emit
        (presentShiftEvents a s.addr s.free) := by
  have hd : (loPlane a)[0] = a[0] := by simp [loPlane]
  obtain ⟨bd, pf, po, rs, ad, da, we, db, pe, inp, en, orc, fr, tr⟩ := s
  obtain ⟨a1, a2, a3, a4, a5, a6, a7, a8, a9, a10, a11, a12, a13, a14⟩ := ad
  obtain ⟨h1, h2, h3⟩ := h
  simp only at h1 h2 h3
  subst h1 h2 h3
  by_cases he : a3 = some (extPlane a) <;> by_cases hh : a2 = some (hiPlane a) <;>
    simp [presentShift, planeStepExt, planeStepHi, transmitExt, he, hh, presentShiftEvents, planeExtEvents, planeHiEvents,
      transmitByte_closed _ _ _ (AddrUnit.ClocksLow.mk _ _ _), State.setAddr, State.emit, State.emitUnordered, State.drew,
      AddrUnit.setExt, AddrUnit.cacheExt, AddrUnit.cacheHi, AddrUnit.shifted, AddrUnit.latched, AddrUnit.presented, extEvents, hd]

end Sys2Proof.Machine
end

