-- ==== Sys2Proof/Laws/Present.lean ====
section
/-! SUPPORT. What `ABEGIN` and a legal `ASET` leave behind, said once: the pins, the registers, the latches, the caches and the
invariant of 40_address_bus.md R119. -/

namespace Sys2Proof.Machine

/-! ### The pin maps of a legal board -/

theorem Board.wf_data {b : Board} (h : b.wf = true) : ∀ i j : Fin 8, b.dataPinMap.get i = b.dataPinMap.get j → i = j := by
  simp only [Board.wf, Bool.and_eq_true, decide_eq_true_eq] at h
  exact h.1

theorem Board.wf_addr {b : Board} (h : b.wf = true) : ∀ i j : Fin 19, b.addrPinMap.get i = b.addrPinMap.get j → i = j := by
  simp only [Board.wf, Bool.and_eq_true, decide_eq_true_eq] at h
  exact h.2

/-- Every pin has its bit: a map of a finite set in which no two bits share a pin reaches every pin. -/
theorem pinMap_surjective {n : Nat} (m : Vector (Fin n) n) (hm : ∀ i j, m.get i = m.get j → i = j) (p : Fin n) :
    ∃ i, m.get i = p :=
  (Finite.injective_iff_surjective (f := fun i => m.get i)).mp (fun i j h => hm i j h) p

/-- A value written through a map is the same whatever was on the pins before (every pin is written). -/
theorem scatter_old {n : Nat} (m : Vector (Fin n) n) (hm : ∀ i j, m.get i = m.get j → i = j) (v old old' : BitVec n) :
    scatter m v old = scatter m v old' := by
  apply BitVec.eq_of_getLsbD_eq
  intro i hi
  obtain ⟨j, hj⟩ := pinMap_surjective m hm ⟨i, hi⟩
  have hj' : i = (m.get j).val := by rw [hj]
  rw [hj', getLsbD_scatter m hm, getLsbD_scatter m hm]

/-! ### Planes of a value on the bus -/

theorem onBus_ext (a : Word) : (onBus a).extractLsb' 16 3 = extPlane a := by
  apply BitVec.eq_of_getLsbD_eq
  intro i hi
  rw [onBus, extPlane, BitVec.getLsbD_extractLsb', BitVec.getLsbD_extractLsb', BitVec.getLsbD_extractLsb']
  have : 16 + i < 19 := by omega
  simp [this]

theorem onBus_hi (a : Word) : (onBus a).extractLsb' 8 8 = hiPlane a := by
  apply BitVec.eq_of_getLsbD_eq
  intro i hi
  rw [onBus, hiPlane, BitVec.getLsbD_extractLsb', BitVec.getLsbD_extractLsb', BitVec.getLsbD_extractLsb']
  have : 8 + i < 19 := by omega
  simp [this]

theorem append_ext (p : Ext) (q r : Byte) : (p ++ q ++ r : BitVec 19).extractLsb' 16 3 = p := by
  apply BitVec.eq_of_getLsbD_eq
  intro i hi
  rw [BitVec.getLsbD_extractLsb', BitVec.getLsbD_append, BitVec.getLsbD_append]
  have h1 : ¬ (16 + i < 8) := by omega
  have h2 : ¬ (16 + i - 8 < 8) := by omega
  have h3 : 16 + i - 8 - 8 = i := by omega
  simp only [h1, h2, h3, hi, if_false, decide_true, Bool.true_and]

theorem append_hi (p : Ext) (q r : Byte) : (p ++ q ++ r : BitVec 19).extractLsb' 8 8 = q := by
  apply BitVec.eq_of_getLsbD_eq
  intro i hi
  rw [BitVec.getLsbD_extractLsb', BitVec.getLsbD_append, BitVec.getLsbD_append]
  have h1 : ¬ (8 + i < 8) := by omega
  have h2 : 8 + i - 8 < 8 := by omega
  have h3 : 8 + i - 8 = i := by omega
  simp only [h1, h3, hi, if_false, if_true, decide_true, Bool.true_and]

theorem append_lo (p : Ext) (q r : Byte) : (p ++ q ++ r : BitVec 19).extractLsb' 0 8 = r := by
  apply BitVec.eq_of_getLsbD_eq
  intro i hi
  rw [BitVec.getLsbD_extractLsb', BitVec.getLsbD_append, BitVec.getLsbD_append]
  simp only [Nat.zero_add, hi, if_true, decide_true, Bool.true_and]

/-! ### ABEGIN -/

/-- The unit after `ABEGIN` (40_address_bus.md R110). -/
def AddrUnit.begun (r : Realization) (u : AddrUnit) : AddrUnit :=
  match r with
  | .shift =>
    { u with
      aBegun := true, cHi := none, cExt := none, pinsOut := true, pData := false, pRclk := false, pSclkHi := false,
      pSclkLo := false, pExt := 0#3 }
  | .direct => { u with aBegun := true, cHi := none, cExt := none, pinsOut := true, pAddr := 0#19 }

theorem drive_low_shift (s : State) :
    (addressPins .shift).foldl (fun t p => t.drive p false) s =
      (s.setAddr { s.addr with pData := false, pRclk := false, pSclkHi := false, pSclkLo := false, pExt := 0#3 }).emit
        ((addressPins .shift).map fun p => .pin p false) := by
  obtain ⟨bd, pf, po, rs, ad, da, we, db, pe, inp, en, orc, fr, tr⟩ := s
  obtain ⟨a1, a2, a3, a4, a5, a6, a7, a8, a9, a10, a11, a12, a13, a14⟩ := ad
  have : setPin (setPin (setPin a9 2 false) 1 false) 0 false = 0#3 := by
    apply BitVec.eq_of_getLsbD_eq
    intro i hi
    rw [getLsbD_setPin _ _ _ _ hi, getLsbD_setPin _ _ _ _ hi, getLsbD_setPin _ _ _ _ hi]
    interval_cases i <;> simp
  simp [addressPins, State.drive, State.setAddr, State.emit, AddrUnit.drive, rises]
  exact this

theorem drive_addr_pins (l : List (Fin 19)) (s : State) :
    (l.map Pin.addr).foldl (fun t p => t.drive p false) s =
      (s.setAddr { s.addr with pAddr := l.foldl (fun x (p : Fin 19) => setPin x p.val false) s.addr.pAddr }).emit
        ((l.map Pin.addr).map fun p => .pin p false) := by
  induction l generalizing s with
  | nil => simp [State.setAddr, State.emit]
  | cons p r ih =>
    simp only [List.map_cons, List.foldl_cons]
    rw [ih]
    simp [State.setAddr, State.emit, State.drive, AddrUnit.drive]

theorem drive_low_direct (s : State) :
    (addressPins .direct).foldl (fun t p => t.drive p false) s =
      (s.setAddr { s.addr with pAddr := 0#19 }).emit ((addressPins .direct).map fun p => .pin p false) := by
  unfold addressPins
  rw [drive_addr_pins]
  have : (List.finRange 19).foldl (fun x (p : Fin 19) => setPin x p.val false) s.addr.pAddr = 0#19 := by
    apply BitVec.eq_of_getLsbD_eq
    intro i hi
    have := getLsbD_foldl_setPin (fun _ => false) ((List.finRange 19).map Fin.val) s.addr.pAddr i hi
    rw [List.foldl_map] at this
    rw [this]
    simp only [List.mem_map, List.mem_finRange, true_and]
    rw [if_pos ⟨⟨i, hi⟩, rfl⟩]
    simp
  rw [this]

/-- All that the first `ABEGIN` does (40_address_bus.md R110). -/
theorem abeginRun_first (s : State) (h : s.addr.aBegun = false) :
    abeginRun s = .going ((s.setAddr (s.addr.begun s.board.realization)).emit
      (.addrOutputs :: (addressPins s.board.realization).map fun p => .pin p false)) := by
  unfold abeginRun
  rw [if_neg (by simp [h])]
  cases hr : s.board.realization
  · rw [drive_low_shift]
    simp [State.setAddr, State.emit, AddrUnit.begin, AddrUnit.makeOutputs, AddrUnit.begun]
  · rw [drive_low_direct]
    simp [State.setAddr, State.emit, AddrUnit.begin, AddrUnit.makeOutputs, AddrUnit.begun]

/-- The two outcomes of `ABEGIN` (40_address_bus.md R110; U2). -/
theorem abeginRun_cases (s : State) :
    (s.addr.aBegun = false ∧ abeginRun s = .going ((s.setAddr (s.addr.begun s.board.realization)).emit
      (.addrOutputs :: (addressPins s.board.realization).map fun p => .pin p false))) ∨
    (s.addr.aBegun = true ∧ abeginRun s = .stopped .beginTwice s) := by
  cases h : s.addr.aBegun
  · exact .inl ⟨rfl, abeginRun_first s h⟩
  · exact .inr ⟨rfl, by simp [abeginRun, h]⟩

/-! ### A legal ASET -/

/-- The unit after a legal `ASET a` in DIRECT (40_address_bus.md R116). -/
def AddrUnit.presentedDirect (m : Vector (Fin 19) 19) (a : Word) (u : AddrUnit) : AddrUnit :=
  { u with cExt := some (extPlane a), cHi := some (hiPlane a), pAddr := scatter m (onBus a) u.pAddr }

theorem present_direct (a : Word) (s : State) (h : s.board.realization = .direct) :
    present a s = ((s.setAddr (s.addr.presentedDirect s.board.addrPinMap a)).drew 1).emit
      (orderBy 19 (Config.freeOrder s.free) (directEvents s.board.addrPinMap a)) := by
  rw [present, h]
  simp [presentDirect, State.setAddr, State.emitUnordered, State.drew, State.emit, AddrUnit.setDirect, AddrUnit.cacheExt,
    AddrUnit.cacheHi, AddrUnit.presentedDirect, directEvents]

/-- From a unit as 40_address_bus.md R119 says, an unchanged plane that is not transmitted is already there. -/
theorem presented_planes {b : Board} {u : AddrUnit} (a : Word) (hs : b.realization = .shift) (hc : u.Coherent b)
    (hsc : u.ShiftCoherent) :
    (u.presented a).pExt = extPlane a ∧ (u.presented a).srHi = hiPlane a ∧ (u.presented a).qHi = hiPlane a := by
  have hx : ∀ d, u.xa b d = u.pExt ++ u.qHi ++ u.qLo := by
    intro d
    simp [AddrUnit.xa, hs, hc.pins]
  refine ⟨?_, ?_, ?_⟩
  · show (if _ then _ else _) = _
    split
    · rename_i h
      rcases hc.ext 0 with h' | h'
      · rw [h] at h'; cases h'
      · rw [h, hx, append_ext] at h'
        exact (Option.some.inj h').symm
    · rfl
  · show (if _ then _ else _) = _
    split
    · rename_i h
      exact (hsc.hi _ h).1
    · rfl
  · show (if _ then _ else _) = _
    split
    · rename_i h
      exact (hsc.hi _ h).1
    · rfl

/-- What the device sees, and what the caches and the invariant are, once a legal `ASET a` is over. -/
structure AddrUnit.Presents (b : Board) (a : Word) (u : AddrUnit) : Prop where
  inv : u.Inv b
  xa : ∀ undet, u.xa b undet = onBus a
  pins : u.pinsOut = true
  cExt : u.cExt = some (extPlane a)
  cHi : u.cHi = some (hiPlane a)
  begun : u.aBegun = true

theorem presents_shift {b : Board} {u : AddrUnit} (a : Word) (hs : b.realization = .shift) (hc : u.Coherent b)
    (hsc : u.ShiftCoherent) (hb : u.aBegun = true) : (u.presented a).Presents b a := by
  obtain ⟨h1, h2, h3⟩ := presented_planes a hs hc hsc
  have hx : ∀ d, (u.presented a).xa b d = onBus a := by
    intro d
    rw [← planes_append]
    simp only [AddrUnit.xa, hs]
    rw [h1, h3]
    simp [AddrUnit.presented, hc.pins]
  refine ⟨⟨by simp [AddrUnit.presented, hb], fun _ => ⟨⟨hc.pins, ?_, ?_, by simp [AddrUnit.presented]⟩, fun _ => ?_⟩⟩, hx, hc.pins,
    rfl, rfl, hb⟩
  · intro d; right; rw [hx, onBus_ext]; rfl
  · intro d; right; rw [hx, onBus_hi]; rfl
  · refine ⟨hsc.rclk, hsc.sclkHi, hsc.sclkLo, ?_, fun _ => rfl⟩
    intro h hh
    cases hh
    exact ⟨h2, h3⟩

theorem presents_direct {b : Board} {u : AddrUnit} (a : Word) (hs : b.realization = .direct) (hw : b.wf = true)
    (hp : u.pinsOut = true) (hb : u.aBegun = true) : (u.presentedDirect b.addrPinMap a).Presents b a := by
  have hx : ∀ d, (u.presentedDirect b.addrPinMap a).xa b d = onBus a := by
    intro d
    simp only [AddrUnit.xa, hs, AddrUnit.presentedDirect, hp, if_true]
    exact gather_scatter _ (Board.wf_addr hw) _ _
  refine ⟨⟨by simp [AddrUnit.presentedDirect, hb], fun _ => ⟨⟨hp, ?_, ?_, by simp [AddrUnit.presentedDirect]⟩, ?_⟩⟩, hx, hp, rfl, rfl,
    hb⟩
  · intro d; right; rw [hx, onBus_ext]; rfl
  · intro d; right; rw [hx, onBus_hi]; rfl
  · intro h; rw [hs] at h; cases h

theorem present_presents (a : Word) (s : State) (hw : s.board.wf = true) (hi : s.addr.Inv s.board) (hb : s.addr.aBegun = true) :
    (present a s).addr.Presents s.board a := by
  have hc := (hi.2 hb).1
  cases hr : s.board.realization with
  | shift =>
    have hsc := (hi.2 hb).2 hr
    rw [present, hr, presentShift_closed a s hsc.clocksLow]
    exact presents_shift a hr hc hsc hb
  | direct =>
    rw [present_direct a s hr]
    exact presents_direct a hr hw hc.pins hb

/-! ### What a legal ASET does not look at -/

/-- A change of a state that the AddressBus unit neither sees nor undoes. -/
structure Unseen (f : State → State) : Prop where
  addr : ∀ s, (f s).addr = s.addr
  free : ∀ s, (f s).free = s.free
  realization : ∀ s, (f s).board.realization = s.board.realization
  pinMap : ∀ s, (f s).board.addrPinMap = s.board.addrPinMap
  setAddr : ∀ u s, (f s).setAddr u = f (s.setAddr u)
  emit : ∀ es s, (f s).emit es = f (s.emit es)
  drew : ∀ k s, (f s).drew k = f (s.drew k)

variable {f : State → State}

theorem Unseen.drive (k : Unseen f) (p : Pin) (b : Bool) (s : State) : (f s).drive p b = f (s.drive p b) := by
  rw [State.drive, State.drive, k.addr, k.setAddr, k.emit]

theorem Unseen.delay (k : Unseen f) (n : Nat) (s : State) : (f s).delay n = f (s.delay n) := k.emit _ s

theorem Unseen.emitUnordered (k : Unseen f) (es : List Event) (s : State) : (f s).emitUnordered es = f (s.emitUnordered es) := by
  have e : ∀ v : State, v.emitUnordered es = (v.drew 1).emit (orderBy es.length (Config.freeOrder v.free) es) := fun _ => rfl
  rw [e, e, k.free, k.drew, k.emit]

theorem Unseen.shiftBits (k : Unseen f) (p : BytePlane) (n : Nat) (t : Byte) (s : State) :
    shiftBits p n t (f s) = f (shiftBits p n t s) := by
  induction n generalizing t s with
  | zero => rfl
  | succ n ih => simp only [Machine.shiftBits, shiftOneBit, k.drive, k.delay, ih]

theorem Unseen.transmitByte (k : Unseen f) (p : BytePlane) (b : Byte) (s : State) :
    transmitByte p b (f s) = f (transmitByte p b s) := by
  simp only [Machine.transmitByte, shiftOut, latchPulse, k.shiftBits, k.drive, k.delay]

theorem Unseen.planeStepExt (k : Unseen f) (e : Ext) (s : State) : planeStepExt e (f s) = f (planeStepExt e s) := by
  have ht : transmitExt e (f s) = f (transmitExt e s) := by
    rw [transmitExt, transmitExt, k.addr, k.setAddr, k.emitUnordered]
  by_cases h : s.addr.cExt = some e
  · simp only [Machine.planeStepExt, k.addr, if_pos h]
  · simp only [Machine.planeStepExt, k.addr, if_neg h, ht, k.setAddr]

theorem Unseen.planeStepHi (k : Unseen f) (h : Byte) (s : State) : planeStepHi h (f s) = f (planeStepHi h s) := by
  by_cases hc : s.addr.cHi = some h
  · simp only [Machine.planeStepHi, k.addr, if_pos hc]
  · simp only [Machine.planeStepHi, k.addr, if_neg hc, k.transmitByte, k.setAddr]

theorem Unseen.present (k : Unseen f) (a : Word) (s : State) : present a (f s) = f (present a s) := by
  rw [Machine.present, Machine.present, k.realization]
  cases s.board.realization
  · simp only [presentShift, k.planeStepExt, k.planeStepHi, k.transmitByte]
  · simp only [presentDirect, k.addr, k.pinMap, k.setAddr, k.emitUnordered]

theorem Unseen.abeginRun (k : Unseen f) (s : State) :
    (∃ t, abeginRun s = .going t ∧ abeginRun (f s) = .going (f t)) ∨
    (abeginRun s = .stopped .beginTwice s ∧ abeginRun (f s) = .stopped .beginTwice (f s)) := by
  rcases abeginRun_cases s with ⟨h, e⟩ | ⟨h, e⟩
  · have h' : (f s).addr.aBegun = false := by rw [k.addr]; exact h
    refine .inl ⟨_, e, ?_⟩
    rw [abeginRun_first _ h', k.realization, k.addr, k.setAddr, k.emit]
  · have h' : (f s).addr.aBegun = true := by rw [k.addr]; exact h
    exact .inr ⟨e, by simp [Machine.abeginRun, h']⟩

end Sys2Proof.Machine
end

