-- ==== Sys2Proof/Laws/DataBus.lean ====
section
/-! SUPPORT. What the operations of the DataBus unit do, each said once (41_data_bus.md R140 to R142). -/

namespace Sys2Proof.Machine

/-- The byte a `DREAD` returns on a board for a sample: through the pin map, an undriven line read as its pull-up (41_data_bus.md
R141). -/
def readByte (b : Board) (env : EnvVector) : Byte := gather b.dataPinMap fun p => inputLevel (env.get p)

theorem getLsbD_readByte (b : Board) (env : EnvVector) (i : Fin 8) :
    (readByte b env).getLsbD i = inputLevel (env.get (b.dataPinMap.get i)) := getLsbD_gather _ _ i

/-- A line in input mode reads 0 only where it is driven low (10_state.md R34). -/
theorem inputLevel_eq (d : Drive) : inputLevel d = decide (d ≠ .low) := by
  cases d <;> rfl

/-- With no line driven every bit reads 1 (10_state.md R34). -/
theorem readByte_undriven (b : Board) (env : EnvVector) (h : ∀ p, env.get p = .z) : readByte b env = 0xFF#8 := by
  apply BitVec.eq_of_getLsbD_eq
  intro i hi
  refine (getLsbD_readByte b env ⟨i, hi⟩).trans ?_
  rw [h, inputLevel_eq]
  interval_cases i <;> rfl

/-- `DREAD` in input mode. -/
theorem dreadRun_input {s : State} (h : s.data.mode = .input) :
    dreadRun s = .going { s with
      res := ⟨s.res.ok, readByte s.board s.nextEnv⟩, env := s.env.tail, free := s.free + 1,
      trace := s.trace ++ [.sample s.nextEnv] } := if_pos h

/-- `DREAD` in another mode (U3). -/
theorem dreadRun_other {s : State} (h : s.data.mode ≠ .input) : dreadRun s = .stopped .dreadOutsideInput s := if_neg h

/-- `DWRITE` in output mode. -/
theorem dwriteRun_output {s : State} (v : Byte) (h : s.data.mode = .output) :
    dwriteRun v s = .going { s with
      data := ⟨.output, scatter s.board.dataPinMap v s.data.dOut⟩, free := s.free + 1,
      trace := s.trace ++ orderBy 8 (Config.freeOrder s.free) (busEvents s.board.dataPinMap v) } := if_pos h

/-- `DWRITE` in another mode (U4). -/
theorem dwriteRun_other {s : State} (v : Byte) (h : s.data.mode ≠ .output) : dwriteRun v s = .stopped .dwriteOutsideOutput s :=
  if_neg h

/-- `DMODE IN`. -/
theorem dmodeRun_input (s : State) :
    dmodeRun .input s = .going { s with data := ⟨.input, s.data.dOut⟩, trace := s.trace ++ [.dataMode .input] } := rfl

/-- `DMODE OUT`. -/
theorem dmodeRun_output (s : State) :
    dmodeRun .output s = .going { s with
      data := ⟨.output, s.freeBits 8 0⟩, free := s.free + 1, trace := s.trace ++ [.dataMode .output] } := rfl

/-- In output mode, with nothing driven against it, the device sees the value written (41_data_bus.md R142, R144). -/
theorem xd_driven (b : Board) (hb : b.wf = true) (v old undet : Byte) (env : EnvVector)
    (h : ∀ p, env.get p = .z ∨ env.get p = if (scatter b.dataPinMap v old).getLsbD p then .high else .low) :
    gather b.dataPinMap (DataUnit.line ⟨.output, scatter b.dataPinMap v old⟩ undet env) = v := by
  refine Eq.trans ?_ (gather_scatter b.dataPinMap (Board.wf_data hb) v old)
  congr 1
  funext p
  simp only [DataUnit.line]
  rcases h p with h | h
  · rw [h]
  · rw [h]
    cases (scatter b.dataPinMap v old).getLsbD p <;> simp

end Sys2Proof.Machine
end

