-- ==== Sys2Proof/Laws/Run.lean ====
section
/-! SUPPORT. Sequencing, how a command ends, and the lists of calls and returned bits. -/

namespace Sys2Proof.Machine

@[simp] theorem going_andThen (s : State) (f : State → Run) : (Run.going s).andThen f = f s := rfl
@[simp] theorem failed_andThen (s : State) (f : State → Run) : (Run.failed s).andThen f = .failed s := rfl
@[simp] theorem stopped_andThen (r : Refusal) (s : State) (f : State → Run) : (Run.stopped r s).andThen f = .stopped r s := rfl

theorem andThen_assoc (r : Run) (f g : State → Run) : (r.andThen f).andThen g = r.andThen fun s => (f s).andThen g := by
  cases r <;> rfl

theorem andThen_eq_going {r : Run} {f : State → Run} {t : State} :
    r.andThen f = .going t ↔ ∃ s, r = .going s ∧ f s = .going t := by
  cases r <;> simp [Run.andThen]

theorem andThen_eq_failed {r : Run} {f : State → Run} {t : State} :
    r.andThen f = .failed t ↔ r = .failed t ∨ ∃ s, r = .going s ∧ f s = .failed t := by
  cases r <;> simp [Run.andThen]

@[simp] theorem finish_going (s : State) : (Run.going s).finish = .next s := rfl
@[simp] theorem finish_failed (s : State) : (Run.failed s).finish = .next (takeFail s) := rfl
@[simp] theorem finish_stopped (r : Refusal) (s : State) : (Run.stopped r s).finish = .refused r := rfl

/-- A command that ends has gone through, or has taken `Fail` (60_exceptions.md R200, R205). -/
theorem finish_eq_next {r : Run} {t : State} :
    r.finish = .next t ↔ r = .going t ∨ ∃ s, r = .failed s ∧ t = takeFail s := by
  cases r <;> simp [Run.finish, eq_comm]

theorem exec_eq_finish (i : Instr) (s : State) : exec i s = (instrRun i s).finish := by cases i <;> rfl

/-! ### Calls and returned bits -/

@[simp] theorem callsOf_nil : callsOf [] = [] := rfl
@[simp] theorem retsOf_nil : retsOf [] = [] := rfl

@[simp] theorem callsOf_append (xs ys : List Event) : callsOf (xs ++ ys) = callsOf xs ++ callsOf ys := by
  simp [callsOf]

@[simp] theorem retsOf_append (xs ys : List Event) : retsOf (xs ++ ys) = retsOf xs ++ retsOf ys := by
  induction xs with
  | nil => rfl
  | cons e rest ih => cases e <;> simp [retsOf, ih]

theorem callsOf_pinLevel {es : List Event} (h : ∀ e ∈ es, e.isPinLevel) : callsOf es = [] := by
  rw [callsOf, List.filter_eq_nil_iff]
  intro e he
  have := h e he
  cases e <;> simp_all [Event.isPinLevel, Event.isCall]

theorem retsOf_pinLevel {es : List Event} (h : ∀ e ∈ es, e.isPinLevel) : retsOf es = [] := by
  induction es with
  | nil => rfl
  | cons e rest ih =>
    have h1 := h e (List.mem_cons_self ..)
    have h2 := ih fun x hx => h x (List.mem_cons_of_mem _ hx)
    cases e <;> simp_all [retsOf, Event.isPinLevel]

theorem callsOf_pins {es : List Event} (h : ∀ e ∈ es, ∃ p b, e = .pin p b) : callsOf es = [] := by
  rw [callsOf, List.filter_eq_nil_iff]
  intro e he
  obtain ⟨p, b, rfl⟩ := h e he
  simp [Event.isCall]

theorem retsOf_pins {es : List Event} (h : ∀ e ∈ es, ∃ p b, e = .pin p b) : retsOf es = [] := by
  induction es with
  | nil => rfl
  | cons e rest ih =>
    obtain ⟨p, b, rfl⟩ := h e (List.mem_cons_self ..)
    exact ih fun x hx => h x (List.mem_cons_of_mem _ hx)

theorem eventsSince_of_append {s t : State} {es : List Event} (h : t.trace = s.trace ++ es) : eventsSince s t = es := by
  simp [eventsSince, h]

end Sys2Proof.Machine
end

