-- ==== Sys2Proof/Laws/Primitives.lean ====
section
/-! SUPPORT. What a bus command, an act and a whole primitive call can do, said once (42_write_engine.md R165 to R167). -/

namespace Sys2Proof.Machine

@[simp] theorem put_blkcnt (r : DebugReg) (v : Word) (d : Debug) : (d.put r v).blkcnt = d.blkcnt := by cases r <;> rfl

/-- A write of one debug register leaves the others. -/
theorem get_put_of_ne {r r' : DebugReg} (h : r' ≠ r) (v : Word) (d : Debug) : (d.put r' v).get r = d.get r := by
  cases r <;> cases r' <;> first | rfl | exact absurd rfl h

/-- The six registers and `DBG_BLKCNT` are all there are. -/
theorem debug_ext {d d' : Debug} (hb : d.blkcnt = d'.blkcnt) (h : ∀ r, d.get r = d'.get r) : d = d' := by
  have h8 : ∀ x y : Byte, x.setWidth 32 = y.setWidth 32 → x = y := by
    intro x y e
    have := congrArg BitVec.toNat e
    simp only [BitVec.toNat_setWidth] at this
    exact BitVec.eq_of_toNat_eq (by omega)
  cases d
  cases d'
  simp only [Debug.mk.injEq]
  exact ⟨hb, h .lastAddr, h8 _ _ (h .lastExp), h8 _ _ (h .lastRb), h .dup, h .extra, h .sync⟩

/-- What the acts of a primitive leave alone, whatever they are, with the events `es` they show: no call and no returned bit. -/
structure ActsFrame (s t : State) (es : List Event) : Prop where
  board : t.board = s.board
  profile : t.profile = s.profile
  buf : t.port.buf = s.port.buf
  opl : t.port.opl = s.port.opl
  ok : t.res.ok = s.res.ok
  begun : t.addr.aBegun = s.addr.aBegun
  we : t.we = s.we
  blkcnt : t.dbg.blkcnt = s.dbg.blkcnt
  pending : t.pending = s.pending
  inputs : t.inputs = s.inputs
  oracle : t.oracle = s.oracle
  trace : t.trace = s.trace ++ es
  calls : callsOf es = []
  rets : retsOf es = []

theorem ActsFrame.refl (s : State) : ActsFrame s s [] := by constructor <;> simp

theorem ActsFrame.trans {s t v : State} {es es' : List Event} (h : ActsFrame s t es) (h' : ActsFrame t v es') :
    ActsFrame s v (es ++ es') where
  board := h'.board.trans h.board
  profile := h'.profile.trans h.profile
  buf := h'.buf.trans h.buf
  opl := h'.opl.trans h.opl
  ok := h'.ok.trans h.ok
  begun := h'.begun.trans h.begun
  we := h'.we.trans h.we
  blkcnt := h'.blkcnt.trans h.blkcnt
  pending := h'.pending.trans h.pending
  inputs := h'.inputs.trans h.inputs
  oracle := h'.oracle.trans h.oracle
  trace := by rw [h'.trace, h.trace, List.append_assoc]
  calls := by rw [callsOf_append, h.calls, h'.calls]; rfl
  rets := by rw [retsOf_append, h.rets, h'.rets]; rfl

theorem OnlyAddr.actsFrame {s t : State} (h : OnlyAddr s t) : ∃ es, ActsFrame s t es := by
  obtain ⟨u, n, es, rfl, hb, he⟩ := h
  exact ⟨es, by constructor <;> first | rfl | exact hb | exact callsOf_pinLevel he | exact retsOf_pinLevel he⟩

theorem actsFrame_issue (i : Instr) (s : State) : ActsFrame s (s.issue i) [] := by constructor <;> simp

/-- All that a bus command can do: it goes on within its frame, or it stops where the spec leaves it undefined, with nothing done but
the ports written; it never fails. -/
theorem busRun_cases (c : BusCmd) (s : State) :
    (∃ t es, busRun c s = .going t ∧ ActsFrame s t es) ∨ ∃ r t, busRun c s = .stopped r t ∧ ActsFrame s t [] := by
  cases c with
  | aset a =>
    have h0 := actsFrame_issue (.aset a) s
    rcases asetRun_cases a (s.issue (.aset a)) with ⟨-, e⟩ | ⟨-, -, e⟩ | ⟨-, -, e⟩
    · exact .inr ⟨_, _, e, h0⟩
    · exact .inr ⟨_, _, e, h0⟩
    · obtain ⟨es, h⟩ := (onlyAddr_present a (s.issue (.aset a))).actsFrame
      exact .inl ⟨_, _, e, h0.trans h⟩
  | dmode d =>
    cases d with
    | input => exact .inl ⟨_, [.dataMode .input], rfl, by constructor <;> rfl⟩
    | output => exact .inl ⟨_, [.dataMode .output], rfl, by constructor <;> rfl⟩
  | dread =>
    by_cases h : (s.issue .dread).data.mode = .input
    · exact .inl ⟨_, [.sample (s.issue .dread).nextEnv], if_pos h, by constructor <;> rfl⟩
    · exact .inr ⟨_, _, if_neg h, actsFrame_issue _ s⟩
  | dwrite v =>
    by_cases h : (s.issue (.dwrite v)).data.mode = .output
    · have hp : ∀ e ∈ orderBy (busEvents s.board.dataPinMap v).length (Config.freeOrder s.free) (busEvents s.board.dataPinMap v),
          ∃ p b, e = .pin p b := by
        intro e he
        have := mem_orderBy.mp he
        simp only [busEvents, List.mem_map] at this
        obtain ⟨i, -, rfl⟩ := this
        exact ⟨_, _, rfl⟩
      refine .inl ⟨_, orderBy (busEvents s.board.dataPinMap v).length (Config.freeOrder s.free) (busEvents s.board.dataPinMap v),
        if_pos h, ?_⟩
      constructor <;> first | rfl | exact callsOf_pins hp | exact retsOf_pins hp
    · exact .inr ⟨_, _, if_neg h, actsFrame_issue _ s⟩

theorem actRun_cases (x : PrimAct) (s : State) :
    (∃ t es, actRun x s = .going t ∧ ActsFrame s t es) ∨ ∃ r t, actRun x s = .stopped r t ∧ ActsFrame s t [] := by
  cases x with
  | bus c => exact busRun_cases c s
  | debug r v => exact .inl ⟨_, [], rfl, by constructor <;> simp⟩

theorem actsRun_cases (xs : List PrimAct) (s : State) :
    (∃ t es, actsRun xs s = .going t ∧ ActsFrame s t es) ∨ ∃ r t es, actsRun xs s = .stopped r t ∧ ActsFrame s t es := by
  induction xs generalizing s with
  | nil => exact .inl ⟨s, [], rfl, .refl s⟩
  | cons x rest ih =>
    rcases actRun_cases x s with ⟨t, es, e, h⟩ | ⟨r, t, e, h⟩
    · rcases ih t with ⟨v, es', e', h'⟩ | ⟨r, v, es', e', h'⟩
      · exact .inl ⟨v, es ++ es', by simp [actsRun, e, e'], h.trans h'⟩
      · exact .inr ⟨r, v, es ++ es', by simp [actsRun, e, e'], h.trans h'⟩
    · exact .inr ⟨r, t, [], by simp [actsRun, e], h⟩

/-- What a whole call leaves alone, with the call `c` and the bit it returned. -/
structure CallFrame (s t : State) (c : Event) (ok : Bool) : Prop where
  board : t.board = s.board
  profile : t.profile = s.profile
  buf : t.port.buf = s.port.buf
  opl : t.port.opl = s.port.opl
  resOk : t.res.ok = s.res.ok
  begun : t.addr.aBegun = s.addr.aBegun
  we : t.we = s.we
  blkcnt : t.dbg.blkcnt = s.dbg.blkcnt
  pending : t.pending = s.pending
  inputs : t.inputs = s.inputs
  oracle : t.oracle = s.oracle.tail
  bit : s.nextAnswer.ok = ok
  trace : ∃ es, t.trace = s.trace ++ (c :: es ++ [.ret ok]) ∧ callsOf es = [] ∧ retsOf es = []

/-- All that a primitive call can do (42_write_engine.md R163, R165). -/
theorem callPrimitive_cases (c : Event) (s : State) :
    (∃ t, callPrimitive c s = .going t ∧ CallFrame s t c true) ∨
    (∃ t, callPrimitive c s = .failed t ∧ CallFrame s t c false) ∨
    ∃ r t, callPrimitive c s = .stopped r t ∧ t.oracle = s.oracle.tail ∧ ∃ es, t.trace = s.trace ++ c :: es ∧ callsOf es = [] := by
  rcases actsRun_cases s.nextAnswer.acts (s.callOut c) with ⟨t, es, e, h⟩ | ⟨r, t, es, e, h⟩
  · have frame : ∀ b, s.nextAnswer.ok = b → CallFrame s (t.emit [.ret b]) c b := fun b hb =>
      { board := h.board, profile := h.profile, buf := h.buf, opl := h.opl, resOk := h.ok, begun := h.begun, we := h.we,
        blkcnt := h.blkcnt, pending := h.pending, inputs := h.inputs,
        oracle := h.oracle, bit := hb, trace := ⟨es, by simp [h.trace], h.calls, h.rets⟩ }
    cases hb : s.nextAnswer.ok with
    | true => exact .inl ⟨_, by simp [callPrimitive, e, hb, returnBit], frame true hb⟩
    | false => exact .inr (.inl ⟨_, by simp [callPrimitive, e, hb, returnBit], frame false hb⟩)
  · exact .inr (.inr ⟨r, t, by simp [callPrimitive, e], h.oracle, es, by simp [h.trace], h.calls⟩)

theorem callsOf_call {c : Event} (hc : c.isCall = true) {es : List Event} (h : callsOf es = []) (b : Bool) :
    callsOf (c :: es ++ [.ret b]) = [c] := by
  rw [List.cons_append, callsOf, List.filter_cons_of_pos hc, ← callsOf, callsOf_append, h]
  rfl

theorem retsOf_call {c : Event} (hc : c.isCall = true) {es : List Event} (h : retsOf es = []) (b : Bool) :
    retsOf (c :: es ++ [.ret b]) = [b] := by
  cases c <;> simp_all [Event.isCall, retsOf]

end Sys2Proof.Machine
end

