-- ==== Sys2Proof/Laws/WriteEngine.lean ====
section
/-! SUPPORT. What the steps and loops of the write engine can do, said once: which calls go out, in what order, and what stays
(42_write_engine.md R161 to R163, R174). -/

namespace Sys2Proof.Machine

/-! ### Runs that hand over a plan -/

/-- What the engine leaves alone over some events; `q` is 1 where calls are counted (42_write_engine.md R168) and 0 where not. -/
structure EngineFrame (q : Nat) (s t : State) (es : List Event) : Prop where
  board : t.board = s.board
  profile : t.profile = s.profile
  buf : t.port.buf = s.port.buf
  opl : t.port.opl = s.port.opl
  resOk : t.res.ok = s.res.ok
  begun : t.addr.aBegun = s.addr.aBegun
  start : t.we.start = s.we.start
  blkcnt : t.dbg.blkcnt = s.dbg.blkcnt + BitVec.ofNat 32 (q * (callsOf es).length)
  pending : t.pending = s.pending
  inputs : t.inputs = s.inputs
  oracle : t.oracle = s.oracle.drop (callsOf es).length
  trace : t.trace = s.trace ++ es

theorem EngineFrame.refl (q : Nat) (s : State) : EngineFrame q s s [] := by constructor <;> simp

theorem EngineFrame.trans {q : Nat} {s t v : State} {es es' : List Event} (h : EngineFrame q s t es) (h' : EngineFrame q t v es') :
    EngineFrame q s v (es ++ es') where
  board := h'.board.trans h.board
  profile := h'.profile.trans h.profile
  buf := h'.buf.trans h.buf
  opl := h'.opl.trans h.opl
  resOk := h'.resOk.trans h.resOk
  begun := h'.begun.trans h.begun
  start := h'.start.trans h.start
  blkcnt := by
    rw [h'.blkcnt, h.blkcnt, callsOf_append, List.length_append, Nat.mul_add, BitVec.ofNat_add, BitVec.add_assoc]
  pending := h'.pending.trans h.pending
  inputs := h'.inputs.trans h.inputs
  oracle := by rw [h'.oracle, h.oracle, List.drop_drop, callsOf_append, List.length_append]
  trace := by rw [h'.trace, h.trace, List.append_assoc]

/-- A run from `s` has made all the calls of a plan, each answered 1, and goes on; or those up to the first answered 0, and has failed;
or has met an undefined point (42_write_engine.md R163, R174). -/
def HandsOver (q : Nat) (s : State) (plan : List Event) : Run → Prop
  | .going t => ∃ es, EngineFrame q s t es ∧ callsOf es = plan ∧ retsOf es = List.replicate plan.length true
  | .failed t => ∃ es k, k < plan.length ∧ EngineFrame q s t es ∧ callsOf es = plan.take (k + 1) ∧
      retsOf es = List.replicate k true ++ [false]
  | .stopped _ _ => True

theorem handsOver_nil (q : Nat) (s : State) : HandsOver q s [] (.going s) := ⟨[], .refl q s, rfl, rfl⟩

/-- Two runs in sequence hand over the two plans in sequence. -/
theorem HandsOver.andThen {q : Nat} {s : State} {p p' : List Event} {r : Run} {f : State → Run} (h : HandsOver q s p r)
    (h' : ∀ t, r = .going t → HandsOver q t p' (f t)) : HandsOver q s (p ++ p') (r.andThen f) := by
  cases r with
  | going t =>
    obtain ⟨es, hf, hc, hr⟩ := h
    have h2 := h' t rfl
    cases hft : f t with
    | going v =>
      rw [hft] at h2
      obtain ⟨es', hf', hc', hr'⟩ := h2
      simp only [going_andThen, hft]
      exact ⟨es ++ es', hf.trans hf', by simp [hc, hc'], by
        rw [retsOf_append, hr, hr', List.length_append, List.replicate_add]⟩
    | failed v =>
      rw [hft] at h2
      obtain ⟨es', k, hk, hf', hc', hr'⟩ := h2
      simp only [going_andThen, hft]
      refine ⟨es ++ es', p.length + k, by simpa using hk, hf.trans hf', ?_, ?_⟩
      · rw [callsOf_append, hc, hc', Nat.add_assoc, List.take_length_add_append]
      · rw [retsOf_append, hr, hr', List.replicate_add, List.append_assoc]
    | stopped why v => simp [hft, HandsOver]
  | failed t =>
    obtain ⟨es, k, hk, hf, hc, hr⟩ := h
    refine ⟨es, k, by simp; omega, hf, ?_, hr⟩
    rw [hc, List.take_append_of_le_length (by omega)]
  | stopped why t => trivial

/-! ### One step of each mode -/

/-- One call with its `ASET` before it and, if it succeeds, the sequencer's advance after it. -/
theorem handsOver_step (q : Nat) (count : State → State) (call : Event) (n : Word) (s : State) (hc : call.isCall = true)
    (hcount : ∀ t, count t = t.setDbg ⟨t.dbg.blkcnt + BitVec.ofNat 32 q, t.dbg.lastAddr, t.dbg.lastExp, t.dbg.lastRb, t.dbg.dup,
      t.dbg.extra, t.dbg.sync⟩) :
    HandsOver q s [call]
      (((asetRun s.callAddress s).andThen fun t => callPrimitive call (count t)).andThen fun t => .going (t.advance n)) := by
  rcases asetRun_cases s.callAddress s with ⟨-, e⟩ | ⟨-, -, e⟩ | ⟨-, -, e⟩
  · simp [e, HandsOver]
  · simp [e, HandsOver]
  · obtain ⟨es, ha⟩ := (onlyAddr_present s.callAddress s).actsFrame
    have frame : ∀ (t : State) (b : Bool), CallFrame (count (present s.callAddress s)) t call b →
        ∃ es', EngineFrame q s t es' ∧ t.we = s.we ∧ callsOf es' = [call] ∧ retsOf es' = [b] := by
      intro t b h
      obtain ⟨es', ht, hcalls, hrets⟩ := h.trace
      have hcall : callsOf (es ++ (call :: es' ++ [.ret b])) = [call] := by
        rw [callsOf_append, ha.calls, callsOf_call hc hcalls]; rfl
      refine ⟨es ++ (call :: es' ++ [.ret b]), ?_, ?_, hcall, ?_⟩
      · constructor
        · rw [h.board, hcount]; exact ha.board
        · rw [h.profile, hcount]; exact ha.profile
        · rw [h.buf, hcount]; exact ha.buf
        · rw [h.opl, hcount]; exact ha.opl
        · rw [h.resOk, hcount]; exact ha.ok
        · rw [h.begun, hcount]; exact ha.begun
        · rw [h.we, hcount]; exact congrArg _ ha.we
        · rw [h.blkcnt, hcount, hcall]; simp [ha.blkcnt]
        · rw [h.pending, hcount]; exact ha.pending
        · rw [h.inputs, hcount]; exact ha.inputs
        · rw [h.oracle, hcount, hcall]; simp [ha.oracle]
        · rw [ht, hcount]; simp [ha.trace]
      · rw [h.we, hcount]; exact ha.we
      · rw [retsOf_append, ha.rets, retsOf_call hc hrets]; rfl
    rcases callPrimitive_cases call (count (present s.callAddress s)) with ⟨t, et, h⟩ | ⟨t, et, h⟩ | ⟨r, t, et, -⟩
    · obtain ⟨es', hf, hwe, hcalls, hrets⟩ := frame t true h
      simp only [e, going_andThen, et]
      exact ⟨es', ⟨hf.board, hf.profile, hf.buf, hf.opl, hf.resOk, hf.begun, by simp [hwe], hf.blkcnt,
        hf.pending, hf.inputs, hf.oracle, hf.trace⟩, hcalls, by simpa using hrets⟩
    · obtain ⟨es', hf, -, hcalls, hrets⟩ := frame t false h
      simp only [e, going_andThen, et, failed_andThen]
      exact ⟨es', 0, by simp, hf, by simpa using hcalls, by simpa using hrets⟩
    · simp [e, et, HandsOver]

/-- The call of one iteration of byte mode. -/
def byteCall (s : State) : Event := .callByte (Memory.read s.we.off.toNat s.port.buf) s.callAddress

theorem byteStep_handsOver (s : State) : HandsOver 0 s [byteCall s] (byteStep s) := by
  refine handsOver_step 0 id (byteCall s) 1#32 s rfl ?_
  intro t; simp [State.setDbg]

theorem chunk_handsOver (c : Word) (s : State) : HandsOver 1 s [.callBlock s.we.off c s.callAddress] (chunk c s) := by
  refine handsOver_step 1 State.countBlock (.callBlock s.we.off c s.callAddress) c s rfl ?_
  intro t; rfl

/-- The sequencer after a step that goes on. -/
theorem step_we {count : State → State} {call : Event} {n : Word} {s t : State} (hcount : ∀ t, (count t).we = t.we)
    (h : (((asetRun s.callAddress s).andThen fun t => callPrimitive call (count t)).andThen fun t => .going (t.advance n))
      = .going t) :
    t.we = ⟨s.we.start, s.we.off + n, s.we.rem - n, s.we.busy⟩ := by
  obtain ⟨v, hv, ht⟩ := andThen_eq_going.mp h
  obtain ⟨w, hw, hcall⟩ := andThen_eq_going.mp hv
  obtain ⟨-, -, rfl⟩ := asetRun_going hw
  cases ht
  obtain ⟨es, ha⟩ := (onlyAddr_present s.callAddress s).actsFrame
  rcases callPrimitive_cases call (count (present s.callAddress s)) with ⟨x, e, hx⟩ | ⟨x, e, -⟩ | ⟨r, x, e, -⟩ <;> rw [e] at hcall <;>
    cases hcall
  have hw : v.we = s.we := hx.we.trans ((hcount _).trans ha.we)
  simp [hw]

theorem byteStep_we {s t : State} (h : byteStep s = .going t) :
    t.we = ⟨s.we.start, s.we.off + 1#32, s.we.rem - 1#32, s.we.busy⟩ :=
  step_we (count := id) (fun _ => rfl) h

theorem chunk_we {c : Word} {s t : State} (h : chunk c s = .going t) :
    t.we = ⟨s.we.start, s.we.off + c, s.we.rem - c, s.we.busy⟩ :=
  step_we (count := State.countBlock) (fun _ => rfl) h

/-! ### The plan of block mode, one chunk at a time -/

theorem blockRun_zero (b off a : Nat) : blockRun b off a 0 = [] := by simp [blockRun]

theorem blockRun_short {b off a n : Nat} (hn : 0 < n) (h : n < b) : blockRun b off a n = [(off, n, a)] := by
  have : n % b ≠ 0 := by rw [Nat.mod_eq_of_lt h]; omega
  simp [blockRun, Nat.div_eq_of_lt h, Nat.mod_eq_of_lt h]
  omega

theorem blockRun_full {b off a n : Nat} (hb : 0 < b) (h : b ≤ n) :
    blockRun b off a n = (off, b, a) :: blockRun b (off + b) (a + b) (n - b) := by
  obtain ⟨m, rfl⟩ : ∃ m, n = m + b := ⟨n - b, by omega⟩
  have h1 : (m + b) / b = m / b + 1 := Nat.add_div_right m hb
  have h2 : (m + b) % b = m % b := Nat.add_mod_right m b
  rw [Nat.add_sub_cancel, blockRun, blockRun, h1, h2, List.range_succ_eq_map, List.map_cons, List.map_map]
  simp only [Nat.zero_mul, Nat.add_zero, List.cons_append]
  congr 1
  congr 1
  · apply List.map_congr_left
    intro j _
    simp only [Function.comp_apply, Nat.succ_eq_add_one, Nat.add_mul, Nat.one_mul]
    ext <;> simp <;> omega
  · split
    · rfl
    · rw [Nat.add_mul, Nat.one_mul, show off + (m / b * b + b) = off + b + m / b * b by omega,
        show a + (m / b * b + b) = a + b + m / b * b by omega]

/-- The next chunk of a run that is not over (42_write_engine.md R162). -/
theorem blockRun_step {b off a n : Nat} (hb : 0 < b) (hn : 0 < n) :
    blockRun b off a n = (off, min b n, a) :: blockRun b (off + min b n) (a + min b n) (n - min b n) := by
  rcases Nat.lt_or_ge n b with h | h
  · rw [blockRun_short hn h, Nat.min_eq_right (by omega), Nat.sub_self, blockRun_zero]
  · rw [blockRun_full hb h, Nat.min_eq_left h]

theorem toNat_minWord (x y : Word) : (minWord x y).toNat = min x.toNat y.toNat := by
  unfold minWord
  split
  · rename_i h
    rw [BitVec.le_def] at h
    omega
  · rename_i h
    rw [BitVec.le_def] at h
    omega

/-! ### The loops -/

/-- Byte mode from a sequencer state on (42_write_engine.md R161). -/
theorem byteLoop_handsOver (n : Nat) (s : State) (hn : s.we.rem.toNat = n) :
    HandsOver 0 s
      ((List.range n).map fun i => .callByte (Memory.read ((s.we.off + BitVec.ofNat 32 i).toNat) s.port.buf)
        (s.we.start + (s.we.off + BitVec.ofNat 32 i)))
      (byteLoop n s) := by
  induction n generalizing s with
  | zero => exact handsOver_nil 0 s
  | succ n ih =>
    have hne : s.we.rem ≠ 0#32 := by
      intro h; rw [h] at hn; simp at hn
    rw [byteLoop, if_neg hne, List.range_succ_eq_map, List.map_cons, List.map_map]
    have h1 : byteCall s = .callByte (Memory.read ((s.we.off + BitVec.ofNat 32 0).toNat) s.port.buf)
        (s.we.start + (s.we.off + BitVec.ofNat 32 0)) := by
      simp [byteCall, State.callAddress]
    rw [← h1]
    refine HandsOver.andThen (p := [byteCall s]) (byteStep_handsOver s) ?_
    intro t ht
    have hwe := byteStep_we ht
    have hs := byteStep_handsOver s
    rw [ht] at hs
    obtain ⟨es, hf, -, -⟩ := hs
    have hrem : t.we.rem.toNat = n := by
      rw [hwe]
      simp only [BitVec.toNat_sub, BitVec.toNat_ofNat]
      have := s.we.rem.isLt
      omega
    have := ih t hrem
    convert this using 2
    funext i
    have hoff : s.we.off + BitVec.ofNat 32 (i + 1) = t.we.off + BitVec.ofNat 32 i := by
      rw [hwe, Nat.add_comm, BitVec.ofNat_add, BitVec.add_assoc]
    simp only [Function.comp_apply, Nat.succ_eq_add_one, hoff, hf.buf, hf.start]

/-- Block mode's loop from a sequencer state on (42_write_engine.md R162). -/
theorem blockLoop_handsOver (fuel : Nat) (s : State) (hfuel : s.we.rem.toNat ≤ fuel) (hb : s.profile.block ≠ 0#32)
    (off a : Nat) (hoff : s.we.off = BitVec.ofNat 32 off) (ha : s.we.start + s.we.off = BitVec.ofNat 32 a) :
    HandsOver 1 s ((blockRun s.profile.block.toNat off a s.we.rem.toNat).map chunkCall) (blockLoop fuel s) := by
  have hbpos : 0 < s.profile.block.toNat := by
    rcases Nat.eq_zero_or_pos s.profile.block.toNat with h | h
    · exact absurd (BitVec.eq_of_toNat_eq (by simpa using h)) hb
    · exact h
  induction fuel generalizing s off a with
  | zero =>
    have : s.we.rem.toNat = 0 := by omega
    rw [this, blockRun_zero]
    exact handsOver_nil 1 s
  | succ fuel ih =>
    by_cases hz : s.we.rem = 0#32
    · rw [blockLoop, if_pos hz, hz]
      simp only [BitVec.toNat_ofNat, Nat.zero_mod, blockRun_zero]
      exact handsOver_nil 1 s
    · have hpos : 0 < s.we.rem.toNat := by
        rcases Nat.eq_zero_or_pos s.we.rem.toNat with h | h
        · exact absurd (BitVec.eq_of_toNat_eq (by simpa using h)) hz
        · exact h
      have hmin := toNat_minWord s.profile.block s.we.rem
      have hc : chunkCall (off, min s.profile.block.toNat s.we.rem.toNat, a) =
          .callBlock s.we.off (minWord s.profile.block s.we.rem) s.callAddress := by
        simp only [chunkCall, ← hmin, BitVec.ofNat_toNat, BitVec.setWidth_eq, ← hoff, ← ha, State.callAddress]
      rw [blockLoop, if_neg hz, blockRun_step hbpos hpos, List.map_cons, hc]
      refine HandsOver.andThen (p := [_]) (chunk_handsOver _ s) ?_
      intro t ht
      have hwe := chunk_we ht
      have hs := chunk_handsOver (minWord s.profile.block s.we.rem) s
      rw [ht] at hs
      obtain ⟨es, hf, -, -⟩ := hs
      have hrem : t.we.rem.toNat = s.we.rem.toNat - min s.profile.block.toNat s.we.rem.toNat := by
        rw [hwe]
        simp only [BitVec.toNat_sub, hmin]
        have := s.we.rem.isLt
        omega
      rw [← hrem, ← hf.profile]
      refine ih t ?_ ?_ _ _ ?_ ?_ ?_
      · omega
      · rw [hf.profile]; exact hb
      · rw [hwe, hf.profile]
        simp only [hoff, BitVec.ofNat_add, ← hmin, BitVec.ofNat_toNat, BitVec.setWidth_eq]
      · rw [hwe, hf.profile]
        simp only [BitVec.ofNat_add, ← hmin, BitVec.ofNat_toNat, BitVec.setWidth_eq, ← ha, BitVec.add_assoc]
      · rw [hf.profile]; exact hbpos

end Sys2Proof.Machine
end

