-- ==== Sys2Proof/Laws/Induction.lean ====
section
/-! SUPPORT. Two inductions over a whole command, each packaged once: a relation between the start and the end that every piece of a
command keeps, and a relation between two runs that every piece respects. -/

namespace Sys2Proof.Machine

/-! ### One run: what every piece keeps, the command keeps -/

/-- A relation from a state to a later one that every piece of a `WDATA` keeps, each call with all its primitive does a piece. -/
structure KeptCalls (R : State → State → Prop) : Prop where
  refl : ∀ s, R s s
  trans : ∀ s t v, R s t → R t v → R s v
  present : ∀ a s, s.addr.aBegun = true → a.toNat < 2 ^ 19 → R s (present a s)
  count : ∀ s, R s s.countBlock
  we : ∀ w s, R s (s.setWe w)
  call : ∀ c s, c.isCall = true → R s (callPrimitive c s).state

/-- The same with the pieces of a call one by one. -/
structure Kept (R : State → State → Prop) : Prop where
  refl : ∀ s, R s s
  trans : ∀ s t v, R s t → R t v → R s v
  present : ∀ a s, s.addr.aBegun = true → a.toNat < 2 ^ 19 → R s (present a s)
  dmode : ∀ d s, R s (dmodeRun d s).state
  dread : ∀ s, R s (dreadRun s).state
  dwrite : ∀ v s, R s (dwriteRun v s).state
  issue : ∀ i s, R s (s.issue i)
  dbg : ∀ d s, R s (s.setDbg d)
  we : ∀ w s, R s (s.setWe w)
  callOut : ∀ c s, c.isCall = true → R s (s.callOut c)
  ret : ∀ b s, R s (s.emit [.ret b])

variable {R : State → State → Prop}

/-- A relation kept by a run and by what comes after it. -/
theorem kept_andThen (trans : ∀ s t v, R s t → R t v → R s v) {s : State} {r : Run} {f : State → Run} (h : R s r.state)
    (hf : ∀ t, r = .going t → R t (f t).state) : R s (r.andThen f).state := by
  cases r with
  | going t => exact trans _ _ _ h (hf t rfl)
  | failed t => exact h
  | stopped why t => exact h

theorem kept_aset (refl : ∀ s, R s s) (present : ∀ a s, s.addr.aBegun = true → a.toNat < 2 ^ 19 → R s (present a s)) (a : Word)
    (s : State) : R s (asetRun a s).state := by
  rcases asetRun_cases a s with ⟨-, e⟩ | ⟨-, -, e⟩ | ⟨hb, ha, e⟩ <;> rw [e]
  · exact refl s
  · exact refl s
  · exact present a s hb ha

/-! The pieces of a call -/

theorem Kept.act (k : Kept R) (x : PrimAct) (s : State) : R s (actRun x s).state := by
  cases x with
  | bus c =>
    cases c with
    | aset a => exact k.trans _ _ _ (k.issue _ s) (kept_aset k.refl k.present a _)
    | dmode d => exact k.trans _ _ _ (k.issue _ s) (k.dmode d _)
    | dread => exact k.trans _ _ _ (k.issue _ s) (k.dread _)
    | dwrite v => exact k.trans _ _ _ (k.issue _ s) (k.dwrite v _)
  | debug r v => exact k.dbg _ s

/-- What every act of a list keeps, the list keeps. -/
theorem kept_acts (refl : ∀ s, R s s) (trans : ∀ s t v, R s t → R t v → R s v) (xs : List PrimAct)
    (act : ∀ x ∈ xs, ∀ s, R s (actRun x s).state) (s : State) : R s (actsRun xs s).state := by
  induction xs generalizing s with
  | nil => exact refl s
  | cons x rest ih =>
    exact kept_andThen trans (act x (List.mem_cons_self ..) s) fun t _ => ih (fun y hy => act y (List.mem_cons_of_mem _ hy)) t

theorem Kept.call (k : Kept R) (c : Event) (s : State) (hc : c.isCall = true) : R s (callPrimitive c s).state := by
  refine kept_andThen k.trans
    (k.trans _ _ _ (k.callOut c s hc) (kept_acts k.refl k.trans _ (fun x _ => k.act x) _)) fun t _ => ?_
  unfold returnBit
  split
  · exact k.ret true t
  · exact k.ret false t

theorem Kept.toCalls (k : Kept R) : KeptCalls R := ⟨k.refl, k.trans, k.present, fun s => k.dbg _ s, k.we, k.call⟩

/-! The loops -/

theorem KeptCalls.aset (k : KeptCalls R) (a : Word) (s : State) : R s (asetRun a s).state := kept_aset k.refl k.present a s

theorem KeptCalls.byteStep (k : KeptCalls R) (s : State) : R s (byteStep s).state :=
  kept_andThen k.trans (kept_andThen k.trans (k.aset _ s) fun t _ => k.call _ t rfl) fun t _ => k.we _ t

theorem KeptCalls.chunk (k : KeptCalls R) (c : Word) (s : State) : R s (chunk c s).state :=
  kept_andThen k.trans (kept_andThen k.trans (k.aset _ s) fun t _ => k.trans _ _ _ (k.count t) (k.call _ _ rfl)) fun t _ => k.we _ t

theorem KeptCalls.byteLoop (k : KeptCalls R) (n : Nat) (s : State) : R s (byteLoop n s).state := by
  induction n generalizing s with
  | zero => exact k.refl s
  | succ n ih =>
    unfold Machine.byteLoop
    split
    · exact k.refl s
    · exact kept_andThen k.trans (k.byteStep s) fun t _ => ih t

theorem KeptCalls.blockLoop (k : KeptCalls R) (n : Nat) (s : State) : R s (blockLoop n s).state := by
  induction n generalizing s with
  | zero => exact k.refl s
  | succ n ih =>
    unfold Machine.blockLoop
    split
    · exact k.refl s
    · exact kept_andThen k.trans (k.chunk _ s) fun t _ => ih t

theorem KeptCalls.leadIn (k : KeptCalls R) (s : State) : R s (leadIn s).state := by
  unfold Machine.leadIn
  dsimp only
  split
  · exact k.refl s
  · exact k.chunk _ s

/-- A `WDATA` before its end is written: the loops. -/
def wdataLoops (a l : Word) (s : State) : Run :=
  if s.profile.block = 0#32 then byteMode (startWrite a l s) else blockMode (startWrite a l s)

theorem wdataRun_eq (a l : Word) (s : State) :
    wdataRun a l s = if blockAdmitted s.profile.block = false then .stopped .blockSizeNotAdmitted s
      else (wdataLoops a l s).andThen fun t => .going (endWrite true t) := rfl

theorem KeptCalls.wdataLoops (k : KeptCalls R) (a l : Word) (s : State) : R s (wdataLoops a l s).state := by
  have h0 : R s (startWrite a l s) := k.we _ s
  unfold Machine.wdataLoops
  split
  · exact k.trans _ _ _ h0 (k.byteLoop _ _)
  · exact k.trans _ _ _ h0 (kept_andThen k.trans (k.leadIn _) fun t _ => k.blockLoop _ t)

/-- A `WDATA` that ends has run its loops, to their end or to a `Fail`, and then written its end. -/
theorem execWdata_next {a l : Word} {s t : State} (h : execWdata a l s = .next t) :
    blockAdmitted s.profile.block = true ∧
    ((∃ v, wdataLoops a l s = .going v ∧ t = endWrite true v) ∨ ∃ v, wdataLoops a l s = .failed v ∧ t = endWrite false v) := by
  unfold execWdata at h
  rw [wdataRun_eq] at h
  split at h
  · simp at h
  · rename_i hb
    refine ⟨by simpa using hb, ?_⟩
    rcases hr : Machine.wdataLoops a l s with v | v | ⟨why, v⟩ <;> rw [hr] at h <;> simp at h
    · exact .inl ⟨v, rfl, h.symm⟩
    · exact .inr ⟨v, rfl, h.symm⟩

/-- What every piece of a `WDATA` keeps, and its last write too, a `WDATA` keeps. -/
theorem KeptCalls.wdata (k : KeptCalls R) (hend : ∀ ok s, R s (endWrite ok s)) {a l : Word} {s t : State}
    (h : execWdata a l s = .next t) : R s t := by
  have h1 := k.wdataLoops a l s
  obtain ⟨-, ⟨v, e, rfl⟩ | ⟨v, e, rfl⟩⟩ := execWdata_next h <;> rw [e] at h1
  · exact k.trans _ _ _ h1 (hend true v)
  · exact k.trans _ _ _ h1 (hend false v)

theorem Kept.wdata (k : Kept R) (hend : ∀ ok s, R s (endWrite ok s)) {a l : Word} {s t : State} (h : execWdata a l s = .next t) :
    R s t := k.toCalls.wdata hend h

/-! ### Two runs: what every piece respects, the command respects -/

/-- Two runs that have come equally far, in related states. -/
def Run.Related (E : State → State → Prop) : Run → Run → Prop
  | .going s, .going t => E s t
  | .failed s, .failed t => E s t
  | .stopped r s, .stopped r' t => r = r' ∧ E s t
  | _, _ => False

/-- A relation between states that every piece of a command respects. -/
structure Respected (E : State → State → Prop) : Prop where
  begun : ∀ s t, E s t → t.addr.aBegun = s.addr.aBegun
  block : ∀ s t, E s t → t.profile.block = s.profile.block
  buf : ∀ s t, E s t → t.port.buf = s.port.buf
  we : ∀ s t, E s t → t.we = s.we
  answer : ∀ s t, E s t → t.nextAnswer = s.nextAnswer
  present : ∀ a s t, E s t → E (present a s) (present a t)
  dmode : ∀ d s t, E s t → Run.Related E (dmodeRun d s) (dmodeRun d t)
  dread : ∀ s t, E s t → Run.Related E (dreadRun s) (dreadRun t)
  dwrite : ∀ v s t, E s t → Run.Related E (dwriteRun v s) (dwriteRun v t)
  issue : ∀ i s t, E s t → E (s.issue i) (t.issue i)
  debug : ∀ r v s t, E s t → E (s.setDbg (s.dbg.put r v)) (t.setDbg (t.dbg.put r v))
  count : ∀ s t, E s t → E s.countBlock t.countBlock
  setWe : ∀ w s t, E s t → E (s.setWe w) (t.setWe w)
  callOut : ∀ c s t, E s t → E (s.callOut c) (t.callOut c)
  emit : ∀ es s t, E s t → E (s.emit es) (t.emit es)

variable {E : State → State → Prop}

theorem Run.Related.andThen {r r' : Run} {f g : State → Run} (h : Run.Related E r r')
    (hf : ∀ s t, E s t → Run.Related E (f s) (g t)) : Run.Related E (r.andThen f) (r'.andThen g) := by
  cases r <;> cases r' <;> first | exact hf _ _ h | exact h | exact h.elim

theorem Respected.aset (k : Respected E) (a : Word) {s t : State} (h : E s t) : Run.Related E (asetRun a s) (asetRun a t) := by
  unfold asetRun
  rw [k.begun s t h]
  split
  · exact ⟨rfl, h⟩
  · split
    · exact ⟨rfl, h⟩
    · exact k.present a s t h

theorem Respected.act (k : Respected E) (x : PrimAct) {s t : State} (h : E s t) : Run.Related E (actRun x s) (actRun x t) := by
  cases x with
  | bus c =>
    cases c with
    | aset a => exact k.aset a (k.issue _ s t h)
    | dmode d => exact k.dmode d _ _ (k.issue _ s t h)
    | dread => exact k.dread _ _ (k.issue _ s t h)
    | dwrite v => exact k.dwrite v _ _ (k.issue _ s t h)
  | debug r v => exact k.debug r v s t h

theorem Respected.acts (k : Respected E) (xs : List PrimAct) {s t : State} (h : E s t) :
    Run.Related E (actsRun xs s) (actsRun xs t) := by
  induction xs generalizing s t with
  | nil => exact h
  | cons x rest ih => exact (k.act x h).andThen fun _ _ h' => ih h'

theorem Respected.call (k : Respected E) (c : Event) {s t : State} (h : E s t) :
    Run.Related E (callPrimitive c s) (callPrimitive c t) := by
  unfold callPrimitive
  rw [k.answer s t h]
  refine (k.acts _ (k.callOut c s t h)).andThen fun s' t' h' => ?_
  unfold returnBit
  split
  · exact k.emit _ s' t' h'
  · exact k.emit _ s' t' h'

theorem Respected.advance (k : Respected E) (c : Word) {s t : State} (h : E s t) : E (s.advance c) (t.advance c) := by
  unfold State.advance
  rw [k.we s t h]
  exact k.setWe _ s t h

theorem Respected.byteStep (k : Respected E) {s t : State} (h : E s t) : Run.Related E (byteStep s) (byteStep t) := by
  unfold Machine.byteStep State.callAddress
  rw [k.we s t h, k.buf s t h]
  exact ((k.aset _ h).andThen fun _ _ h' => k.call _ h').andThen fun _ _ h' => k.advance _ h'

theorem Respected.chunk (k : Respected E) (c : Word) {s t : State} (h : E s t) : Run.Related E (chunk c s) (chunk c t) := by
  unfold Machine.chunk State.callAddress
  rw [k.we s t h]
  exact ((k.aset _ h).andThen fun _ _ h' => k.call _ (k.count _ _ h')).andThen fun _ _ h' => k.advance _ h'

theorem Respected.byteLoop (k : Respected E) (n : Nat) {s t : State} (h : E s t) :
    Run.Related E (byteLoop n s) (byteLoop n t) := by
  induction n generalizing s t with
  | zero => exact h
  | succ n ih =>
    unfold Machine.byteLoop
    rw [k.we s t h]
    split
    · exact h
    · exact (k.byteStep h).andThen fun _ _ h' => ih h'

theorem Respected.blockLoop (k : Respected E) (n : Nat) {s t : State} (h : E s t) :
    Run.Related E (blockLoop n s) (blockLoop n t) := by
  induction n generalizing s t with
  | zero => exact h
  | succ n ih =>
    unfold Machine.blockLoop
    rw [k.we s t h, k.block s t h]
    split
    · exact h
    · exact (k.chunk _ h).andThen fun _ _ h' => ih h'

theorem Respected.wdata (k : Respected E) (hend : ∀ ok s t, E s t → E (endWrite ok s) (endWrite ok t)) (a l : Word) {s t : State}
    (h : E s t) : Run.Related E (wdataRun a l s) (wdataRun a l t) := by
  unfold wdataRun
  rw [k.block s t h]
  split
  · exact ⟨rfl, h⟩
  · have h0 : E (startWrite a l s) (startWrite a l t) := k.setWe _ s t h
    refine Run.Related.andThen ?_ fun _ _ h' => hend true _ _ h'
    split
    · unfold byteMode
      rw [k.we _ _ h0]
      exact k.byteLoop _ h0
    · unfold blockMode
      refine Run.Related.andThen ?_ fun s' t' h' => ?_
      · unfold leadIn
        dsimp only
        rw [k.we _ _ h0, k.block _ _ h0]
        split
        · exact h0
        · exact k.chunk _ h0
      · rw [k.we _ _ h']
        exact k.blockLoop _ h'

/-- Related runs finish alike. -/
theorem Run.Related.finish (hend : ∀ ok s t, E s t → E (endWrite ok s) (endWrite ok t)) {r r' : Run} (h : Run.Related E r r') :
    (∃ s t, r.finish = .next s ∧ r'.finish = .next t ∧ E s t) ∨ ∃ why, r.finish = .refused why ∧ r'.finish = .refused why := by
  cases r <;> cases r' <;> simp only [Run.Related] at h
  · exact .inl ⟨_, _, rfl, rfl, h⟩
  · exact .inl ⟨_, _, rfl, rfl, hend false _ _ h⟩
  · obtain ⟨rfl, -⟩ := h
    exact .inr ⟨_, rfl, rfl⟩

end Sys2Proof.Machine
end

