-- ==== Sys2Proof/Laws/Memory.lean ====
section
/-! SUPPORT. The buffer: a read after a write, and the canonical form that every operation keeps. -/

namespace Sys2Proof.Machine

theorem Memory.wfFrom_mono {lo lo' : Nat} (h : lo' ≤ lo) {m : Memory} (hm : Memory.wfFrom lo m = true) :
    Memory.wfFrom lo' m = true := by
  cases m with
  | nil => rfl
  | cons c rest =>
    simp only [Memory.wfFrom, Bool.and_eq_true, decide_eq_true_eq] at hm ⊢
    exact ⟨⟨by omega, hm.1.2⟩, hm.2⟩

theorem Memory.read_before {lo off : Nat} {m : Memory} (hm : Memory.wfFrom lo m = true) (h : off < lo) :
    Memory.read off m = Memory.blank := by
  cases m with
  | nil => rfl
  | cons c rest =>
    simp only [Memory.wfFrom, Bool.and_eq_true, decide_eq_true_eq] at hm
    have h1 : c.1 ≠ off := by omega
    have h2 : off < c.1 := by omega
    simp [Memory.read, h1, h2]

theorem Memory.wfFrom_write {lo off : Nat} (h : lo ≤ off) (b : Byte) {m : Memory} (hm : Memory.wfFrom lo m = true) :
    Memory.wfFrom lo (Memory.write off b m) = true := by
  induction m generalizing lo with
  | nil =>
    by_cases hb : b = Memory.blank <;> simp [Memory.write, Memory.wfFrom, hb, h]
  | cons c rest ih =>
    simp only [Memory.wfFrom, Bool.and_eq_true, decide_eq_true_eq] at hm
    obtain ⟨⟨h1, h2⟩, h3⟩ := hm
    unfold Memory.write
    split
    · rename_i hlt
      by_cases hb : b = Memory.blank
      · simp [hb, Memory.wfFrom, h1, h2, h3]
      · have : off + 1 ≤ c.1 := by omega
        simp [hb, Memory.wfFrom, h, h2, h3, this]
    · split
      · rename_i heq
        by_cases hb : b = Memory.blank
        · simp only [hb, if_true]
          exact Memory.wfFrom_mono (by omega) h3
        · have hr : Memory.wfFrom (off + 1) rest = true := by rw [heq]; exact h3
          simp [hb, Memory.wfFrom, h, hr]
      · have := ih (lo := c.1 + 1) (by omega) h3
        simp [Memory.wfFrom, h1, h2, this]

theorem Memory.read_write {lo : Nat} {m : Memory} (hm : Memory.wfFrom lo m = true) (off x : Nat) (b : Byte) :
    Memory.read x (Memory.write off b m) = if x = off then b else Memory.read x m := by
  induction m generalizing lo with
  | nil =>
    by_cases hb : b = Memory.blank <;> by_cases hx : x = off <;>
      simp_all [Memory.write, Memory.read, eq_comm (a := off)]
  | cons c rest ih =>
    simp only [Memory.wfFrom, Bool.and_eq_true, decide_eq_true_eq] at hm
    obtain ⟨⟨-, -⟩, h3⟩ := hm
    unfold Memory.write
    split
    · rename_i hlt
      by_cases hx : x = off
      · subst hx
        have h1 : c.1 ≠ x := by omega
        by_cases hb : b = Memory.blank <;> simp [hb, Memory.read, h1, hlt]
      · by_cases hb : b = Memory.blank
        · simp [hb, hx]
        · have h2 : off ≠ x := fun e => hx e.symm
          by_cases hlx : x < off
          · have h4 : c.1 ≠ x := by omega
            have h5 : x < c.1 := by omega
            simp [hb, hx, h2, hlx, Memory.read, h4, h5]
          · simp [hb, hx, h2, hlx, Memory.read]
    · split
      · rename_i heq
        by_cases hx : x = off
        · by_cases hb : b = Memory.blank
          · simp only [hb, if_true, hx]
            exact Memory.read_before h3 (by omega)
          · simp [hb, hx, Memory.read]
        · have h2 : off ≠ x := fun e => hx e.symm
          have h2' : c.1 ≠ x := by omega
          by_cases hb : b = Memory.blank
          · by_cases hlx : x < c.1
            · simp [hb, hx, h2', hlx, Memory.read, Memory.read_before h3 (show x < c.1 + 1 by omega)]
            · simp [hb, hx, h2', hlx, Memory.read]
          · by_cases hlx : x < off
            · have : x < c.1 := by omega
              simp [hb, hx, h2, h2', hlx, this, Memory.read]
            · have : ¬ x < c.1 := by omega
              simp [hb, hx, h2, h2', hlx, this, Memory.read]
      · by_cases hc : c.1 = x
        · have hx : x ≠ off := by omega
          simp [Memory.read, hc, hx]
        · by_cases hlx : x < c.1
          · have hx : x ≠ off := by omega
            simp [Memory.read, hc, hlx, hx]
          · simp [Memory.read, hc, hlx, ih h3]

theorem Memory.wf_write (off : Nat) (b : Byte) {m : Memory} (hm : m.wf = true) : Memory.wf (Memory.write off b m) = true :=
  Memory.wfFrom_write (Nat.zero_le _) b hm

theorem Memory.wf_placeFrom (off : Nat) (bytes : List Byte) {m : Memory} (hm : m.wf = true) :
    Memory.wf (Memory.placeFrom off bytes m) = true := by
  induction bytes generalizing off m with
  | nil => exact hm
  | cons b rest ih => exact ih (off + 1) (Memory.wf_write off b hm)

theorem Memory.wf_place (bytes : List Byte) : Memory.wf (Memory.place bytes) = true :=
  Memory.wf_placeFrom 0 bytes rfl

theorem Memory.read_placeFrom (off : Nat) (bytes : List Byte) {m : Memory} (hm : m.wf = true) (x : Nat) :
    Memory.read x (Memory.placeFrom off bytes m) =
      if off ≤ x ∧ x < off + bytes.length then bytes.getD (x - off) Memory.blank else Memory.read x m := by
  induction bytes generalizing off m with
  | nil => simp [Memory.placeFrom]
  | cons b rest ih =>
    rw [Memory.placeFrom, ih (off + 1) (Memory.wf_write off b hm), Memory.read_write hm]
    by_cases hx : x = off
    · subst hx; simp
    · by_cases hr : off + 1 ≤ x ∧ x < off + 1 + rest.length
      · have h1 : off ≤ x ∧ x < off + (b :: rest).length := by simp; omega
        have h2 : x - off = (x - (off + 1)) + 1 := by omega
        rw [if_pos hr, if_pos h1, h2, List.getD_cons_succ]
      · have h1 : ¬ (off ≤ x ∧ x < off + (b :: rest).length) := by simp; omega
        rw [if_neg hr, if_neg h1, if_neg hx]

/-- Byte `i` of the buffer the host placed is byte `i` of its list (20_memory.md R62). -/
theorem Memory.read_place (bytes : List Byte) (i : Nat) (h : i < bytes.length) :
    Memory.read i (Memory.place bytes) = bytes[i] := by
  rw [Memory.place, Memory.read_placeFrom 0 bytes rfl i]
  simp [h]

end Sys2Proof.Machine
end

