-- ==== Sys2Proof/Laws/PerInstr.lean ====
section
/-! SUPPORT. Statements about all commands, one lemma per constructor. -/

namespace Sys2Proof.Laws.EncodingFits

/-- The encoding names a unit and a function that 30_encoding.md R91 and R95 give, and leaves every port the command's format does not
read (30_encoding.md R92) at zero. -/
structure Statement (i : Instr) : Prop where
  unit : 1 ≤ (unitOf (encode i).cmd).toNat ∧ (unitOf (encode i).cmd).toNat ≤ 4
  fn : (fnOf (encode i).cmd).toNat ≤ 2
  opa : i.readsOpa = false → (encode i).opa = 0#32
  opl : i.readsOpl = false → (encode i).opl = 0#32

theorem abegin : Statement .abegin := by constructor <;> decide

theorem aset (a : Word) : Statement (.aset a) :=
  ⟨by show 1 ≤ (unitOf 0x11#8).toNat ∧ (unitOf 0x11#8).toNat ≤ 4; decide, by show (fnOf 0x11#8).toNat ≤ 2; decide, nofun,
    fun _ => rfl⟩

theorem dmode (d : Direction) : Statement (.dmode d) := by cases d <;> constructor <;> decide

theorem dread : Statement .dread := by constructor <;> decide

theorem dwrite (v : Byte) : Statement (.dwrite v) :=
  ⟨by show 1 ≤ (unitOf 0x22#8).toNat ∧ (unitOf 0x22#8).toNat ≤ 4; decide, by show (fnOf 0x22#8).toNat ≤ 2; decide, nofun,
    fun _ => rfl⟩

theorem wdata (a l : Word) : Statement (.wdata a l) :=
  ⟨by show 1 ≤ (unitOf 0x30#8).toNat ∧ (unitOf 0x30#8).toNat ≤ 4; decide, by show (fnOf 0x30#8).toNat ≤ 2; decide, nofun, nofun⟩

theorem dbgrst : Statement .dbgrst := by constructor <;> decide

theorem dbgprint : Statement .dbgprint := by constructor <;> decide

end Sys2Proof.Laws.EncodingFits
end

