-- ==== Sys2Proof/Laws/Pins.lean ====
section
/-! SUPPORT. The pin level: what replaying the events of an operation one by one gives, in whatever order they come, and which
addresses the device sees on the way (00_scope.md R13, 40_address_bus.md R118); the same of the DataBus unit. -/

namespace Sys2Proof.Machine

theorem replay_append (u : AddrUnit) (xs ys : List Event) : u.replay (xs ++ ys) = (u.replay xs).replay ys := by
  simp [AddrUnit.replay]

/-- An event does to the pins what it does, whatever the caches hold. -/
theorem pinState_onEvent (e : Event) (u v : AddrUnit) (h : u.pinState = v.pinState) : (u.onEvent e).pinState = (v.onEvent e).pinState := by
  obtain ⟨a1, a2, a3, a4, a5, a6, a7, a8, a9, a10, a11, a12, a13, a14⟩ := u
  obtain ⟨b1, b2, b3, b4, b5, b6, b7, b8, b9, b10, b11, b12, b13, b14⟩ := v
  simp only [AddrUnit.pinState, AddrUnit.mk.injEq, true_and] at h
  obtain ⟨rfl, rfl, rfl, rfl, rfl, rfl, rfl, rfl, rfl, rfl, rfl⟩ := h
  cases e with
  | pin p b => cases p <;> rfl
  | _ => rfl

theorem pinState_replay (es : List Event) (u v : AddrUnit) (h : u.pinState = v.pinState) :
    (u.replay es).pinState = (v.replay es).pinState := by
  induction es generalizing u v with
  | nil => exact h
  | cons e r ih => exact ih _ _ (pinState_onEvent e u v h)

/-- A list whose members are all values of a function is a list of arguments, mapped. -/
theorem exists_map_of_forall {α β} (f : α → β) (l : List β) (h : ∀ x ∈ l, ∃ a, x = f a) : ∃ k : List α, l = k.map f := by
  induction l with
  | nil => exact ⟨[], rfl⟩
  | cons x r ih =>
    obtain ⟨a, rfl⟩ := h _ (List.mem_cons_self ..)
    obtain ⟨k, rfl⟩ := ih fun y hy => h y (List.mem_cons_of_mem _ hy)
    exact ⟨a :: k, rfl⟩

theorem replay_ext_map (l : List (Fin 3)) (e : Ext) (u : AddrUnit) :
   u.replay (l.map fun i => .pin (.ext i)
     (e.getLsbD i)) = { u with pExt := (l.map Fin.val).foldl (fun y p => setPin y p (e.getLsbD p)) u.pExt } := by
  induction l generalizing u with
  | nil => rfl
  | cons p r ih => exact ih _

/-- The three pin writes of the extended bits, in any order, leave the value on the pins (40_address_bus.md R125). -/
theorem replay_extEvents (e : Ext) (es : List Event) (h : es.Perm (extEvents e)) (u : AddrUnit) : u.replay es = { u with pExt := e } := by
  obtain ⟨k, hk⟩ := exists_map_of_forall (fun i : Fin 3 => Event.pin (.ext i) (e.getLsbD i)) es (by
    intro x hx; have := h.mem_iff.mp hx; simp [extEvents] at this; obtain ⟨i, rfl⟩ := this; exact ⟨i, rfl⟩)
  have hall : ∀ i : Fin 3, i ∈ k := by
    intro i
    have : Event.pin (.ext i) (e.getLsbD i) ∈ es := h.mem_iff.mpr (by simp [extEvents])
    rw [hk] at this; obtain ⟨j, hj, e1⟩ := List.mem_map.mp this; injection e1 with e2 e3; injection e2 with e2; exact e2 ▸ hj
  rw [hk, replay_ext_map]
  congr 1
  apply BitVec.eq_of_getLsbD_eq; intro i hi
  rw [getLsbD_foldl_setPin (fun p => e.getLsbD p) _ _ _ hi, if_pos (by simp; exact ⟨⟨i, hi⟩, hall _, rfl⟩)]

/-- Writing every bit through a bijective map, in any order, is writing it through the map. -/
theorem foldl_setPin_eq_scatter {n : Nat} (m : Vector (Fin n) n) (hm : ∀ i j, m.get i = m.get j → i = j) (v old : BitVec n)
    (k : List (Fin n)) (hk : ∀ i, i ∈ k) :
   k.foldl (fun x i => setPin x (m.get i) (v.getLsbD i)) old = scatter m v old := by
  suffices H : ∀ (l : List (Fin n)) (x : BitVec n) (i : Fin n),
      (l.foldl (fun x k => setPin x (m.get k) (v.getLsbD k)) x).getLsbD (m.get i) =
        if i ∈ l then v.getLsbD i else x.getLsbD (m.get i) by
    apply BitVec.eq_of_getLsbD_eq
    intro i hi
    obtain ⟨j, hj⟩ := pinMap_surjective m hm ⟨i, hi⟩
    have hj' : i = (m.get j).val := by rw [hj]
    rw [hj', getLsbD_scatter m hm, H, if_pos (hk j)]
  intro l
  induction l with
  | nil => simp
  | cons k rest ih =>
    intro x i
    rw [List.foldl_cons, ih, getLsbD_setPin _ _ _ _ (m.get i).isLt]
    by_cases hk : i = k
    · subst hk; simp
    · have : m.get i ≠ m.get k := fun h => hk (hm _ _ h)
      simp [hk, Fin.val_inj, this]

theorem replay_addr_map (l : List (Fin 19)) (m : Vector (Fin 19) 19) (a : Word) (u : AddrUnit) :
    u.replay (l.map fun i => .pin (.addr (m.get i)) (a.getLsbD i)) =
      { u with pAddr := l.foldl (fun x i => setPin x (m.get i) (a.getLsbD i)) u.pAddr } := by
  induction l generalizing u with
  | nil => rfl
  | cons p r ih => exact ih _

/-- The nineteen pin writes of a DIRECT `ASET`, in any order (40_address_bus.md R116). -/
theorem replay_directEvents (m : Vector (Fin 19) 19) (hm : ∀ i j, m.get i = m.get j → i = j) (a : Word) (es : List Event)
    (h : es.Perm (directEvents m a)) (u : AddrUnit) : u.replay es = { u with pAddr := scatter m (onBus a) u.pAddr } := by
  obtain ⟨k, hk⟩ := exists_map_of_forall (fun i : Fin 19 => Event.pin (.addr (m.get i)) (a.getLsbD i)) es (by
    intro x hx; have := h.mem_iff.mp hx; simp [directEvents] at this; obtain ⟨i, rfl⟩ := this; exact ⟨i, rfl⟩)
  have hall : ∀ i : Fin 19, i ∈ k := by
    intro i
    have : Event.pin (.addr (m.get i)) (a.getLsbD i) ∈ es := h.mem_iff.mpr (List.mem_map.mpr ⟨i, List.mem_finRange i, rfl⟩)
    rw [hk] at this; obtain ⟨j, hj, e1⟩ := List.mem_map.mp this; injection e1 with e2 e3; injection e2 with e2; exact hm _ _ e2 ▸ hj
  rw [hk, replay_addr_map]
  congr 1
  rw [← foldl_setPin_eq_scatter m hm (onBus a) u.pAddr k hall]
  congr 1
  funext x i
  simp [onBus]

theorem addressesSeen_append (b : Board) (d) (u : AddrUnit) (xs ys : List Event) :
    addressesSeen b d u (xs ++ ys) = addressesSeen b d u xs ++ addressesSeen b d (u.replay xs) ys := by
  induction xs generalizing u with
  | nil => rfl
  | cons x r ih => simp only [List.cons_append, addressesSeen, ih]; rfl

theorem xa_shift {b : Board} (hb : b.realization = .shift) (d) {u : AddrUnit} (hp : u.pinsOut = true) :
    u.xa b d = u.pExt ++ u.qHi ++ u.qLo := by
  simp [AddrUnit.xa, hb, hp]

/-- No address moves while a byte is shifted (40_address_bus.md R114, R118). -/
theorem addressesSeen_shiftOut (b : Board) (hb : b.realization = .shift) (d) (u : AddrUnit) (hp : u.pinsOut = true)
   (p : BytePlane) (v : Byte) : addressesSeen b d u (shiftOutEvents p v) = List.replicate 32 (u.xa b d) := by
  cases p <;> simp [shiftOutEvents, List.range_succ, addressesSeen, AddrUnit.onEvent, AddrUnit.drive, shiftClock, AddrUnit.xa, hb,
    hp, List.replicate]

theorem replay_shiftOut (u : AddrUnit) (hc : u.ClocksLow) (p : BytePlane) (v : Byte) : u.replay (shiftOutEvents p v) = u.shifted p v := by
  have := shiftIn_eight u.srHi v
  have h2 := shiftIn_eight u.srLo v
  obtain ⟨a1, a2, a3, a4, a5, a6, a7, a8, a9, a10, a11, a12, a13, a14⟩ := u
  obtain ⟨h1, h3, h4⟩ := hc
  simp only at h1 h3 h4
  subst h1 h3 h4
  cases p <;> simp [shiftOutEvents, List.range_succ, AddrUnit.replay, AddrUnit.onEvent, AddrUnit.drive, shiftClock, rises,
    AddrUnit.shifted] at this h2 ⊢
  · exact this
  · exact h2

/-- The latch pulse shows both registers at once (40_address_bus.md R115). -/
theorem addressesSeen_latch (b : Board) (hb : b.realization = .shift) (d) (u : AddrUnit) (hp : u.pinsOut = true) (hc : u.ClocksLow) :
   addressesSeen b d u latchEvents = List.replicate 4 (u.pExt ++ u.srHi ++ u.srLo : BitVec 19) := by
  simp [latchEvents, addressesSeen, AddrUnit.onEvent, AddrUnit.drive, rises, AddrUnit.xa, hb, hp, List.replicate, hc.rclk]

theorem replay_latch (u : AddrUnit) (hc : u.ClocksLow) : u.replay latchEvents = u.latched := by
  obtain ⟨a1, a2, a3, a4, a5, a6, a7, a8, a9, a10, a11, a12, a13, a14⟩ := u
  obtain ⟨h1, h3, h4⟩ := hc
  simp only at h1 h3 h4
  subst h1 h3 h4
  simp [latchEvents, AddrUnit.replay, AddrUnit.onEvent, AddrUnit.drive, rises, AddrUnit.latched]

/-- While the extended bits are written the low sixteen bits stay, and each extended bit is old or new. -/
theorem addressesSeen_ext (b : Board) (hb : b.realization = .shift) (d) (u : AddrUnit) (hp : u.pinsOut = true) (e : Ext)
    (k : List (Fin 3)) :
   ∀ x ∈ addressesSeen b d u (k.map fun i => .pin (.ext i) (e.getLsbD i)), x.extractLsb' 0 16 = (u.xa b d).extractLsb' 0 16 ∧
     ∀ j, 16 ≤ j → j < 19 → x.getLsbD j = (u.xa b d).getLsbD j ∨ x.getLsbD j = e.getLsbD (j - 16) := by
  suffices H : ∀ (v : AddrUnit), v.pinsOut = true → v.qHi = u.qHi → v.qLo = u.qLo → (∀ i,
    i < 3 → v.pExt.getLsbD i = u.pExt.getLsbD i ∨ v.pExt.getLsbD i = e.getLsbD i) →
      ∀ x ∈ addressesSeen b d v (k.map fun i => .pin (.ext i) (e.getLsbD i)), ∃ w : Ext, x = w ++ u.qHi ++ u.qLo ∧ ∀ i,
        i < 3 → w.getLsbD i = u.pExt.getLsbD i ∨ w.getLsbD i = e.getLsbD i by
    intro x hx
    obtain ⟨w, rfl, hw⟩ := H u hp rfl rfl (fun _ _ => .inl rfl) x hx
    rw [xa_shift hb d hp]
    refine ⟨?_, ?_⟩
    · apply BitVec.eq_of_getLsbD_eq; intro i hi
      rw [BitVec.getLsbD_extractLsb', BitVec.getLsbD_extractLsb']
      simp only [BitVec.getLsbD_append]
      rw [Nat.zero_add]
      by_cases h1 : i < 8
      · simp only [h1, if_true]
      · have h2 : i - 8 < 8 := by omega
        simp only [h1, h2, if_true, if_false]
    · intro j h1 h2
      have h3 : ¬ j < 8 := by omega
      have h4 : ¬ j - 8 < 8 := by omega
      have h5 : j - 8 - 8 = j - 16 := by omega
      simp only [BitVec.getLsbD_append, h3, h4, h5, if_false]
      have := hw (j - 16) (by omega)
      simpa using this
  induction k with
  | nil => intro v _ _ _ _ x hx; simp [addressesSeen] at hx
  | cons i r ih =>
    intro v h1 h2 h3 h4 x hx
    have hstep : ∀ j, j < 3 → (v.onEvent (.pin (.ext i)
      (e.getLsbD i))).pExt.getLsbD j = u.pExt.getLsbD j ∨ (v.onEvent (.pin (.ext i) (e.getLsbD i))).pExt.getLsbD j = e.getLsbD j := by
      intro j hj
      show (setPin v.pExt i (e.getLsbD i)).getLsbD j = _ ∨ (setPin v.pExt i (e.getLsbD i)).getLsbD j = _
      rw [getLsbD_setPin _ _ _ _ hj]
      by_cases h : j = i
      · right; rw [if_pos h, h]
      · rw [if_neg h]; exact h4 j hj
    simp only [List.map_cons, addressesSeen, List.mem_cons] at hx
    rcases hx with rfl | hx
    · refine ⟨(v.onEvent (.pin (.ext i) (e.getLsbD i))).pExt, ?_, hstep⟩
      rw [xa_shift hb d (by exact h1)]
      rw [show (v.onEvent (.pin (.ext i) (e.getLsbD i))).qHi = u.qHi from h2, show (v.onEvent (.pin (.ext i)
        (e.getLsbD i))).qLo = u.qLo from h3]
    · exact ih (v.onEvent (.pin (.ext i) (e.getLsbD i))) h1 h2 h3 hstep x hx

/-! The DataBus unit -/

theorem DataUnit.replay_append (undet : Byte) (d : DataUnit) (xs ys : List Event) :
    d.replay undet (xs ++ ys) = (d.replay undet xs).replay undet ys := by
  simp [DataUnit.replay]

/-- The mode a replay ends in does not depend on what the pins drive. -/
theorem DataUnit.replay_mode (undet undet' : Byte) (es : List Event) (d d' : DataUnit) (h : d.mode = d'.mode) :
    (d.replay undet es).mode = (d'.replay undet' es).mode := by
  induction es generalizing d d' with
  | nil => exact h
  | cons e r ih =>
    refine ih _ _ ?_
    cases e with
    | pin p b => cases p <;> exact h
    | dataMode m => cases m <;> rfl
    | _ => exact h

/-- Without a `DMODE OUT` a replay has nothing undetermined. -/
theorem DataUnit.replay_undet (undet undet' : Byte) (es : List Event) (d : DataUnit) (h : .dataMode .output ∉ es) :
    d.replay undet es = d.replay undet' es := by
  induction es generalizing d with
  | nil => rfl
  | cons e r ih =>
    rw [List.mem_cons, not_or] at h
    have he : d.onEvent undet e = d.onEvent undet' e := by
      cases e with
      | pin p b => cases p <;> rfl
      | dataMode m =>
        cases m with
        | output => exact absurd rfl h.1
        | unconf => rfl
        | input => rfl
      | _ => rfl
    exact (ih _ h.2).trans (congrArg (·.replay undet' r) he)

/-- With a `DMODE OUT` a replay does not depend on where it starts. -/
theorem DataUnit.replay_output (undet : Byte) (es : List Event) (d d' : DataUnit) (h : .dataMode .output ∈ es) :
    d.replay undet es = d'.replay undet es := by
  obtain ⟨pre, post, rfl⟩ := List.append_of_mem h
  rw [replay_append, replay_append]
  rfl

theorem DataUnit.replay_bus_map (undet : Byte) (l : List (Fin 8)) (m : Vector (Fin 8) 8) (v : Byte) (d : DataUnit) :
    d.replay undet (l.map fun i => .pin (.bus (m.get i)) (v.getLsbD i)) =
      ⟨d.mode, l.foldl (fun x i => setPin x (m.get i) (v.getLsbD i)) d.dOut⟩ := by
  induction l generalizing d with
  | nil => rfl
  | cons p r ih => exact ih _

/-- The eight pin writes of a `DWRITE`, in any order (41_data_bus.md R142). -/
theorem DataUnit.replay_busEvents (undet : Byte) (m : Vector (Fin 8) 8) (hm : ∀ i j, m.get i = m.get j → i = j) (v : Byte)
    (es : List Event) (h : es.Perm (busEvents m v)) (d : DataUnit) : d.replay undet es = ⟨d.mode, scatter m v d.dOut⟩ := by
  obtain ⟨k, hk⟩ := exists_map_of_forall (fun i : Fin 8 => Event.pin (.bus (m.get i)) (v.getLsbD i)) es (by
    intro x hx; have := h.mem_iff.mp hx; simp [busEvents] at this; obtain ⟨i, rfl⟩ := this; exact ⟨i, rfl⟩)
  have hall : ∀ i : Fin 8, i ∈ k := by
    intro i
    have : Event.pin (.bus (m.get i)) (v.getLsbD i) ∈ es := h.mem_iff.mpr (List.mem_map.mpr ⟨i, List.mem_finRange i, rfl⟩)
    rw [hk] at this; obtain ⟨j, hj, e1⟩ := List.mem_map.mp this; injection e1 with e2 e3; injection e2 with e2; exact hm _ _ e2 ▸ hj
  rw [hk, replay_bus_map, foldl_setPin_eq_scatter m hm v d.dOut k hall]

/-- A byte written to all pins does not depend on what they drove. -/
theorem scatter_total {n : Nat} (m : Vector (Fin n) n) (hm : ∀ i j, m.get i = m.get j → i = j) (v old old' : BitVec n) :
    scatter m v old = scatter m v old' := by
  apply BitVec.eq_of_getLsbD_eq
  intro i hi
  obtain ⟨j, hj⟩ := pinMap_surjective m hm ⟨i, hi⟩
  have hj' : i = (m.get j).val := by rw [hj]
  rw [hj', getLsbD_scatter m hm, getLsbD_scatter m hm]

/-- What a replay from `d` to `d'` gives: some undetermined byte gives `d'`, and once a data pin was written after the last `DMODE
OUT` every such byte does, from whatever the pins drove. -/
def DataUnit.Replays (d : DataUnit) (es : List Event) (d' : DataUnit) : Prop :=
  (∃ undet, d.replay undet es = d') ∧
    ∀ pre post p b, es = pre ++ .pin (.bus p) b :: post → .dataMode .output ∉ post →
      ∀ undet (c : DataUnit), c.mode = d.mode → c.replay undet es = d'

theorem DataUnit.Replays.trans {d d' d'' : DataUnit} {es es' : List Event} (h : d.Replays es d') (h' : d'.Replays es' d'') :
    d.Replays (es ++ es') d'' := by
  obtain ⟨⟨u, hu⟩, hp⟩ := h
  obtain ⟨⟨u', hu'⟩, hp'⟩ := h'
  refine ⟨?_, fun pre post p b he hpost undet c hc => ?_⟩
  · by_cases ho : .dataMode .output ∈ es'
    · exact ⟨u', by rw [replay_append, replay_output _ _ _ d' ho, hu']⟩
    · exact ⟨u, by rw [replay_append, hu, replay_undet u u' _ _ ho, hu']⟩
  · rw [replay_append]
    have hm : (c.replay undet es).mode = d'.mode := by rw [← hu]; exact replay_mode _ _ _ _ _ hc
    rcases List.append_eq_append_iff.mp he with ⟨a, e1, e2⟩ | ⟨a, e1, e2⟩
    · exact hp' a post p b e2 hpost undet _ hm
    · cases a with
      | nil => exact hp' [] post p b e2.symm hpost undet _ hm
      | cons x r =>
        injection e2 with e3 e4
        subst e3 e4
        rw [show r.append es' = r ++ es' from rfl, List.mem_append, not_or] at hpost
        rw [hp pre r p b e1 hpost.1 undet c hc, replay_undet undet u' _ _ hpost.2, hu']

/-- Events that are not of the unit. -/
theorem DataUnit.Replays.quiet (d : DataUnit) (es : List Event) (h : ∀ e ∈ es, ∀ undet (c : DataUnit), c.onEvent undet e = c)
    (hb : ∀ p b, .pin (.bus p) b ∉ es) : d.Replays es d := by
  refine ⟨⟨0#8, ?_⟩, fun pre post p b he => ?_⟩
  · induction es with
    | nil => rfl
    | cons e r ih =>
      show DataUnit.replay _ (d.onEvent _ e) r = d
      rw [h e (List.mem_cons_self ..)]
      exact ih (fun x hx => h x (List.mem_cons_of_mem _ hx)) fun p b hm => hb p b (List.mem_cons_of_mem _ hm)
  · exact absurd (by rw [he]; simp) (hb p b)

end Sys2Proof.Machine
end

