-- ==== Sys2Proof/Laws/Wdata.lean ====
section
/-! SUPPORT. What a whole `WDATA` does, from its start to its end (42_write_engine.md). -/

namespace Sys2Proof.Machine

theorem toNat_pos {b : Word} (hb : b ≠ 0#32) : 0 < b.toNat := by
  rcases Nat.eq_zero_or_pos b.toNat with h | h
  · exact absurd (BitVec.eq_of_toNat_eq (by simpa using h)) hb
  · exact h

theorem mod_eq_zero_iff (a b : Word) : a % b = 0#32 ↔ a.toNat % b.toNat = 0 := by
  rw [← BitVec.toNat_inj, BitVec.toNat_umod]
  simp

/-- The size of the lead-in chunk (42_write_engine.md R162). -/
theorem toNat_leadIn (a l b : Word) (hb : b ≠ 0#32) :
    (minWord (b - a % b) l).toNat = min (b.toNat - a.toNat % b.toNat) l.toNat := by
  have hpos := toNat_pos hb
  have hlt := Nat.mod_lt a.toNat hpos
  have := b.isLt
  rw [toNat_minWord, BitVec.toNat_sub, BitVec.toNat_umod]
  congr 1
  omega

/-- Byte mode hands over the plan of byte mode (42_write_engine.md R161). -/
theorem byteMode_handsOver (a l : Word) (s : State) :
    HandsOver 0 (startWrite a l s) (byteCalls s.port.buf a l) (byteMode (startWrite a l s)) := by
  have h := byteLoop_handsOver l.toNat (startWrite a l s) rfl
  have e : byteCalls s.port.buf a l = (List.range l.toNat).map fun i =>
      .callByte (Memory.read (((startWrite a l s).we.off + BitVec.ofNat 32 i).toNat) (startWrite a l s).port.buf)
        ((startWrite a l s).we.start + ((startWrite a l s).we.off + BitVec.ofNat 32 i)) := by
    refine List.map_congr_left fun i hi => ?_
    have h1 : i < l.toNat := by simpa using hi
    have h2 := l.isLt
    simp only [startWrite, setWe_we, setWe_port, BitVec.zero_add, BitVec.toNat_ofNat]
    rw [Nat.mod_eq_of_lt (by omega)]
  rw [e]
  exact h

/-- Block mode hands over the plan of block mode (42_write_engine.md R162). -/
theorem blockMode_handsOver (a l : Word) (s : State) (hb : s.profile.block ≠ 0#32) :
    HandsOver 1 (startWrite a l s) ((blockPlan s.profile.block.toNat a.toNat l.toNat).map chunkCall)
      (blockMode (startWrite a l s)) := by
  unfold blockMode blockPlan
  by_cases hm : a.toNat % s.profile.block.toNat = 0
  · have h0 : leadIn (startWrite a l s) = .going (startWrite a l s) := by
      unfold leadIn
      exact if_pos ((mod_eq_zero_iff a s.profile.block).mpr hm)
    rw [if_pos hm, h0, going_andThen]
    exact blockLoop_handsOver _ (startWrite a l s) (Nat.le_refl _) hb 0 a.toNat rfl (by simp [startWrite])
  · have h0 : leadIn (startWrite a l s) = chunk (minWord (s.profile.block - a % s.profile.block) l) (startWrite a l s) := by
      unfold leadIn
      exact if_neg fun h => hm ((mod_eq_zero_iff a s.profile.block).mp h)
    have hc := toNat_leadIn a l s.profile.block hb
    rw [if_neg hm, h0, List.map_cons, ← hc]
    generalize minWord (s.profile.block - a % s.profile.block) l = c at hc
    have hcall : chunkCall (0, c.toNat, a.toNat) = .callBlock (startWrite a l s).we.off c (startWrite a l s).callAddress := by
      simp [chunkCall, startWrite, State.callAddress]
    rw [hcall]
    refine HandsOver.andThen (p := [_]) (chunk_handsOver c _) fun t ht => ?_
    have hwe := chunk_we ht
    have hs := chunk_handsOver c (startWrite a l s)
    rw [ht] at hs
    obtain ⟨es, hf, -, -⟩ := hs
    have hle : c.toNat ≤ l.toNat := by omega
    have hrem : t.we.rem.toNat = l.toNat - c.toNat := by
      rw [hwe]
      show (l - c).toNat = _
      rw [BitVec.toNat_sub]
      have := l.isLt
      omega
    have hp : t.profile = s.profile := hf.profile
    rw [← hrem, ← hp]
    refine blockLoop_handsOver _ t (Nat.le_refl _) (by rw [hp]; exact hb) _ _ ?_ ?_
    · rw [hwe]; simp [startWrite]
    · rw [hwe]; simp [startWrite, BitVec.ofNat_add]

/-- Is every call counted (42_write_engine.md R168)? -/
def countedCalls (s : State) : Nat := if s.profile.block = 0#32 then 0 else 1

/-- The loops of a `WDATA` hand over its plan (42_write_engine.md R161, R162, R163). -/
theorem wdataLoops_handsOver (a l : Word) (s : State) :
    HandsOver (countedCalls s) (startWrite a l s) (writePlan s a l) (wdataLoops a l s) := by
  unfold countedCalls writePlan wdataLoops
  by_cases hb : s.profile.block = 0#32
  · rw [if_pos hb, if_pos hb, if_pos hb]
    exact byteMode_handsOver a l s
  · rw [if_neg hb, if_neg hb, if_neg hb]
    exact blockMode_handsOver a l s hb

/-- All that a `WDATA` which ends can have done: the calls it made, their answers, its result, and its frame. -/
theorem execWdata_cases {a l : Word} {s t : State} (h : execWdata a l s = .next t) :
    ∃ v es, EngineFrame (countedCalls s) (startWrite a l s) v es ∧ t = endWrite t.res.ok v ∧ t.trace = s.trace ++ es ∧
      ((callsOf es = writePlan s a l ∧ retsOf es = List.replicate (writePlan s a l).length true ∧ t.res.ok = true) ∨
        ∃ k, k < (writePlan s a l).length ∧ callsOf es = (writePlan s a l).take (k + 1) ∧
          retsOf es = List.replicate k true ++ [false] ∧ t.res.ok = false) := by
  have hh := wdataLoops_handsOver a l s
  obtain ⟨-, ⟨v, e, rfl⟩ | ⟨v, e, rfl⟩⟩ := execWdata_next h <;> rw [e] at hh
  · obtain ⟨es, hf, hc, hr⟩ := hh
    exact ⟨v, es, hf, rfl, hf.trace, .inl ⟨hc, hr, rfl⟩⟩
  · obtain ⟨es, k, hk, hf, hc, hr⟩ := hh
    exact ⟨v, es, hf, rfl, hf.trace, .inr ⟨k, hk, hc, hr, rfl⟩⟩

/-! ### Nothing happens after the failing call (42_write_engine.md R163) -/

/-- A run that has failed showed the failing primitive's bit last. -/
def Run.FailsLast : Run → Prop
  | .failed t => t.trace.getLast? = some (.ret false)
  | .going _ => True
  | .stopped _ _ => True

theorem Run.FailsLast.andThen {r : Run} {f : State → Run} (h : r.FailsLast) (hf : ∀ t, (f t).FailsLast) :
    (r.andThen f).FailsLast := by
  cases r with
  | going t => exact hf t
  | failed t => exact h
  | stopped why t => trivial

theorem asetRun_failsLast (a : Word) (s : State) : (asetRun a s).FailsLast := by
  rcases asetRun_cases a s with ⟨-, e⟩ | ⟨-, -, e⟩ | ⟨-, -, e⟩ <;> rw [e] <;> trivial

theorem callPrimitive_failsLast (c : Event) (s : State) : (callPrimitive c s).FailsLast := by
  rcases callPrimitive_cases c s with ⟨t, e, -⟩ | ⟨t, e, h⟩ | ⟨r, t, e, -⟩ <;> rw [e]
  · trivial
  · obtain ⟨es, ht, -⟩ := h.trace
    show t.trace.getLast? = _
    rw [ht, ← List.append_assoc, List.getLast?_append]
    rfl
  · trivial

theorem chunk_failsLast (c : Word) (s : State) : (chunk c s).FailsLast :=
  Run.FailsLast.andThen (Run.FailsLast.andThen (asetRun_failsLast _ _) fun _ => callPrimitive_failsLast _ _) fun _ => trivial

theorem byteLoop_failsLast (n : Nat) (s : State) : (byteLoop n s).FailsLast := by
  induction n generalizing s with
  | zero => trivial
  | succ n ih =>
    rw [byteLoop]
    split
    · trivial
    · exact Run.FailsLast.andThen (Run.FailsLast.andThen
        (Run.FailsLast.andThen (asetRun_failsLast _ _) fun _ => callPrimitive_failsLast _ _) fun _ => trivial) ih

theorem blockLoop_failsLast (n : Nat) (s : State) : (blockLoop n s).FailsLast := by
  induction n generalizing s with
  | zero => trivial
  | succ n ih =>
    rw [blockLoop]
    split
    · trivial
    · exact Run.FailsLast.andThen (chunk_failsLast _ _) ih

theorem wdataLoops_failsLast (a l : Word) (s : State) : (wdataLoops a l s).FailsLast := by
  unfold wdataLoops byteMode blockMode leadIn
  split
  · exact byteLoop_failsLast _ _
  · refine Run.FailsLast.andThen ?_ fun t => blockLoop_failsLast _ _
    dsimp only
    split
    · trivial
    · exact chunk_failsLast _ _

/-- A `WDATA` that reports failure showed the failing primitive's bit last. -/
theorem execWdata_failed {a l : Word} {s t : State} (h : execWdata a l s = .next t) (hf : t.res.ok = false) :
    t.trace.getLast? = some (.ret false) := by
  have hl := wdataLoops_failsLast a l s
  obtain ⟨-, ⟨v, e, rfl⟩ | ⟨v, e, rfl⟩⟩ := execWdata_next h <;> rw [e] at hl
  · cases hf
  · exact hl

end Sys2Proof.Machine
end

