-- ==== Sys2Proof/Laws/Plan.lean ====
section
/-! SUPPORT. The arithmetic of block mode's plan: what each chunk is and how many there are (42_write_engine.md R169 to R173). -/

namespace Sys2Proof.Machine

theorem mul_add_div_of_lt (b q r : Nat) (h : r < b) : (b * q + r) / b = q := by
  rw [Nat.mul_add_div (by omega), Nat.div_eq_of_lt h, Nat.add_zero]

/-- Every chunk of the plan: its address, its bounds, its block (42_write_engine.md R169, R170). -/
theorem mem_blockPlan (b s l : Nat) (hb : 0 < b) (c : Nat × Nat × Nat) (h : c ∈ blockPlan b s l) :
   c.2.2 = s + c.1 ∧ c.1 + c.2.1 ≤ l ∧ c.2.1 ≤ b ∧ (c.1 = 0 ∨ c.2.2 % b = 0) ∧ (c.2.1 ≠ 0 → c.2.2 / b =
     (c.2.2 + c.2.1 - 1) / b) ∧ (c.2.1 = b ∨ c.1 = 0 ∨ c.1 + c.2.1 = l) ∧ (c.2.1 ≠ 0 ∨ c.1 = 0) := by
  have hrun : ∀ off a n, a % b = 0 → ∀ c ∈ blockRun b off a n,
    c.1 ≥ off ∧ c.2.2 + off = a + c.1 ∧ c.1 + c.2.1 ≤ off + n ∧ c.2.1 ≤ b ∧ c.2.2 % b = 0 ∧ (c.2.1 = b ∨ c.1 + c.2.1 =
      off + n) ∧ c.2.1 ≠ 0 := by
    intro off a n ha c hc
    have hdm := Nat.div_add_mod n b
    have hlt := Nat.mod_lt n hb
    rw [Nat.mul_comm] at hdm
    unfold blockRun at hc
    rw [List.mem_append] at hc
    rcases hc with hc | hc
    · obtain ⟨j, hj, rfl⟩ := List.mem_map.mp hc
      have hj' : j + 1 ≤ n / b := by simpa using hj
      have := Nat.mul_le_mul_right b hj'
      rw [Nat.add_mul, Nat.one_mul] at this
      dsimp only
      refine ⟨by omega, by omega, by omega, by omega, ?_, by omega, by omega⟩
      rw [Nat.add_mul_mod_self_right]; exact ha
    · split at hc
      · cases hc
      · simp only [List.mem_singleton] at hc
        subst hc
        dsimp only
        refine ⟨by omega, by omega, by omega, by omega, ?_, by omega, by omega⟩
        rw [Nat.add_mul_mod_self_right]; exact ha
  have hdiv : ∀ x n, n ≠ 0 → x % b + n ≤ b → x / b = (x + n - 1) / b := by
    intro x n hn hx
    have h1 := Nat.div_add_mod x b
    have h2 : (x + n - 1) / b = (b * (x / b) + (x % b + n - 1)) / b := by congr 1; omega
    rw [h2, mul_add_div_of_lt _ _ _ (by omega)]
  unfold blockPlan at h
  split at h
  · rename_i h0
    obtain ⟨h1, h2, h3, h4, h5, h6, h7⟩ := hrun 0 s l h0 c h
    refine ⟨by omega, by omega, h4, .inr h5, fun hn => hdiv _ _ hn (by omega), by omega, .inl h7⟩
  · rename_i h0
    have hlt := Nat.mod_lt s hb
    rcases List.mem_cons.mp h with rfl | h
    · dsimp only
      refine ⟨by omega, by omega, by omega, .inl rfl, fun hn => hdiv _ _ hn (by omega), .inr (.inl rfl), .inr rfl⟩
    · by_cases hl : l ≤ b - s % b
      · rw [Nat.min_eq_right hl, Nat.sub_self, blockRun_zero] at h; cases h
      · rw [Nat.min_eq_left (by omega)] at h
        have hal : (s + (b - s % b)) % b = 0 := by
          have h1 := Nat.div_add_mod s b
          have : s + (b - s % b) = b * (s / b + 1) := by rw [Nat.mul_add]; omega
          rw [this, Nat.mul_mod_right]
        obtain ⟨h1, h2, h3, h4, h5, h6, h7⟩ := hrun _ _ _ hal c h
        refine ⟨by omega, by omega, h4, .inr h5, fun hn => hdiv _ _ hn (by omega), by omega, .inl h7⟩

theorem length_blockRun (b off a n : Nat) (hb : 0 < b) : (blockRun b off a n).length = (n + b - 1) / b := by
  unfold blockRun
  have hd := Nat.div_add_mod n b
  have hlt := Nat.mod_lt n hb
  split
  · rename_i h
    simp
    have : n + b - 1 = b * (n / b) + (b - 1) := by omega
    rw [this, mul_add_div_of_lt _ _ _ (by omega)]
  · rename_i h
    simp
    have : n + b - 1 = b * (n / b + 1) + (n % b - 1) := by rw [Nat.mul_add]; omega
    rw [this, Nat.mul_add_div hb, Nat.div_eq_of_lt (show n % b - 1 < b by omega), Nat.add_zero]

/-- How many chunks the plan has (42_write_engine.md R171, R177). -/
theorem length_blockPlan (b s l : Nat) (hb : 0 < b) :
    (blockPlan b s l).length ≤ (l + b - 1) / b + 1 ∧ (0 < l → (blockPlan b s l).length = (s + l - 1) / b - s / b + 1) := by
  have hd := Nat.div_add_mod s b
  have hlt := Nat.mod_lt s hb
  unfold blockPlan
  split
  · rename_i h
    rw [length_blockRun _ _ _ _ hb]
    refine ⟨by omega, fun hl => ?_⟩
    have : s + l - 1 = b * (s / b) + (l - 1) := by omega
    rw [this, Nat.mul_add_div hb]
    have : l + b - 1 = (l - 1) + b := by omega
    rw [this, Nat.add_div_right _ hb]; generalize (l-1)/b = z; generalize s / b = w; omega
  · rename_i h
    rw [List.length_cons, length_blockRun _ _ _ _ hb]
    refine ⟨?_, fun hl => ?_⟩
    · have : (l - min (b - s % b) l + b - 1) / b ≤ (l + b - 1) / b := Nat.div_le_div_right (by omega)
      omega
    · by_cases h1 : l ≤ b - s % b
      · rw [Nat.min_eq_right h1, Nat.sub_self]
        have : s + l - 1 = b * (s / b) + (s % b + l - 1) := by omega
        rw [this, Nat.mul_add_div hb, Nat.div_eq_of_lt (show s % b + l - 1 < b by omega), Nat.div_eq_of_lt (by omega)]; omega
      · rw [Nat.min_eq_left (by omega)]
        have : s + l - 1 = b * (s / b) + (s % b + l - 1) := by omega
        rw [this, Nat.mul_add_div hb]
        congr 1
        rw [Nat.add_sub_cancel_left]
        congr 1; omega

end Sys2Proof.Machine
end

