-- ==== Sys2Proof/Laws/Progress.lean ====
section
/-! SUPPORT. Where a `WDATA` gets to: with answers the core can execute it goes through its plan up to the first answer 0 or the first
address off the bus (42_write_engine.md R163, R165, R172). -/

namespace Sys2Proof.Machine

/-- From `s` to `t` exactly these calls were made, all answered 1. -/
def Made (s t : State) (calls : List Event) : Prop :=
  ∃ es, t.trace = s.trace ++ es ∧ callsOf es = calls ∧ retsOf es = List.replicate calls.length true

theorem Made.refl (s : State) : Made s s [] := ⟨[], by simp, rfl, rfl⟩

theorem Made.trans {s t v : State} {p p' : List Event} (h : Made s t p) (h' : Made t v p') : Made s v (p ++ p') := by
  obtain ⟨es, ht, hc, hr⟩ := h
  obtain ⟨es', ht', hc', hr'⟩ := h'
  exact ⟨es ++ es', by rw [ht', ht, List.append_assoc], by rw [callsOf_append, hc, hc'], by
    rw [retsOf_append, hr, hr', List.length_append, List.replicate_add]⟩

/-- From `s`, a run `r` over a plan, for every number `k` of calls whose addresses are on the bus and whose scripted answers are
defined: if one of them answers 0 the run has failed; if all answer 1 and that was the plan, it goes on with the rest of the
script; if all answer 1 and the next address is off the bus, it stops there, those calls made and no other. -/
def Follows (s : State) (plan : List Event) (r : Run) : Prop :=
  ∀ (k : Nat) (xs rest : List Answer), k ≤ plan.length → s.oracle = xs ++ rest → xs.length = k → s.addr.aBegun = true →
    (∀ c ∈ plan.take k, (callAddressOf c).toNat < 2 ^ 19) → scriptDefined s.data.mode xs = true →
    (xs.all Answer.ok = true → (k = plan.length → ∃ t, r = .going t ∧ Made s t plan ∧ t.addr.aBegun = true ∧
        t.oracle = rest ∧ ∀ ys, scriptDefined s.data.mode (xs ++ ys) = scriptDefined t.data.mode ys) ∧
      (∀ c, plan[k]? = some c → 2 ^ 19 ≤ (callAddressOf c).toNat →
        ∃ t, r = .stopped .addressTooWide t ∧ Made s t (plan.take k))) ∧
    (xs.all Answer.ok = false → ∃ t, r = .failed t)

theorem follows_nil (s : State) : Follows s [] (.going s) := by
  intro k xs rest hk ho hl hb hc hd
  have : xs = [] := by have : k = 0 := by simpa using hk
                       subst this; exact List.eq_nil_of_length_eq_zero hl
  subst this
  refine ⟨fun _ => ⟨fun _ => ⟨s, rfl, .refl s, hb, ho, fun ys => rfl⟩, by simp⟩, by simp⟩

theorem follows_andThen {s : State} {p p' : List Event} {r : Run} {f : State → Run} (h : Follows s p r)
   (h' : ∀ t, r = .going t → Follows t p' (f t)) : Follows s (p ++ p') (r.andThen f) := by
  intro k xs rest hk ho hl hb hc hd
  rcases Nat.lt_or_ge k p.length with hkp | hkp
  · have h1 := h k xs rest (by omega) ho hl hb (by rwa [List.take_append_of_le_length (by omega)] at hc) hd
    refine ⟨fun hok => ⟨fun e => ?_, fun c hcc hw => ?_⟩, fun hok => ?_⟩
    · rw [List.length_append] at e; omega
    · rw [List.getElem?_append_left hkp] at hcc
      obtain ⟨t, e, hm⟩ := (h1.1 hok).2 c hcc hw
      exact ⟨t, by rw [e]; rfl, by rwa [List.take_append_of_le_length (by omega)]⟩
    · obtain ⟨t, e⟩ := h1.2 hok; exact ⟨t, by rw [e]; rfl⟩
  · -- split xs
    obtain ⟨x1, x2, rfl, hx1⟩ : ∃ x1 x2, xs = x1 ++ x2 ∧ x1.length = p.length := ⟨xs.take p.length, xs.drop p.length,
      (List.take_append_drop _ _).symm, by rw [List.length_take]; omega⟩
    have hd1 : ∀ (m : DMode) (a b : List Answer), scriptDefined m (a ++ b) = true → scriptDefined m a = true := by
      intro m a; induction a generalizing m with
      | nil => intros; rfl
      | cons x r ih =>
        intro b hb
        simp only [List.cons_append, scriptDefined] at hb ⊢
        split at hb
        · cases hb
        · rename_i m' hm
          simp only [Bool.or_eq_true] at hb ⊢
          exact hb.imp id (ih m' b)
    have h1 := h p.length x1 (x2 ++ rest) (Nat.le_refl _) (by rw [ho, List.append_assoc]) hx1 hb (by
      intro c hcm; apply hc c; rw [List.take_append]; rw [List.mem_append]; left
      rw [List.take_length] at hcm; rwa [List.take_of_length_le hkp]) (hd1 _ _ _ hd)
    cases hok1 : x1.all Answer.ok
    · obtain ⟨t, e⟩ := h1.2 hok1
      refine ⟨fun hok => ?_, fun _ => ⟨t, by rw [e]; rfl⟩⟩
      rw [List.all_append, hok1] at hok; cases hok
    · obtain ⟨t, e, htm, htb, hto, htd⟩ := (h1.1 hok1).1 rfl
      rw [e, going_andThen]
      have h2 := h' t e (k - p.length) x2 rest (by rw [List.length_append] at hk; omega) hto (by rw [List.length_append] at hl; omega) htb (by
        intro c hcm; apply hc c; rw [List.take_append, List.mem_append]; right; exact hcm) (by rw [← htd]; exact hd)
      rw [List.all_append, hok1, Bool.true_and]
      refine ⟨fun hok => ⟨fun e' => ?_, fun c hcc hw => ?_⟩, h2.2⟩
      · obtain ⟨v, e2, hvm, hvb, hvo, hvd⟩ := (h2.1 hok).1 (by rw [List.length_append] at e'; omega)
        exact ⟨v, e2, htm.trans hvm, hvb, hvo, fun ys => by rw [List.append_assoc, htd, hvd]⟩
      · rw [List.getElem?_append_right hkp] at hcc
        obtain ⟨v, e2, hvm⟩ := (h2.1 hok).2 c hcc hw
        refine ⟨v, e2, ?_⟩
        rw [List.take_append, List.take_of_length_le hkp]
        exact htm.trans hvm

/-- An act the spec defines goes on, and leaves the mode that `actModeAfter` says. -/
theorem actRun_defined (x : PrimAct) (s : State) (hb : s.addr.aBegun = true) (m' : DMode) (h : actModeAfter s.data.mode x = some m') :
   ∃ t, actRun x s = .going t ∧ t.data.mode = m' := by
  cases x with
  | bus c =>
    cases c with
    | aset a =>
      simp only [actModeAfter] at h
      split at h
      · rename_i ha; cases h
        obtain ⟨u, n, es, ho, -, -⟩ := onlyAddr_present a (s.issue (.aset a))
        exact ⟨_, asetRun_legal (s := s.issue (.aset a)) hb ha, by rw [ho]; rfl⟩
      · cases h
    | dmode d => simp only [actModeAfter, Option.some.injEq] at h; subst h; cases d <;> exact ⟨_, rfl, rfl⟩
    | dread =>
      simp only [actModeAfter] at h
      split at h
      · rename_i hm; cases h; exact ⟨_, dreadRun_input (s := s.issue .dread) hm, rfl⟩
      · cases h
    | dwrite v =>
      simp only [actModeAfter] at h
      split at h
      · rename_i hm; cases h; exact ⟨_, dwriteRun_output (s := s.issue (.dwrite v)) v hm, hm.symm⟩
      · cases h
  | debug r v => cases h; exact ⟨_, rfl, rfl⟩

theorem actsRun_defined (xs : List PrimAct) (s : State) (hb : s.addr.aBegun = true) (m' : DMode)
    (h : actsModeAfter s.data.mode xs = some m') :
   ∃ t, actsRun xs s = .going t ∧ t.data.mode = m' := by
  induction xs generalizing s with
  | nil => cases h; exact ⟨s, rfl, rfl⟩
  | cons x r ih =>
    simp only [actsModeAfter] at h
    split at h
    · cases h
    · rename_i m1 hm
      obtain ⟨t, e, ht⟩ := actRun_defined x s hb m1 hm
      have htb : t.addr.aBegun = true := by
        rcases actRun_cases x s with ⟨t', es, e', hf⟩ | ⟨r, t', e', -⟩
        · rw [e] at e'; cases e'; rw [hf.begun]; exact hb
        · rw [e] at e'; cases e'
      rw [← ht] at h
      obtain ⟨v, e2, hv⟩ := ih t htb h
      exact ⟨v, by rw [actsRun, e]; exact e2, hv⟩

/-- One call with its `ASET` before it. -/
theorem follows_step (q : Nat) (count : State → State) (call : Event) (n : Word) (s : State) (hc : call.isCall = true)
    (hca : callAddressOf call = s.callAddress)
    (hq : ∀ t, count t = t.setDbg ⟨t.dbg.blkcnt + BitVec.ofNat 32 q, t.dbg.lastAddr, t.dbg.lastExp, t.dbg.lastRb, t.dbg.dup,
      t.dbg.extra, t.dbg.sync⟩) :
    Follows s [call]
      (((asetRun s.callAddress s).andThen fun t => callPrimitive call (count t)).andThen fun t => .going (t.advance n)) := by
  have hcount : ∀ t, ∃ d, count t = t.setDbg d := fun t => ⟨_, hq t⟩
  have hh := handsOver_step q count call n s hc hq
  intro k xs rest hk ho hl hb hcl hd
  rcases k with _ | k
  · have : xs = [] := List.eq_nil_of_length_eq_zero hl
    subst this
    refine ⟨fun _ => ⟨by simp, fun c hcc hw => ?_⟩, by simp⟩
    simp at hcc; subst hcc
    rw [hca] at hw
    rcases asetRun_cases s.callAddress s with ⟨h, -⟩ | ⟨-, -, e⟩ | ⟨-, h, -⟩
    · rw [hb] at h; cases h
    · exact ⟨s, by rw [e]; rfl, .refl s⟩
    · omega
  · have hk0 : k = 0 := by simpa using hk
    subst hk0
    obtain ⟨x, rfl⟩ := List.length_eq_one_iff.mp hl
    have hleg : s.callAddress.toNat < 2^19 := by rw [← hca]; exact hcl call (by simp)
    rw [asetRun_legal hb hleg, going_andThen] at hh ⊢
    obtain ⟨u, nn, es, hoa, hbb, -⟩ := onlyAddr_present s.callAddress s
    obtain ⟨d, hcd⟩ := hcount (present s.callAddress s)
    rw [hcd] at hh ⊢
    generalize hv : (present s.callAddress s).setDbg d = v at hh ⊢
    have hvo : v.oracle = x :: rest := by rw [← hv, setDbg_oracle, hoa]; exact ho
    have hvb : v.addr.aBegun = true := by rw [← hv, setDbg_addr, hoa]; exact hbb.trans hb
    have hvm : v.data.mode = s.data.mode := by rw [← hv, setDbg_data, hoa]
    have hna : v.nextAnswer = x := by unfold State.nextAnswer; rw [hvo]
    simp only [scriptDefined] at hd
    split at hd
    · cases hd
    · rename_i m' hm
      obtain ⟨w, ew, hw⟩ := actsRun_defined x.acts (v.callOut call) hvb m' (by rw [← hm]; exact congrArg (actsModeAfter · x.acts) hvm)
      have hwf : w.addr.aBegun = true ∧ w.oracle = rest := by
        rcases actsRun_cases x.acts (v.callOut call) with ⟨t', es, e', hf⟩ | ⟨r, _, _, e', _⟩
        · rw [ew] at e'; cases e'; exact ⟨by rw [hf.begun]; exact hvb, by rw [hf.oracle]; show v.oracle.tail = _; rw [hvo]; rfl⟩
        · rw [ew] at e'; cases e'
      have hcall : callPrimitive call v = returnBit x.ok w := by unfold callPrimitive; rw [hna, ew]; rfl
      rw [hcall] at hh ⊢
      cases hok : x.ok
      · refine ⟨fun h => by simp [hok] at h, fun _ => ⟨_, rfl⟩⟩
      · refine ⟨fun _ => ⟨fun _ => ⟨_, rfl, ?_, hwf.1, hwf.2, fun ys => ?_⟩, by simp⟩, fun h => by simp [hok] at h⟩
        · rw [hok] at hh
          obtain ⟨es, hf, hcs, hrs⟩ := hh
          exact ⟨es, hf.trace, hcs, hrs⟩
        show scriptDefined s.data.mode (x :: ys) = scriptDefined w.data.mode ys
        simp only [scriptDefined, hm, hok, hw]; rfl

theorem follows_byteLoop (n : Nat) (s : State) (hn : s.we.rem.toNat = n) :
    Follows s
      ((List.range n).map fun i => .callByte (Memory.read ((s.we.off + BitVec.ofNat 32 i).toNat) s.port.buf)
        (s.we.start + (s.we.off + BitVec.ofNat 32 i)))
      (byteLoop n s) := by
  induction n generalizing s with
  | zero => exact follows_nil s
  | succ n ih =>
    have hne : s.we.rem ≠ 0#32 := by
      intro h; rw [h] at hn; simp at hn
    rw [byteLoop, if_neg hne, List.range_succ_eq_map, List.map_cons, List.map_map]
    have h1 : byteCall s = .callByte (Memory.read ((s.we.off + BitVec.ofNat 32 0).toNat) s.port.buf)
        (s.we.start + (s.we.off + BitVec.ofNat 32 0)) := by
      simp [byteCall, State.callAddress]
    rw [← h1]
    refine follows_andThen (p := [byteCall s]) (follows_step 0 id (byteCall s) 1#32 s rfl rfl fun t => by simp [State.setDbg]) ?_
    intro t ht
    have hwe := byteStep_we ht
    have hs := byteStep_handsOver s
    have ht' : byteStep s = .going t := ht
    rw [ht'] at hs
    obtain ⟨es, hf, -, -⟩ := hs
    have hrem : t.we.rem.toNat = n := by
      rw [hwe]
      simp only [BitVec.toNat_sub, BitVec.toNat_ofNat]
      have := s.we.rem.isLt
      omega
    have := ih t hrem
    convert this using 2
    funext i
    have hoff : s.we.off + BitVec.ofNat 32 (i + 1) = t.we.off + BitVec.ofNat 32 i := by
      rw [hwe, Nat.add_comm, BitVec.ofNat_add, BitVec.add_assoc]
    simp only [Function.comp_apply, Nat.succ_eq_add_one, hoff, hf.buf, hf.start]

theorem follows_chunk (c : Word) (s : State) : Follows s [.callBlock s.we.off c s.callAddress] (chunk c s) :=
  follows_step 1 State.countBlock (.callBlock s.we.off c s.callAddress) c s rfl rfl fun _ => rfl

theorem follows_blockLoop (fuel : Nat) (s : State) (hfuel : s.we.rem.toNat ≤ fuel) (hb : s.profile.block ≠ 0#32)
    (off a : Nat) (hoff : s.we.off = BitVec.ofNat 32 off) (ha : s.we.start + s.we.off = BitVec.ofNat 32 a) :
    Follows s ((blockRun s.profile.block.toNat off a s.we.rem.toNat).map chunkCall) (blockLoop fuel s) := by
  have hbpos := toNat_pos hb
  induction fuel generalizing s off a with
  | zero =>
    have : s.we.rem.toNat = 0 := by omega
    rw [this, blockRun_zero]
    exact follows_nil s
  | succ fuel ih =>
    by_cases hz : s.we.rem = 0#32
    · rw [blockLoop, if_pos hz, hz]
      simp only [BitVec.toNat_ofNat, Nat.zero_mod, blockRun_zero]
      exact follows_nil s
    · have hpos := toNat_pos hz
      have hmin := toNat_minWord s.profile.block s.we.rem
      have hc : chunkCall (off, min s.profile.block.toNat s.we.rem.toNat, a) =
          .callBlock s.we.off (minWord s.profile.block s.we.rem) s.callAddress := by
        simp only [chunkCall, ← hmin, BitVec.ofNat_toNat, BitVec.setWidth_eq, ← hoff, ← ha, State.callAddress]
      rw [blockLoop, if_neg hz, blockRun_step hbpos hpos, List.map_cons, hc]
      refine follows_andThen (p := [_]) (follows_chunk _ s) ?_
      intro t ht
      have hwe := chunk_we ht
      have hs := chunk_handsOver (minWord s.profile.block s.we.rem) s
      rw [ht] at hs
      obtain ⟨es, hf, -, -⟩ := hs
      have hrem : t.we.rem.toNat = s.we.rem.toNat - min s.profile.block.toNat s.we.rem.toNat := by
        rw [hwe]
        simp only [BitVec.toNat_sub, hmin]
        have := s.we.rem.isLt
        omega
      rw [← hrem, ← hf.profile]
      refine ih t ?_ ?_ _ _ ?_ ?_ ?_
      · omega
      · rw [hf.profile]; exact hb
      · rw [hwe, hf.profile]
        simp only [hoff, BitVec.ofNat_add, ← hmin, BitVec.ofNat_toNat, BitVec.setWidth_eq]
      · rw [hwe, hf.profile]
        simp only [BitVec.ofNat_add, ← hmin, BitVec.ofNat_toNat, BitVec.setWidth_eq, ← ha, BitVec.add_assoc]
      · rw [hf.profile]; exact hbpos

/-- The loops of a `WDATA` follow its plan. -/
theorem follows_wdataLoops (a l : Word) (s : State) : Follows (startWrite a l s) (writePlan s a l) (wdataLoops a l s) := by
  unfold writePlan wdataLoops
  by_cases h0 : s.profile.block = 0#32
  · rw [if_pos h0, if_pos h0]
    have h := follows_byteLoop l.toNat (startWrite a l s) rfl
    have e : byteCalls s.port.buf a l = (List.range l.toNat).map fun i =>
        .callByte (Memory.read (((startWrite a l s).we.off + BitVec.ofNat 32 i).toNat) (startWrite a l s).port.buf)
          ((startWrite a l s).we.start + ((startWrite a l s).we.off + BitVec.ofNat 32 i)) := by
      refine List.map_congr_left fun i hi => ?_
      have h1 : i < l.toNat := by simpa using hi
      have h2 := l.isLt
      simp only [startWrite, setWe_we, setWe_port, BitVec.zero_add, BitVec.toNat_ofNat]
      rw [Nat.mod_eq_of_lt (by omega)]
    rw [e]
    exact h
  · rw [if_neg h0, if_neg h0]
    unfold blockMode blockPlan
    by_cases hm : a.toNat % s.profile.block.toNat = 0
    · have h0' : leadIn (startWrite a l s) = .going (startWrite a l s) := by
        unfold leadIn
        exact if_pos ((mod_eq_zero_iff a s.profile.block).mpr hm)
      rw [if_pos hm, h0', going_andThen]
      exact follows_blockLoop _ (startWrite a l s) (Nat.le_refl _) h0 0 a.toNat rfl (by simp [startWrite])
    · have h0' : leadIn (startWrite a l s) = chunk (minWord (s.profile.block - a % s.profile.block) l) (startWrite a l s) := by
        unfold leadIn
        exact if_neg fun h => hm ((mod_eq_zero_iff a s.profile.block).mp h)
      have hc := toNat_leadIn a l s.profile.block h0
      rw [if_neg hm, h0', List.map_cons, ← hc]
      generalize minWord (s.profile.block - a % s.profile.block) l = c at hc
      have hcall : chunkCall (0, c.toNat, a.toNat) = .callBlock (startWrite a l s).we.off c (startWrite a l s).callAddress := by
        simp [chunkCall, startWrite, State.callAddress]
      rw [hcall]
      refine follows_andThen (p := [_]) (follows_chunk c _) fun t ht => ?_
      have hwe := chunk_we ht
      have hs := chunk_handsOver c (startWrite a l s)
      rw [ht] at hs
      obtain ⟨es, hf, -, -⟩ := hs
      have hrem : t.we.rem.toNat = l.toNat - c.toNat := by
        rw [hwe]
        show (l - c).toNat = _
        rw [BitVec.toNat_sub]
        have := l.isLt
        omega
      have hp : t.profile = s.profile := hf.profile
      rw [← hrem, ← hp]
      refine follows_blockLoop _ t (Nat.le_refl _) (by rw [hp]; exact h0) _ _ ?_ ?_
      · rw [hwe]; simp [startWrite]
      · rw [hwe]; simp [startWrite, BitVec.ofNat_add]

end Sys2Proof.Machine
end

