-- ==== Sys2Proof/Laws/Script.lean ====
section
/-! SUPPORT. What a `WDATA` keeps when the scripted answers of its primitives have a property: said once, for the calls it makes. -/

namespace Sys2Proof.Machine

/-- A relation from a state to a later one that every piece of a `WDATA` keeps, a call under the premise that its scripted answer
has the property `P`. -/
structure KeptScripted (P : Answer → Prop) (Q : State → State → Prop) : Prop where
  refl : ∀ s, Q s s
  trans : ∀ s t v, Q s t → Q t v → Q s v
  present : ∀ a s, Q s (present a s)
  count : ∀ s, Q s s.countBlock
  we : ∀ w s, Q s (s.setWe w)
  call : ∀ c s x rest, s.oracle = x :: rest → P x → Q s (callPrimitive c s).state

/-- From `s` to `t` some calls were made, one answer of the script used for each; if those answers were scripted and have the property,
the relation holds. -/
def ScriptStep (P : Answer → Prop) (Q : State → State → Prop) (s t : State) : Prop :=
  ∃ n es, t.oracle = s.oracle.drop n ∧ t.trace = s.trace ++ es ∧ (callsOf es).length = n ∧
    (n ≤ s.oracle.length → (∀ x ∈ s.oracle.take n, P x) → Q s t)

variable {P : Answer → Prop} {Q : State → State → Prop}

theorem scriptStep_quiet {s t : State} {es : List Event} (ho : t.oracle = s.oracle) (ht : t.trace = s.trace ++ es) (hc : callsOf es = [])
    (h : Q s t) : ScriptStep P Q s t := ⟨0, es, ho, ht, by rw [hc]; rfl, fun _ _ => h⟩

theorem KeptScripted.call_step (k : KeptScripted P Q) (c : Event) (s : State) (hc : c.isCall = true) :
    ScriptStep P Q s (callPrimitive c s).state := by
  have key : ∀ t es, (callPrimitive c s).state = t → t.oracle = s.oracle.tail → t.trace = s.trace ++ es → callsOf es = [c] →
      ScriptStep P Q s t := by
    intro t es e ho ht hcalls
    refine ⟨1, es, by rw [ho, List.drop_one], ht, by rw [hcalls]; rfl, fun hn hp => ?_⟩
    rcases hs : s.oracle with _ | ⟨x, rest⟩
    · rw [hs] at hn
      simp at hn
    · rw [← e]
      exact k.call c s x rest hs (hp x (by rw [hs]; exact List.mem_cons_self ..))
  rcases callPrimitive_cases c s with ⟨t, e, h⟩ | ⟨t, e, h⟩ | ⟨r, t, e, ho, es, ht, hcalls⟩
  · obtain ⟨es, ht, hcalls, -⟩ := h.trace
    rw [e] at key ⊢
    exact key t _ rfl h.oracle ht (callsOf_call hc hcalls true)
  · obtain ⟨es, ht, hcalls, -⟩ := h.trace
    rw [e] at key ⊢
    exact key t _ rfl h.oracle ht (callsOf_call hc hcalls false)
  · rw [e] at key ⊢
    refine key t _ rfl ho ht ?_
    rw [callsOf, List.filter_cons_of_pos hc, ← callsOf, hcalls]

theorem KeptScripted.toCalls (k : KeptScripted P Q) : KeptCalls (ScriptStep P Q) where
  refl s := scriptStep_quiet (es := []) rfl (by simp) rfl (k.refl s)
  trans := by
    rintro s t v ⟨n, es, ho, ht, hc, h⟩ ⟨m, es', ho', ht', hc', h'⟩
    refine ⟨n + m, es ++ es', by rw [ho', ho, List.drop_drop], by rw [ht', ht, List.append_assoc],
      by rw [callsOf_append, List.length_append, hc, hc'], fun hn hp => ?_⟩
    rw [List.take_add] at hp
    refine k.trans _ _ _ (h (by omega) fun x hx => hp x (List.mem_append_left _ hx)) (h' ?_ fun x hx => hp x ?_)
    · rw [ho, List.length_drop]
      omega
    · rw [ho] at hx
      exact List.mem_append_right _ hx
  present a s _ _ := by
    obtain ⟨es, h⟩ := (onlyAddr_present a s).actsFrame
    exact scriptStep_quiet h.oracle h.trace h.calls (k.present a s)
  count s := scriptStep_quiet (es := []) rfl (by simp [State.countBlock]) rfl (k.count s)
  we w s := scriptStep_quiet (es := []) rfl (by simp) rfl (k.we w s)
  call c s hc := k.call_step c s hc

/-- What every piece of a `WDATA` keeps under scripted answers with a property, a `WDATA` whose script is long enough and has it
keeps. -/
theorem KeptScripted.wdata (k : KeptScripted P Q) (hend : ∀ ok s, Q s (endWrite ok s)) {a l : Word} {s t : State}
    (h : execWdata a l s = .next t) (hlen : (writePlan s a l).length ≤ s.oracle.length)
    (hp : ∀ x ∈ s.oracle.take (writePlan s a l).length, P x) : Q s t := by
  have hstep : ScriptStep P Q s t := k.toCalls.wdata
    (fun ok s => scriptStep_quiet (es := []) rfl (by simp [endWrite]) rfl (hend ok s)) h
  obtain ⟨n, es, -, ht, hn, hq⟩ := hstep
  obtain ⟨v, es', -, -, ht', hc⟩ := execWdata_cases h
  have he : es = es' := List.append_cancel_left (ht.symm.trans ht')
  subst he
  have hle : n ≤ (writePlan s a l).length := by
    rw [← hn]
    rcases hc with ⟨e, -, -⟩ | ⟨m, hm, e, -, -⟩
    · rw [e]
    · rw [e, List.length_take]
      omega
  refine hq (by omega) fun x hx => hp x ?_
  exact (List.take_subset_take_left s.oracle hle) hx

/-- A call with a scripted answer whose acts all keep a relation, as the call's own events do, keeps it. -/
theorem callPrimitive_scripted (refl : ∀ s, Q s s) (trans : ∀ s t v, Q s t → Q t v → Q s v) (callOut : ∀ c s, Q s (s.callOut c))
    (ret : ∀ b s, Q s (s.emit [.ret b])) (c : Event) (s : State) (x : Answer) (rest : List Answer) (ho : s.oracle = x :: rest)
    (act : ∀ y ∈ x.acts, ∀ s, Q s (actRun y s).state) : Q s (callPrimitive c s).state := by
  have hx : s.nextAnswer = x := by rw [State.nextAnswer, ho]
  rw [callPrimitive, hx]
  refine kept_andThen trans (trans _ _ _ (callOut c s) (kept_acts refl trans x.acts act _)) fun t _ => ?_
  unfold returnBit
  split
  · exact ret true t
  · exact ret false t

end Sys2Proof.Machine
end

