-- ==== Sys2Proof/Tests/Slice0.lean ====
section
/-! SUPPORT. Tests of the definitions, their expected results from the spec's worked examples and vectors (95_test_vectors.md), and
for every obligation with hypotheses a state that meets them. -/

open Sys2Proof Sys2Proof.Machine

namespace Sys2Proof.Tests

/-! ### Small states -/

/-- A board of either realization; the pin maps are those of the state named reset. -/
def board (r : Realization) : Board := ⟨r, Config.illustrativeDataMap, Config.resetBoard.addrPinMap, 1⟩

/-- The address unit just after `ABEGIN`. -/
def begun : AddrUnit := { AddrUnit.reset with aBegun := true, pinsOut := true }

/-- The address unit after a SHIFT `ASET` of `e`, `h`, `l`. -/
def held (e : Ext) (h l : Byte) : AddrUnit :=
  { begun with cHi := some h, cExt := some e, pExt := e, srHi := h, qHi := h, srLo := l, qLo := l, pData := l.getLsbD 0 }

/-- A state with an address unit, on a board. -/
def at_ (r : Realization) (u : AddrUnit) : State := { State.reset with board := board r, addr := u }

/-- A state in a data mode, the pins driven to a byte. -/
def inMode (m : DMode) (dOut : Byte) : State := { State.reset with data := ⟨m, dOut⟩ }

/-- A state ready to write, with a block size and the answers of the primitives. -/
def writer (block : Word) (bytes : List Byte) (answers : List Bool) : State :=
  { at_ .shift (held 0#3 0#8 0#8) with
    profile := ⟨0#32, block, 0#32, false⟩
    port := ⟨0#8, 0#32, 0#32, Memory.place bytes⟩
    oracle := answers.map fun ok => ⟨[], ok⟩ }

/-- Something seen of the next state; `none` where a command does not complete. -/
def seen {α : Type} (f : State → α) (i : Instr) (s : State) : Option α :=
  match exec i s with
  | .next t => some (f t)
  | _ => none

/-- The calls a command made and its result. -/
def callsAndResult (s : State) (t : State) : List Event × Bool := (callsOf (eventsSince s t), t.res.ok)

/-- Does the machine go on? -/
def goesOn (o : Host.Outcome State Fault Refusal) : Bool :=
  match o with
  | .next _ => true
  | _ => false

theorem exists_next {o : Host.Outcome State Fault Refusal} (h : goesOn o = true) : ∃ t, o = .next t := by
  cases o with
  | next t => exact ⟨t, rfl⟩
  | fault r => simp [goesOn] at h
  | refused r => simp [goesOn] at h

/-! ### WellFormed (30_encoding.md R99, 40_address_bus.md R117) -/

theorem test_aset_top_is_wellFormed : (Instr.aset 0x7FFFF#32).wellFormed = true := by decide
theorem test_aset_past_the_top_is_illFormed : (Instr.aset 0x80000#32).wellFormed = false := by decide
theorem test_aset_all_ones_is_illFormed : (Instr.aset 0xFFFFFFFF#32).wellFormed = false := by decide
theorem test_wdata_is_wellFormed : (Instr.wdata 0xFFFFFFFF#32 0xFFFFFFFF#32).wellFormed = true := by decide

/-! ### Words written out from 30_encoding.md section 3 -/

theorem test_decode_abegin : decode ⟨0b00010000#8, 0xDEADBEEF#32, 1#32⟩ = .ok .abegin := by decide
theorem test_decode_aset : decode ⟨0b00010001#8, 0x00012345#32, 9#32⟩ = .ok (.aset 0x12345#32) := by decide
theorem test_decode_dmode_out : decode ⟨0b00100000#8, 0x00000001#32, 0#32⟩ = .ok (.dmode .output) := by decide
theorem test_decode_dmode_in : decode ⟨0b00100000#8, 0x00000000#32, 0#32⟩ = .ok (.dmode .input) := by decide
theorem test_decode_dread : decode ⟨0b00100001#8, 0xFFFFFFFF#32, 0#32⟩ = .ok .dread := by decide
theorem test_decode_dwrite : decode ⟨0b00100010#8, 0x000000A5#32, 0#32⟩ = .ok (.dwrite 0xA5#8) := by decide
theorem test_decode_wdata : decode ⟨0b00110000#8, 0x0000000A#32, 0x000000C8#32⟩ = .ok (.wdata 10#32 200#32) := by decide
theorem test_decode_dbgrst : decode ⟨0b01000000#8, 0#32, 0#32⟩ = .ok .dbgrst := by decide
theorem test_decode_dbgprint : decode ⟨0b01000001#8, 0#32, 0#32⟩ = .ok .dbgprint := by decide

/-- V9: must-be-zero operand bits. -/
theorem test_decode_dmode_reserved : decode ⟨0x20#8, 0x00000002#32, 0#32⟩ = .error .reservedOperand := by decide
theorem test_decode_dwrite_reserved : decode ⟨0x22#8, 0x00000100#32, 0#32⟩ = .error .reservedOperand := by decide
theorem test_decode_reserved_unit : decode ⟨0x00#8, 0#32, 0#32⟩ = .error .reservedCommand := by decide

/-- The table's numbering: the opcode alone, and the model's layout with operands. -/
theorem test_table_dread : decodeTableWord 8 0x21 = some .dread := by decide
theorem test_table_wdata : decodeTableWord 72 0x000000C80000000A30 = some (.wdata 10#32 200#32) := by decide
theorem test_fetch_word_runs : goesOn (step (State.reset.withFetchWord 8 0x10)) = true := by decide

/-! ### The buffer -/

theorem test_reset_buffer_is_canonical : State.reset.port.buf.wf = true := by decide
theorem test_buffer_reads_back : Memory.read 2 (Memory.place [0x11#8, 0x00#8, 0x33#8]) = 0x33#8 := by decide
theorem test_buffer_lists_no_blank : Memory.place [0x11#8, 0x00#8] = [(0, 0x11#8)] := by decide

/-! ### ABEGIN -/

/-- V4 row 1: caches at the sentinel, `A_BEGUN` set. -/
theorem test_abegin : seen (fun t => (t.addr.aBegun, t.addr.cHi, t.addr.cExt, t.addr.pinsOut)) .abegin State.reset =
    some (true, none, none, true) := by decide

/-- V6: the second `ABEGIN`. -/
theorem test_abegin_twice : exec .abegin (at_ .shift begun) = .refused .beginTwice := rfl

/-! ### ASET -/

/-- V4 row 4: `ASET 0x12345` after `ASET 0`. -/
theorem test_aset_shift :
    seen (fun t => (t.xa 0#19, t.addr.cExt, t.addr.cHi)) (.aset 0x12345#32) (at_ .shift (held 0#3 0#8 0#8)) =
      some (0x12345#19, some 1#3, some 0x23#8) := by decide

/-- V2: the whole trace of a low byte alone. -/
theorem test_aset_low_byte_trace :
    seen (fun t => t.trace) (.aset 1#32) (at_ .shift (held 0#3 0#8 0#8)) =
      some ((List.replicate 7 [Event.pin .data false, .pin .sclkLo true, .delay 3, .pin .sclkLo false]).flatten ++
        [.pin .data true, .pin .sclkLo true, .delay 3, .pin .sclkLo false, .pin .rclk true, .delay 1, .pin .rclk false, .delay 1]) := by
  decide

/-- V1, second row: the register after each edge, from 0xFF. -/
theorem test_shiftOut_steps :
    ((List.range 9).map fun k => (AddrUnit.replay { begun with srLo := 0xFF#8 } ((shiftOutEvents .lo 0x23#8).take (4 * k))).srLo) =
      [0xFF#8, 0xFE#8, 0xFC#8, 0xF9#8, 0xF2#8, 0xE4#8, 0xC8#8, 0x91#8, 0x23#8] := by decide

/-- V3: the latch pulse loads both latches. -/
theorem test_latchPulse :
    ((latchPulse (at_ .shift { begun with srHi := 0x12#8, qHi := 0x34#8, srLo := 0x56#8, qLo := 0x78#8 })).addr.qHi,
      (latchPulse (at_ .shift { begun with srHi := 0x12#8, qHi := 0x34#8, srLo := 0x56#8, qLo := 0x78#8 })).addr.qLo) =
      (0x12#8, 0x56#8) := by decide

/-! ### DMODE, DREAD, DWRITE, with the illustrative map -/

theorem test_dmode_in : seen (fun t => t.data.mode) (.dmode .input) State.reset = some .input := by decide
theorem test_dmode_out : seen (fun t => t.data.mode) (.dmode .output) State.reset = some .output := by decide

/-- V8, last row: pins 7..0 are Z Z Z Z 0 Z Z 0. -/
theorem test_dread : seen (fun t => (t.res.data, t.env)) .dread
    { inMode .input 0#8 with env := [#v[.low, .z, .z, .low, .z, .z, .z, .z]] } = some (0xBD#8, []) := by decide

/-- V9: after reset. -/
theorem test_dread_unconfigured : exec .dread State.reset = .refused .dreadOutsideInput := rfl

/-- V7, row 1. -/
theorem test_dwrite : seen (fun t => (t.data.dOut, t.xd 0#8 (Vector.replicate 8 .z))) (.dwrite 0xA5#8) (inMode .output 0xFF#8) =
    some (0x96#8, 0xA5#8) := by decide

/-- V7, row 7, over other old levels. -/
theorem test_dwrite_one_bit : seen (fun t => t.data.dOut) (.dwrite 0x40#8) (inMode .output 0xFF#8) = some 0x01#8 := by decide

/-! ### WDATA -/

/-- V10, row 1 (R178). -/
theorem test_wdata_blocks :
    seen (callsAndResult (writer 64#32 [] [true, true, true, true])) (.wdata 10#32 200#32)
      (writer 64#32 [] [true, true, true, true]) =
      some ([.callBlock 0#32 54#32 10#32, .callBlock 54#32 64#32 64#32, .callBlock 118#32 64#32 128#32,
        .callBlock 182#32 18#32 192#32], true) := by decide +kernel

/-- V11: byte mode, the third call answers 0. -/
theorem test_wdata_bytes_fail :
    seen (callsAndResult (writer 0#32 [0x11#8, 0x22#8, 0x33#8, 0x44#8, 0x55#8] [true, true, false]))
      (.wdata 0x100#32 5#32) (writer 0#32 [0x11#8, 0x22#8, 0x33#8, 0x44#8, 0x55#8] [true, true, false]) =
      some ([.callByte 0x11#8 0x100#32, .callByte 0x22#8 0x101#32, .callByte 0x33#8 0x102#32], false) := by decide +kernel

/-- V10, closed form: a one-byte lead-in and a one-byte tail. -/
theorem test_blockPlan : blockPlan 64 63 66 = [(0, 1, 63), (1, 64, 64), (65, 1, 128)] := by decide

/-! ### DBGRST, DBGPRINT (V13) -/

theorem test_dbgrst : seen (fun t => t.dbg) .dbgrst { State.reset with dbg := ⟨1#32, 2#32, 3#8, 4#8, 5#32, 6#32, 7#32⟩ } =
    some ⟨0#32, 0#32, 0#8, 0#8, 0#32, 0#32, 0#32⟩ := by decide

theorem test_dbgprint : seen (fun t => t.trace) .dbgprint { State.reset with dbg := ⟨1#32, 2#32, 3#8, 4#8, 5#32, 6#32, 7#32⟩ } =
    some [.report ⟨1#32, 2#32, 3#8, 4#8, 5#32, 6#32, 7#32⟩] := by decide

/-! ### Hardware reset -/

/-- 70_reset_and_hazards.md R232: a reset after three events of an `ASET`. -/
theorem test_reset_inside_aset :
    (cutAt 3 (at_ .shift (held 0#3 0#8 0#8)) (present 1#32 (at_ .shift (held 0#3 0#8 0#8)))).trace =
      [.pin .data false, .pin .sclkLo true, .delay 3, .hardwareReset] := by decide

/-- A `WDATA 0x7FFFF, 2` whose second address is off the bus, to be cut by a reset after `n` of its events. Call 1 ends with event 38:
32 to shift the low byte, 4 to latch it, the call, its answer. -/
def cutWrite (n : Nat) : State :=
  { (writer 0#32 [0x11#8, 0x22#8] [true]).withFetchWord 72 0x000000020007FFFF30 with
    addr := held 7#3 0xFF#8 0#8
    pending := .commandCutAt n }

/-- 60_exceptions.md R204: the reset that comes after call 1 has returned 1 and before the `ASET` of 0x80000 wins. -/
theorem test_reset_before_the_undefined_point :
    (match step (cutWrite 38) with
      | .next t => (t.trace.drop 36, t.addr.aBegun)
      | _ => ([], true)) = ([.callByte 0x11#8 0x7FFFF#32, .ret true, .hardwareReset], false) := by decide +kernel

/-- A reset that would come later meets the undefined point first. -/
theorem test_reset_after_the_undefined_point : step (cutWrite 39) = .refused .addressTooWide := rfl

/-! ### The hypotheses of the obligations are met

One theorem for each obligation that has hypotheses, with one witness for each clause. -/

theorem witness_begun_inv (r : Realization) : (at_ r begun).Inv where
  board := by cases r <;> decide
  addr := ⟨nofun, fun _ => ⟨⟨rfl, fun _ => .inl rfl, fun _ => .inl rfl, ⟨fun _ => rfl, fun _ => rfl⟩⟩, fun _ => ⟨rfl, rfl, rfl,
    nofun, nofun⟩⟩⟩
  buf := rfl
  idle := rfl

theorem witness_held_inv (e : Ext) (h l : Byte) : (at_ .shift (held e h l)).Inv where
  board := show (board .shift).wf = true by decide
  addr := by
    have hx : ∀ d, (held e h l).xa (board .shift) d = e ++ h ++ l := fun _ => rfl
    refine ⟨nofun, fun _ => ⟨⟨rfl, fun d => .inr ?_, fun d => .inr ?_, ⟨nofun, nofun⟩⟩, fun _ => ⟨rfl, rfl, rfl, ?_, fun _ => rfl⟩⟩⟩
    · show some e = some (((held e h l).xa (board .shift) d).extractLsb' 16 3)
      rw [hx, append_ext]
    · show some h = some (((held e h l).xa (board .shift) d).extractLsb' 8 8)
      rw [hx, append_hi]
    · intro h' hh
      cases hh
      exact ⟨rfl, rfl⟩
  buf := rfl
  idle := rfl

theorem witness_EncodeAndDecodeAgree :
    decode ⟨0x22#8, 0xFF#32, 0xFFFFFFFF#32⟩ = .ok (.dwrite 0xFF#8) ∧ decode ⟨0x30#8, 0xFFFFFFFF#32,
      0#32⟩ = .ok (.wdata 0xFFFFFFFF#32 0#32) := by
  decide

theorem witness_StepRunsTheStartedCommand :
    (∃ (s : State) (i : Instr), s.pending = .command ∧ decode ⟨s.port.cmd, s.port.opa, s.port.opl⟩ = .ok i) ∧
    (∃ (s : State) (e : DecodeError), s.pending = .command ∧ decode ⟨s.port.cmd, s.port.opa, s.port.opl⟩ = .error e) ∧
    decodeTableWord 40 0x1234511 = some (.aset 0x12345#32) :=
  ⟨⟨State.reset.withFetchWord 8 0x20, .dmode .input, rfl, by decide⟩,
    ⟨State.reset.withFetchWord 8 0xFF, .reservedCommand, rfl, by decide⟩, by decide⟩

theorem witness_IdleCoreWaitsForTheHost :
    (State.reset.pending = .idle ∧ State.reset.inputs = []) ∧
    ({ State.reset with inputs := [.issue ⟨0x30#8, 0#32, 2#32⟩ [0#8, 1#8]] } : State).pending = .idle ∧
    ({ State.reset with inputs := [.issueCutAt 0 ⟨0x30#8, 0#32, 2#32⟩ [0#8, 1#8]] } : State).pending = .idle ∧
    ({ State.reset with inputs := [.debug .lastExp 0x1FF#32, .debug .sync 0xFFFFFFFF#32, .reset] } : State).pending = .idle :=
  ⟨⟨rfl, rfl⟩, rfl, rfl, rfl⟩

theorem witness_AbeginInitialisesTheUnit :
    (at_ .shift AddrUnit.reset).addr.aBegun = false ∧ (at_ .shift AddrUnit.reset).board.realization = .shift ∧
    (at_ .direct AddrUnit.reset).addr.aBegun = false ∧ (at_ .direct AddrUnit.reset).board.realization = .direct := by
  decide

/-- The last two clauses on `ASET` meet at `A_BEGUN = 0` with an address of 2^19: the first wins. -/
theorem witness_AddressCommandsRefusedExactly :
    (at_ .shift begun).addr.aBegun = true ∧ 2 ^ 19 ≤ (0x80000#32).toNat ∧ (0x7FFFF#32).toNat < 2 ^ 19 ∧
    State.reset.addr.aBegun = false ∧ exec (.aset 0x80000#32) State.reset = .refused .asetBeforeBegin ∧
    exec (.aset 0x80000#32) (at_ .shift begun) = .refused .addressTooWide :=
  ⟨by decide, by decide, by decide, by decide, rfl, rfl⟩

/-- For `AsetPresentsTheAddress`, `AsetLeavesTheUnitAtTheAddress`, `AsetTransmitsChangedPlanes`, `AsetPulseCountsAndDelays` and
`AsetTwiceIsIdempotent`: caches at the sentinel and caches that hold planes, both boards, the lowest and the top address. -/
theorem witness_aset :
    (∀ r, (at_ r begun).Inv ∧ (at_ r begun).addr.aBegun = true ∧ (at_ r begun).board.realization = r) ∧
    ((at_ .shift (held 1#3 0x23#8 0x45#8)).Inv ∧ (at_ .shift (held 1#3 0x23#8 0x45#8)).addr.aBegun = true) ∧
    (held 1#3 0x23#8 0x45#8).cExt = some ((0x12346#32).extractLsb' 16 3) ∧
    (held 1#3 0x23#8 0x45#8).cHi = some ((0x12346#32).extractLsb' 8 8) ∧
    (0#32).toNat < 2 ^ 19 ∧ (0x7FFFF#32).toNat < 2 ^ 19 :=
  ⟨fun r => ⟨witness_begun_inv r, rfl, rfl⟩, ⟨witness_held_inv _ _ _, rfl⟩, by decide, by decide, by decide, by decide⟩

/-- The commands between are those of 95_test_vectors.md P5, and a debug reset. -/
theorem witness_FirstAsetTransmitsEveryPlane :
    (∀ r, (at_ r AddrUnit.reset).board.wf = true ∧ (at_ r AddrUnit.reset).addr.aBegun = false ∧
      ∃ t u, exec .abegin (at_ r AddrUnit.reset) = .next t ∧ execAll [.dmode .input, .dbgrst] t = .next u) ∧
    (∀ i ∈ [Instr.dmode .input, .dbgrst], isAset i = false ∧ isWdata i = false) ∧ (0#32).toNat < 2 ^ 19 :=
  ⟨fun r => ⟨by cases r <;> decide, rfl, _, _, rfl, rfl⟩, by decide, by decide⟩

theorem witness_DirectAsetWritesEveryPin :
    (at_ .direct begun).board.wf = true ∧ (at_ .direct begun).board.realization = .direct ∧
    (at_ .direct begun).addr.aBegun = true ∧ (0x7FFFF#32).toNat < 2 ^ 19 := by decide

theorem witness_AsetIntermediateAddresses :
    (at_ .shift (held 1#3 0x23#8 0x46#8)).Inv ∧ (at_ .shift (held 1#3 0x23#8 0x46#8)).board.realization = .shift ∧
    (at_ .shift (held 1#3 0x23#8 0x46#8)).addr.aBegun = true ∧ (at_ .shift (held 1#3 0x23#8 0x46#8)).addr.cHi ≠ none ∧
    (0x12446#32).toNat < 2 ^ 19 :=
  ⟨witness_held_inv _ _ _, rfl, rfl, by decide, by decide⟩

theorem witness_RealizationsShowTheSameAddress :
    (∃ t, execAll (.abegin :: [.aset 0x12345#32, .dbgrst]) (at_ .shift AddrUnit.reset) = .next t) ∧
    (∃ t, execAll (.abegin :: [.aset 0x12345#32, .dbgrst]) (at_ .direct AddrUnit.reset) = .next t) ∧
    (at_ .shift AddrUnit.reset).board.wf = true ∧ (at_ .direct AddrUnit.reset).board.wf = true ∧
    (at_ .shift AddrUnit.reset).addr.aBegun = false ∧ (at_ .direct AddrUnit.reset).addr.aBegun = false ∧
    (∀ i ∈ [Instr.aset 0x12345#32, .dbgrst], isWdata i = false) ∧ (∃ a, Instr.aset a ∈ [Instr.aset 0x12345#32, .dbgrst]) :=
  ⟨exists_next (by decide), exists_next (by decide), by decide, by decide, rfl, rfl, by decide, ⟨_, List.mem_cons_self ..⟩⟩

theorem witness_ShiftOutSerializesTheByte :
    State.reset.addr.pSclkHi = false ∧ State.reset.addr.pSclkLo = false ∧ 0 ≤ 8 ∧ 8 ≤ 8 := by decide

theorem witness_LatchesAndRegistersFollowTheirClocks :
    State.reset.addr.pRclk = false ∧
    (({ begun with srHi := 1#8 } : AddrUnit).drive .rclk true).qHi ≠ ({ begun with srHi := 1#8 } : AddrUnit).qHi ∧
    (({ begun with pData := true } : AddrUnit).drive .sclkHi true).srHi ≠ ({ begun with pData := true } : AddrUnit).srHi ∧
    (({ begun with pData := true } : AddrUnit).drive .sclkLo true).srLo ≠ ({ begun with pData := true } : AddrUnit).srLo := by
  decide

/-- A command of each unit; the second writes data pins with no `DMODE OUT` after. -/
theorem witness_PinLevelAgreesWithCommandLevel :
    ((∀ r, (at_ r begun).board.wf = true) ∧ ∀ r, ∃ t, exec (.aset 0x7FFFF#32) (at_ r begun) = .next t) ∧
    (inMode .output 0#8).board.wf = true ∧
    ∃ t pre post p b, exec (.dwrite 0xFF#8) (inMode .output 0#8) = .next t ∧
      eventsSince (inMode .output 0#8) t = pre ++ .pin (.bus p) b :: post ∧ .dataMode .output ∉ post := by
  refine ⟨⟨fun r => by cases r <;> decide, fun r => by cases r <;> exact exists_next (by decide)⟩, by decide, ?_⟩
  have hm : ∀ e, e ∈ orderBy 8 (Config.freeOrder (inMode .output 0#8).free) (busEvents (inMode .output 0#8).board.dataPinMap 0xFF#8) ↔
      e ∈ busEvents (inMode .output 0#8).board.dataPinMap 0xFF#8 := fun e => mem_orderBy
  obtain ⟨pre, post, h⟩ := List.append_of_mem ((hm _).mpr (List.mem_map.mpr ⟨0, List.mem_finRange 0, rfl⟩))
  refine ⟨_, pre, post, _, _, rfl, h, fun ho => ?_⟩
  have := (hm (.dataMode .output)).mp (by rw [h]; simp [ho])
  simp [busEvents] at this

theorem witness_DreadReturnsTheLines :
    (inMode .input 0#8).data.mode = .input ∧ (inMode .output 0#8).data.mode ≠ .input ∧ State.reset.data.mode ≠ .input ∧
    (∀ p, ({ inMode .input 0#8 with env := [Vector.replicate 8 .z] } : State).nextEnv.get p = .z) := by decide

theorem witness_DwriteDrivesTheByte :
    (0xFF#32).toNat < 2 ^ 8 ∧ (inMode .output 0#8).data.mode = .output ∧ (inMode .output 0#8).board.wf = true ∧
    (inMode .input 0#8).data.mode ≠ .output ∧
    (∀ p, (Vector.replicate 8 Drive.z).get p = .z) := by decide

theorem witness_DataPinMapIsUndone :
    Config.resetBoard.wf = true ∧ Config.resetBoard.dataPinMap.get 7 = 1 ∧ ∃ p : Fin 8, Config.resetBoard.dataPinMap.get p = 0 := by
  decide

/-- The loop-back environment: the lines carry what `DWRITE` drove. -/
theorem witness_LoopBackReturnsTheByte :
    ∃ (s s1 s2 s3 : State) (x : Byte) (rest : List EnvVector), s.board.wf = true ∧ exec (.dmode .output) s = .next s1 ∧
      exec (.dwrite x) s1 = .next s2 ∧ exec (.dmode .input) s2 = .next s3 ∧
      s.env = Vector.ofFn (fun p : Fin 8 => if s2.data.dOut.getLsbD p then Drive.high else Drive.low) :: rest :=
  ⟨{ State.reset with env := [Vector.ofFn fun p : Fin 8 =>
      if (scatter State.reset.board.dataPinMap 0xA5#8 (State.reset.freeBits 8 0)).getLsbD p then Drive.high else Drive.low] },
    _, _, _, 0xA5#8, [], by decide, rfl, rfl, rfl, rfl⟩

theorem witness_UndrivenReadIsAllOnes :
    ({ State.reset with env := [Vector.replicate 8 .z] } : State).env = Vector.replicate 8 .z :: [] ∧
    ∀ p, (Vector.replicate 8 Drive.z).get p = .z := ⟨rfl, by decide⟩

theorem witness_BusUnitsAreIndependent :
    (∃ t, exec .dread (inMode .input 0#8) = .next t) ∧ (∃ t, exec (.dmode .output) State.reset = .next t) ∧
    (∃ t, exec (.dwrite 1#8) (inMode .output 0#8) = .next t) ∧ (∃ t, exec .abegin State.reset = .next t) ∧
    (∃ t, exec (.aset 1#32) (at_ .direct begun) = .next t) :=
  ⟨exists_next (by decide), exists_next (by decide), exists_next (by decide), exists_next (by decide), exists_next (by decide)⟩

/-- A `WDATA` that ends: in byte mode and in block mode, with success and with failure. It meets the hypotheses of
`WdataHandsOverThePlan`, `FirstFailureAbortsTheWrite`, `WdataCountsBlockCalls`, `WdataCallCounts`, `WdataFrame` and of the second clause
of `DebugRegistersAreSideState`. -/
theorem witness_wdata_ends :
    (∃ t, exec (.wdata 5#32 2#32) (writer 0#32 [] [true, true]) = .next t ∧ t.res.ok = true) ∧
    (∃ t, exec (.wdata 5#32 3#32) (writer 2#32 [] [true, false]) = .next t ∧ t.res.ok = false) ∧
    (writer 2#32 [] [true, false]).profile.block ≠ 0#32 ∧ (5#32).toNat + (3#32).toNat ≤ 2 ^ 32 ∧
    (writePlan (writer 2#32 [] [true, false]) 5#32 3#32).length ≤ (writer 2#32 [] [true, false]).oracle.length ∧
    (writer 2#32 [] [true, false]).oracle.all Answer.quiet = true :=
  ⟨⟨_, rfl, rfl⟩, ⟨_, rfl, rfl⟩, by decide, by decide, by decide, by decide⟩

theorem witness_WdataCompletes :
    blockAdmitted (writer 64#32 [] [true, true]).profile.block = true ∧
    (writer 64#32 [] [true, true]).addr.aBegun = true ∧
    (∀ c ∈ writePlan (writer 64#32 [] [true, true]) 10#32 55#32, (callAddressOf c).toNat < 2 ^ 19) ∧
    (writePlan (writer 64#32 [] [true, true]) 10#32 55#32).length ≤ (writer 64#32 [] [true, true]).oracle.length ∧
    scriptDefined (writer 64#32 [] [true, true]).data.mode
      ((writer 64#32 [] [true, true]).oracle.take (writePlan (writer 64#32 [] [true, true]) 10#32 55#32).length) = true := by
  decide +kernel

/-- The same where call 1 answers 0 and the next address would be off the bus, with no answer scripted for it. -/
theorem witness_WdataCompletes_failing :
    1 ≤ (writePlan (writer 16#32 [] [false]) 0x7FFF0#32 32#32).length ∧ 1 ≤ (writer 16#32 [] [false]).oracle.length ∧
    (writePlan (writer 16#32 [] [false]) 0x7FFF0#32 32#32)[1]? = some (.callBlock 16#32 16#32 0x80000#32) ∧
    (∀ c ∈ (writePlan (writer 16#32 [] [false]) 0x7FFF0#32 32#32).take 1, (callAddressOf c).toNat < 2 ^ 19) ∧
    scriptDefined (writer 16#32 [] [false]).data.mode ((writer 16#32 [] [false]).oracle.take 1) = true ∧
    ((writer 16#32 [] [false]).oracle.take 1).all Answer.ok = false := by
  decide +kernel

/-- The same with a primitive that uses both buses (P3). -/
theorem witness_scriptDefined :
    scriptDefined .unconf [⟨[.bus (.dmode .output), .bus (.dwrite 0x11#8), .bus (.aset 0x7FFFF#32), .bus (.dmode .input), .bus .dread,
      .debug .lastRb 0x11#32], true⟩, ⟨[.bus .dread], false⟩] = true := by decide

/-- V12, first case: the second call would be at 0x80000. -/
theorem witness_WdataStopsAtTheFirstAddressOffTheBus :
    blockAdmitted (writer 64#32 [] [true]).profile.block = true ∧ (writer 64#32 [] [true]).addr.aBegun = true ∧
    (writePlan (writer 64#32 [] [true]) 0x7FFF0#32 32#32)[1]? = some (.callBlock 16#32 16#32 0x80000#32) ∧
    2 ^ 19 ≤ (callAddressOf (.callBlock 16#32 16#32 0x80000#32)).toNat ∧
    (∀ c ∈ (writePlan (writer 64#32 [] [true]) 0x7FFF0#32 32#32).take 1, (callAddressOf c).toNat < 2 ^ 19) ∧
    1 ≤ (writer 64#32 [] [true]).oracle.length ∧
    scriptDefined (writer 64#32 [] [true]).data.mode ((writer 64#32 [] [true]).oracle.take 1) = true ∧
    ((writer 64#32 [] [true]).oracle.take 1).all Answer.ok = true := by
  decide +kernel

theorem witness_WdataRefusedWithoutItsPremises :
    blockAdmitted 48#32 = false ∧ blockAdmitted 0x80000000#32 = true ∧ blockAdmitted State.reset.profile.block = true ∧
    State.reset.addr.aBegun = false ∧ writePlan State.reset 0#32 1#32 ≠ [] := by decide

theorem witness_WdataOfLengthZero :
    (blockAdmitted (writer 64#32 [] [true]).profile.block = true ∧ (64#32).toNat % (writer 64#32 [] [true]).profile.block.toNat = 0) ∧
    (blockAdmitted State.reset.profile.block = true ∧ State.reset.profile.block = 0#32) ∧
    (writer 64#32 [] [false]).profile.block ≠ 0#32 ∧ (10#32).toNat % (writer 64#32 [] [false]).profile.block.toNat ≠ 0 ∧
    ∃ t, exec (.wdata 10#32 0#32) (writer 64#32 [] [false]) = .next t :=
  ⟨by decide, by decide, by decide, by decide, exists_next (by decide)⟩

theorem witness_WdataChunksRespectBlocks :
    ∃ t, exec (.wdata 5#32 3#32) (writer 2#32 [] [true, true]) = .next t ∧
      .callBlock 1#32 2#32 6#32 ∈ callsOf (eventsSince (writer 2#32 [] [true, true]) t) := ⟨_, rfl, by decide +kernel⟩

theorem witness_WdataPresentsEachCallAddress :
    (writer 2#32 [] [true, true]).Inv ∧ ∃ t, exec (.wdata 5#32 3#32) (writer 2#32 [] [true, true]) = .next t ∧
      (∃ pre post, eventsSince (writer 2#32 [] [true, true]) t = pre ++ .callBlock 0#32 1#32 5#32 :: post) ∧
      (Event.callBlock 0#32 1#32 5#32).isCall = true :=
  ⟨⟨(witness_held_inv 0#3 0#8 0#8).board, (witness_held_inv 0#3 0#8 0#8).addr, by decide, rfl⟩, _, rfl,
    List.append_of_mem (by decide +kernel), rfl⟩

/-- A primitive that writes one of the six debug registers, uses the data bus and reads nothing. -/
def busyWriter : State :=
  { writer 0#32 [0x11#8] [] with oracle := [⟨[.bus (.dmode .output), .debug .dup 5#32, .bus (.dwrite 0x11#8)], true⟩] }

theorem witness_DebugRegistersAreSideState :
    isWdata .dread = false ∧ (Instr.dread ≠ .dbgrst) ∧ (∃ t, exec .dread (inMode .input 0#8) = .next t) ∧
    (Instr.wdata 0#32 0#32 ≠ .dbgprint) ∧
    (∃ t, exec (.wdata 7#32 1#32) busyWriter = .next t ∧ t.dbg.get .dup = 5#32) ∧
    (writePlan busyWriter 7#32 1#32).length ≤ busyWriter.oracle.length ∧
    (∀ x ∈ busyWriter.oracle.take (writePlan busyWriter 7#32 1#32).length, Answer.writesDebug .sync x = false) :=
  ⟨rfl, nofun, exists_next (by decide), nofun, ⟨_, rfl, rfl⟩, by decide, by decide⟩

theorem witness_ConfigurationNeverChanges :
    (∃ t, step (State.reset.withFetchWord 8 0x10) = .next t) ∧ (∃ t, exec .dbgprint State.reset = .next t) ∧
    isWdata .dbgprint = false := ⟨exists_next (by decide), exists_next (by decide), rfl⟩

theorem witness_ResultFlagsHaveTheirWriters :
    ((∃ t, exec (.dmode .input) State.reset = .next t ∧ ∀ e ∈ eventsSince State.reset t, e.isSample = false) ∧
      isWdata (.dmode .input) = false ∧ Instr.dmode .input ≠ .dread) ∧
    (∃ t, exec (.wdata 7#32 1#32) busyWriter = .next t) ∧
    (∀ x ∈ busyWriter.oracle.take (writePlan busyWriter 7#32 1#32).length, Answer.reads x = false) :=
  ⟨⟨⟨_, rfl, by decide⟩, rfl, nofun⟩, ⟨_, rfl⟩, by decide⟩

/-- `A_BEGUN` rises and falls; `D_MODE` moves by a `DMODE` and by a primitive's, and stays when the primitives issue none. -/
theorem witness_ModeFlagsHaveTheirWriters :
    (∃ t, step (State.reset.withFetchWord 8 0x10) = .next t ∧ (State.reset.withFetchWord 8 0x10).addr.aBegun = false ∧
      t.addr.aBegun = true) ∧
    (∃ t, step { at_ .shift begun with inputs := [.reset] } = .next t ∧ (at_ .shift begun).addr.aBegun = true ∧
      t.addr.aBegun = false) ∧
    (∃ t, step (State.reset.withFetchWord 8 0x20) = .next t ∧
      t.data.mode ≠ (State.reset.withFetchWord 8 0x20).data.mode) ∧
    (∃ t, step (busyWriter.withFetchWord 72 0x000000010000000730) = .next t ∧
      t.data.mode ≠ (busyWriter.withFetchWord 72 0x000000010000000730).data.mode) ∧
    ((∃ t, exec (.wdata 5#32 3#32) (writer 2#32 [] [true, true]) = .next t) ∧
      (writePlan (writer 2#32 [] [true, true]) 5#32 3#32).length ≤ (writer 2#32 [] [true, true]).oracle.length ∧
      ∀ x ∈ (writer 2#32 [] [true, true]).oracle.take (writePlan (writer 2#32 [] [true, true]) 5#32 3#32).length,
        Answer.setsMode x = false) :=
  ⟨⟨_, rfl, rfl, by decide⟩, ⟨_, rfl, rfl, rfl⟩, ⟨_, rfl, by decide⟩, ⟨_, rfl, by decide⟩, ⟨_, rfl⟩, by decide, by decide⟩

theorem witness_EveryStepKeepsTheInvariant :
    (at_ .shift (held 1#3 0x23#8 0x45#8)).Inv ∧ ∃ t, step ((at_ .shift (held 1#3 0x23#8 0x45#8)).withFetchWord 40 0x7FFFF11) = .next t :=
  ⟨witness_held_inv _ _ _, exists_next (by decide)⟩

theorem witness_HardwareResetBetweenCommands :
    ({ State.reset with inputs := [.reset] } : State).pending = .idle ∧
    ({ State.reset with inputs := [.reset] } : State).inputs = .reset :: [] := ⟨rfl, rfl⟩

theorem witness_HardwareResetInsideACommand :
    (∃ (s : State) (n : Nat) (i : Instr), s.pending = .commandCutAt n ∧
      decode ⟨s.port.cmd, s.port.opa, s.port.opl⟩ = .ok i ∧ ∃ t, exec i { s with pending := .idle } = .next t) ∧
    decode ⟨(cutWrite 0).port.cmd, (cutWrite 0).port.opa, (cutWrite 0).port.opl⟩ = .ok (.wdata 0x7FFFF#32 2#32) ∧
    (∃ v, instrRun (.wdata 0x7FFFF#32 2#32) { cutWrite 0 with pending := .idle } = .stopped .addressTooWide v) ∧
    ∃ (s v : State), s.pending = .commandCutAt 1 ∧ decode ⟨s.port.cmd, s.port.opa, s.port.opl⟩ = .ok (.aset 0x45#32) ∧
      instrRun (.aset 0x45#32) { s with pending := .idle } = .stopped .asetBeforeBegin v ∧ (eventsSince s v).length < 1 :=
  ⟨⟨{ (at_ .shift begun).withFetchWord 40 0x4511 with pending := .commandCutAt 7 }, 7, .aset 0x45#32, rfl, by decide, _, rfl⟩,
    by decide, ⟨_, rfl⟩,
    ⟨{ State.reset.withFetchWord 40 0x4511 with pending := .commandCutAt 1 }, _, rfl, by decide, rfl, by decide⟩⟩

end Sys2Proof.Tests
end

namespace Sys2Proof.Machine

/-! ### The address seen at the end of ASET (10_state.md R31) -/

/-- `OnlyAddr` as a frame: a state that moved so differs in the unit, the free counter and the trace only. -/
theorem OnlyAddr.frame {s t : State} (h : OnlyAddr s t) : t = { s with addr := t.addr, free := t.free, trace := t.trace } := by
  obtain ⟨u, n, es, rfl, -, -⟩ := h
  rfl

/-- `ASET` where the spec defines it (40_address_bus.md R111, R117). -/
theorem exec_aset_legal {a : Word} {s : State} (hb : s.addr.aBegun = true) (ha : a.toNat < 2 ^ 19) :
    exec (.aset a) s = .next (present a s) := by
  rw [exec_eq_finish, instrRun, asetRun_legal hb ha, finish_going]

/-- `XA` after a legal `ASET` on the state's own board, which `present` leaves in place. -/
theorem xa_present {a : Word} {s : State} (hs : s.Inv) (hb : s.addr.aBegun = true) (undet : Addr) :
    (present a s).xa undet = onBus a := by
  have hboard : (present a s).board = s.board := by rw [(onlyAddr_present a s).frame]
  rw [State.xa, hboard]
  exact (present_presents a s hs.board hs.addr hb).xa undet

/-- Settles O8: a legal `ASET` ends in `present a s`, where the invariant of 40_address_bus.md R119 makes even an untransmitted plane
the one the device sees. -/
theorem asetPresentsTheAddress : Obligations.AsetPresentsTheAddress := by
  intro s a hs hb ha
  exact ⟨present a s, exec_aset_legal hb ha, xa_present hs hb, (onlyAddr_present a s).frame⟩

end Sys2Proof.Machine

namespace Sys2Proof.Machine

/-! ### The data pin map (41_data_bus.md R144) -/

/-- A map in which no two bits share a pin is a bijection: each pin has one bit, which `pinMap_surjective` finds. -/
theorem pinMap_existsUnique {n : Nat} (m : Vector (Fin n) n) (hm : ∀ i j, m.get i = m.get j → i = j) (p : Fin n) :
    ∃! i, m.get i = p := by
  obtain ⟨i, hi⟩ := pinMap_surjective m hm p
  exact ⟨i, hi, fun j hj => hm j i (hj.trans hi.symm)⟩

/-- Settles O23: no two bits of a legal board share a data pin, so every pin has its one bit, and reading bit `i` from its pin finds
what the write left there. -/
theorem dataPinMapIsUndone : Obligations.DataPinMapIsUndone := by
  intro b hb
  have hm := Board.wf_data hb
  exact ⟨pinMap_existsUnique b.dataPinMap hm, gather_scatter b.dataPinMap hm⟩

end Sys2Proof.Machine

namespace Sys2Proof.Machine

/-! ### The failing primitive's answer ends the write (42_write_engine.md R163) -/

/-- The returned bits are those of the `ret` events. -/
theorem mem_retsOf {b : Bool} {es : List Event} : b ∈ retsOf es ↔ .ret b ∈ es := by
  induction es with
  | nil => simp
  | cons e rest ih => cases e <;> simp [retsOf, ih]

/-- A `WDATA` that ends reports failure exactly when one of its events is an answer 0. -/
theorem execWdata_resOk_false_iff {a l : Word} {s t : State} (h : execWdata a l s = .next t) :
    t.res.ok = false ↔ .ret false ∈ eventsSince s t := by
  obtain ⟨v, es, -, -, htrace, ⟨-, hrets, hok⟩ | ⟨k, -, -, hrets, hok⟩⟩ := execWdata_cases h <;>
    rw [eventsSince_of_append htrace, ← mem_retsOf, hrets, hok]
  · simp
  · simp

/-- The events of a `WDATA` that reports failure end in an answer 0, the only one among them. -/
theorem execWdata_failure_last {a l : Word} {s t : State} (h : execWdata a l s = .next t) (hf : t.res.ok = false) :
    ∃ es, t.trace = s.trace ++ es ++ [.ret false] ∧ .ret false ∉ es := by
  have hlast := execWdata_failed h hf
  obtain ⟨v, es, -, -, htrace, ⟨-, -, hok⟩ | ⟨k, -, -, hrets, -⟩⟩ := execWdata_cases h
  · simp [hf] at hok
  · have hne : es ≠ [] := by rintro rfl; simp at hrets
    rw [htrace, List.getLast?_append_of_ne_nil _ hne] at hlast
    obtain ⟨before, rfl⟩ := List.getLast?_eq_some_iff.mp hlast
    have hbefore : retsOf before = List.replicate k true := by
      rw [retsOf_append] at hrets
      exact List.append_cancel_right hrets
    refine ⟨before, by rw [htrace, List.append_assoc], ?_⟩
    rw [← mem_retsOf, hbefore]
    simp

/-- Settles O28: of the answers of a `WDATA` at most one is 0, which is then its last event and decides `RES_OK`; the answer 0 skips
every continuation, and `takeFail` writes `RES_OK` and the engine's registers only. -/
theorem firstFailureAbortsTheWrite : Obligations.FirstFailureAbortsTheWrite := by
  refine ⟨fun s t a l h => ⟨execWdata_resOk_false_iff h, execWdata_failure_last h⟩, fun s f => ?_, fun s => ?_⟩
  · exact failed_andThen (s.emit [.ret false]) f
  · exact ⟨takeFail s, finish_failed s, takeFail_dbg s, takeFail_trace s, takeFail_addr s, rfl⟩

end Sys2Proof.Machine

namespace Sys2Proof.Machine

/-! ### The first ASET after ABEGIN (70_reset_and_hazards.md R234) -/

/-- `ABEGIN` while `A_BEGUN = 0` completes (40_address_bus.md R110). -/
theorem exec_abegin_first {s : State} (h : s.addr.aBegun = false) :
    exec .abegin s = .next ((s.setAddr (s.addr.begun s.board.realization)).emit
      (.addrOutputs :: (addressPins s.board.realization).map fun p => .pin p false)) := by
  rw [exec_eq_finish, instrRun, abeginRun_first s h, finish_going]

theorem begun_aBegun (r : Realization) (u : AddrUnit) : (u.begun r).aBegun = true := by cases r <;> rfl
theorem begun_pinsOut (r : Realization) (u : AddrUnit) : (u.begun r).pinsOut = true := by cases r <;> rfl
theorem begun_cHi (r : Realization) (u : AddrUnit) : (u.begun r).cHi = none := by cases r <;> rfl
theorem begun_cExt (r : Realization) (u : AddrUnit) : (u.begun r).cExt = none := by cases r <;> rfl

/-- `ABEGIN` establishes the invariant of 40_address_bus.md R119 whatever the unit held before: the pins are driven, the clocks low, and
caches at the sentinel agree with any latches. -/
theorem begun_inv (b : Board) (u : AddrUnit) : (u.begun b.realization).Inv b := by
  have hhi := begun_cHi b.realization u
  have hext := begun_cExt b.realization u
  refine ⟨fun h => by simp [begun_aBegun] at h, fun _ => ⟨⟨begun_pinsOut _ _, ?_, ?_, ?_⟩, fun hs => ?_⟩⟩
  · exact fun _ => .inl hext
  · exact fun _ => .inl hhi
  · exact iff_of_true hhi hext
  · rw [hs] at hhi ⊢
    exact ⟨rfl, rfl, rfl, fun h hh => by simp [hhi] at hh, fun h => absurd hhi h⟩

/-- Once `ABEGIN` has run, a command that is neither `ASET` nor `WDATA` leaves the AddressBus unit and the board alone; a second
`ABEGIN` does not complete. -/
theorem exec_keeps_addr {i : Instr} {s t : State} (hset : isAset i = false) (hwrite : isWdata i = false)
    (hb : s.addr.aBegun = true) (h : exec i s = .next t) : t.addr = s.addr ∧ t.board = s.board := by
  rw [exec_eq_finish] at h
  cases i with
  | aset a => cases hset
  | wdata a l => cases hwrite
  | abegin =>
    obtain ⟨hn, -⟩ | ⟨-, hrun⟩ := abeginRun_cases s
    · simp [hb] at hn
    · rw [instrRun, hrun] at h
      cases h
  | dmode d => cases d <;> cases h <;> exact ⟨rfl, rfl⟩
  | dread =>
    by_cases hm : s.data.mode = .input
    · rw [instrRun, dreadRun_input hm] at h
      cases h
      exact ⟨rfl, rfl⟩
    · rw [instrRun, dreadRun_other hm] at h
      cases h
  | dwrite v =>
    by_cases hm : s.data.mode = .output
    · rw [instrRun, dwriteRun_output v hm] at h
      cases h
      exact ⟨rfl, rfl⟩
    · rw [instrRun, dwriteRun_other v hm] at h
      cases h
  | dbgrst => cases h; exact ⟨rfl, rfl⟩
  | dbgprint => cases h; exact ⟨rfl, rfl⟩

/-- The first command of a sequence that completes completes, and the rest goes on from there. -/
theorem execAll_cons_next {i : Instr} {is : List Instr} {s u : State} (h : execAll (i :: is) s = .next u) :
    ∃ t, exec i s = .next t ∧ execAll is t = .next u := by
  rw [execAll] at h
  cases hi : exec i s <;> rw [hi] at h
  · exact ⟨_, rfl, h⟩
  · cases h
  · cases h

/-- `exec_keeps_addr` for a sequence of such commands. -/
theorem execAll_keeps_addr {is : List Instr} {s u : State} (his : ∀ i ∈ is, isAset i = false ∧ isWdata i = false)
    (hb : s.addr.aBegun = true) (h : execAll is s = .next u) : u.addr = s.addr ∧ u.board = s.board := by
  induction is generalizing s with
  | nil =>
    cases h
    exact ⟨rfl, rfl⟩
  | cons i rest ih =>
    obtain ⟨t, hi, hrest⟩ := execAll_cons_next h
    obtain ⟨hset, hwrite⟩ := his i (List.mem_cons_self ..)
    obtain ⟨haddr, hboard⟩ := exec_keeps_addr hset hwrite hb hi
    rw [← haddr, ← hboard]
    exact ih (fun j hj => his j (List.mem_cons_of_mem _ hj)) (haddr ▸ hb) hrest

/-- What a legal `ASET` shows in SHIFT from low clocks. -/
theorem eventsSince_present_shift (a : Word) {s : State} (hs : s.board.realization = .shift) (hc : s.addr.ClocksLow) :
    eventsSince s (present a s) = presentShiftEvents a s.addr s.free := by
  rw [present, hs]
  exact eventsSince_of_append (by rw [presentShift_closed a s hc]; rfl)

/-- With both caches at the sentinel no plane is skipped, whatever the operand (40_address_bus.md R112). -/
theorem presentShiftEvents_sentinel (a : Word) {u : AddrUnit} (draw : Nat) (hhi : u.cHi = none) (hext : u.cExt = none) :
    presentShiftEvents a u draw =
      [orderBy 3 (Config.freeOrder draw) (extEvents (extPlane a)), shiftOutEvents .hi (hiPlane a) ++ latchEvents,
        shiftOutEvents .lo (loPlane a) ++ latchEvents].flatten := by
  simp [presentShiftEvents, planeExtEvents, planeHiEvents, hhi, hext]

/-- What a legal `ASET` shows in DIRECT (40_address_bus.md R116). -/
theorem eventsSince_present_direct (a : Word) {s : State} (hs : s.board.realization = .direct) :
    (eventsSince s (present a s)).Perm (directEvents s.board.addrPinMap a) := by
  rw [eventsSince_of_append (by rw [present_direct a s hs]; rfl)]
  exact orderBy_perm ..

/-- `XA` after a legal `ASET`, from the part of the invariant that speaks of the address bus: after `ABEGIN` nothing is known of the
buffer or the write engine. -/
theorem xa_present_of_addrInv {a : Word} {s : State} (hw : s.board.wf = true) (hi : s.addr.Inv s.board)
    (hb : s.addr.aBegun = true) (undet : Addr) : (present a s).xa undet = onBus a := by
  have hboard : (present a s).board = s.board := by rw [(onlyAddr_present a s).frame]
  rw [State.xa, hboard]
  exact (present_presents a s hw hi hb).xa undet

/-- Settles O11: `ABEGIN` leaves both caches at the sentinel under the invariant of 40_address_bus.md R119, no command between moves the
unit, and so the first `ASET` finds every plane changed. -/
theorem firstAsetTransmitsEveryPlane : Obligations.FirstAsetTransmitsEveryPlane := by
  intro s hw hn
  refine ⟨_, exec_abegin_first hn, fun between u a hbetween hu ha => ?_⟩
  obtain ⟨haddr, hboard⟩ := execAll_keeps_addr hbetween (begun_aBegun ..) hu
  simp only [emit_addr, setAddr_addr, emit_board, setAddr_board] at haddr hboard
  have hb : u.addr.aBegun = true := by rw [haddr, begun_aBegun]
  have hinv : u.addr.Inv u.board := by
    rw [haddr, hboard]
    exact begun_inv ..
  rw [← hboard] at hw ⊢
  refine ⟨present a u, exec_aset_legal hb ha, fun hs => ?_, eventsSince_present_direct a, xa_present_of_addrInv hw hinv hb⟩
  have hsc := (hinv.2 hb).2 hs
  have hhi : u.addr.cHi = none := by rw [haddr, begun_cHi]
  have hext : u.addr.cExt = none := by rw [haddr, begun_cExt]
  refine ⟨_, _, orderBy_perm 3 (Config.freeOrder u.free) _, ?_, List.Perm.refl _⟩
  rw [eventsSince_present_shift a hs hsc.clocksLow, presentShiftEvents_sentinel a u.free hhi hext]
  rfl

end Sys2Proof.Machine

namespace Sys2Proof

/-! ### The two must-be-zero checks and the opcode map (30_encoding.md sections 2 to 4) -/

/-- The bits from `k` up are zero exactly in the values below `2 ^ k`. -/
theorem extractLsb'_eq_zero_iff (a : Word) (k m : Nat) (h : 32 ≤ k + m) : a.extractLsb' k m = 0#m ↔ a.toNat < 2 ^ k := by
  have hlt : a.toNat / 2 ^ k < 2 ^ m := by
    rw [Nat.div_lt_iff_lt_mul (Nat.two_pow_pos k), ← Nat.pow_add, Nat.add_comm m k]
    exact Nat.lt_of_lt_of_le a.isLt (Nat.pow_le_pow_right (by omega) h)
  rw [← BitVec.toNat_inj, BitVec.extractLsb'_toNat, Nat.shiftRight_eq_div_pow, Nat.mod_eq_of_lt hlt, BitVec.toNat_ofNat,
    Nat.zero_mod, Nat.div_eq_zero_iff]
  have := Nat.two_pow_pos k
  omega

/-- All that the operand check of `DMODE` can answer. -/
theorem decodeDmode_cases (opa : Word) :
    (opa.toNat < 2 ∧ decodeDmode opa = .ok (.dmode (directionOf (opa.getLsbD 0)))) ∨
    (2 ≤ opa.toNat ∧ decodeDmode opa = .error .reservedOperand) := by
  have h := extractLsb'_eq_zero_iff opa 1 31 (by decide)
  unfold decodeDmode
  split
  · exact .inl ⟨h.mp ‹_›, rfl⟩
  · exact .inr ⟨Nat.le_of_not_lt fun hlt => ‹¬ _› (h.mpr hlt), rfl⟩

/-- All that the operand check of `DWRITE` can answer. -/
theorem decodeDwrite_cases (opa : Word) :
    (opa.toNat < 2 ^ 8 ∧ decodeDwrite opa = .ok (.dwrite (opa.extractLsb' 0 8))) ∨
    (2 ^ 8 ≤ opa.toNat ∧ decodeDwrite opa = .error .reservedOperand) := by
  have h := extractLsb'_eq_zero_iff opa 8 24 (by decide)
  unfold decodeDwrite
  split
  · exact .inl ⟨h.mp ‹_›, rfl⟩
  · exact .inr ⟨Nat.le_of_not_lt fun hlt => ‹¬ _› (h.mpr hlt), rfl⟩

/-- The opcode map read backwards: which of the nine answers the decoder gives, and for which `CMD`. -/
theorem decode_cases (p : PortWord) :
    (p.cmd = 0x10#8 ∧ decode p = .ok .abegin) ∨ (p.cmd = 0x11#8 ∧ decode p = .ok (.aset p.opa)) ∨
    (p.cmd = 0x20#8 ∧ decode p = decodeDmode p.opa) ∨ (p.cmd = 0x21#8 ∧ decode p = .ok .dread) ∨
    (p.cmd = 0x22#8 ∧ decode p = decodeDwrite p.opa) ∨ (p.cmd = 0x30#8 ∧ decode p = .ok (.wdata p.opa p.opl)) ∨
    (p.cmd = 0x40#8 ∧ decode p = .ok .dbgrst) ∨ (p.cmd = 0x41#8 ∧ decode p = .ok .dbgprint) ∨
    (p.cmd ∉ [0x10#8, 0x11#8, 0x20#8, 0x21#8, 0x22#8, 0x30#8, 0x40#8, 0x41#8] ∧ decode p = .error .reservedCommand) := by
  unfold decode
  split_ifs <;> simp_all

/-! ### The round trip -/

/-- A value below 2 is its lowest bit, so `DMODE`'s operand is the encoding of the direction it selects. -/
theorem directionBit_directionOf {opa : Word} (h : opa.toNat < 2) :
    (BitVec.ofBool (directionBit (directionOf (opa.getLsbD 0)))).setWidth 32 = opa := by
  obtain h0 | h1 : opa = 0#32 ∨ opa = 1#32 := by
    rw [← BitVec.toNat_inj, ← BitVec.toNat_inj]
    simp only [BitVec.toNat_ofNat]
    omega
  · subst h0; rfl
  · subst h1; rfl

/-- A value below `2 ^ 8` is its low byte. -/
theorem setWidth_lowByte {opa : Word} (h : opa.toNat < 2 ^ 8) : (opa.extractLsb' 0 8).setWidth 32 = opa := by
  rw [← BitVec.toNat_inj, BitVec.toNat_setWidth, BitVec.extractLsb'_toNat, Nat.shiftRight_zero]
  have := opa.isLt
  omega

theorem decode_encode (i : Instr) : decode (encode i) = .ok i := by
  cases i with
  | abegin => rfl
  | aset a => rfl
  | dmode d => cases d <;> rfl
  | dread => rfl
  | dwrite v =>
    show decodeDwrite (v.setWidth 32) = _
    have hv : (v.setWidth 32).extractLsb' 0 8 = v := by
      rw [← BitVec.toNat_inj, BitVec.extractLsb'_toNat, BitVec.toNat_setWidth, Nat.shiftRight_zero]
      have := v.isLt
      omega
    obtain ⟨-, h⟩ | ⟨hge, -⟩ := decodeDwrite_cases (v.setWidth 32)
    · rw [h, hv]
    · rw [BitVec.toNat_setWidth] at hge
      have := v.isLt
      omega
  | wdata a l => rfl
  | dbgrst => rfl
  | dbgprint => rfl

/-- The encoding of `i` has the ports of `p` wherever the format of `i` reads them. -/
def EncodesTo (i : Instr) (p : PortWord) : Prop :=
  (encode i).cmd = p.cmd ∧ (i.readsOpa = true → (encode i).opa = p.opa) ∧ (i.readsOpl = true → (encode i).opl = p.opl)

theorem encodesTo_of_decode {p : PortWord} {i : Instr} (h : decode p = .ok i) : EncodesTo i p := by
  obtain ⟨hc, e⟩ | ⟨hc, e⟩ | ⟨hc, e⟩ | ⟨hc, e⟩ | ⟨hc, e⟩ | ⟨hc, e⟩ | ⟨hc, e⟩ | ⟨hc, e⟩ | ⟨-, e⟩ := decode_cases p <;> rw [e] at h
  case inr.inr.inl =>
    obtain ⟨hlt, e⟩ | ⟨-, e⟩ := decodeDmode_cases p.opa <;> rw [e] at h <;> cases h
    exact ⟨hc.symm, fun _ => directionBit_directionOf hlt, nofun⟩
  case inr.inr.inr.inr.inl =>
    obtain ⟨hlt, e⟩ | ⟨-, e⟩ := decodeDwrite_cases p.opa <;> rw [e] at h <;> cases h
    exact ⟨hc.symm, fun _ => setWidth_lowByte hlt, nofun⟩
  case inr.inr.inr.inr.inr.inr.inr.inr => cases h
  all_goals
    cases h
    simp [EncodesTo, encode, Instr.readsOpa, Instr.readsOpl, hc]

/-- Settles O1: one case per row of the opcode map; the two must-be-zero checks make the operand bits that `DMODE` and `DWRITE` do
not keep zero. -/
theorem encodeAndDecodeAgree : Obligations.EncodeAndDecodeAgree :=
  ⟨decode_encode, fun _ _ => encodesTo_of_decode⟩

/-! ### Reserved encodings (30_encoding.md section 4) -/

theorem decode_eq_reservedCommand_iff (p : PortWord) : decode p = .error .reservedCommand ↔
    p.cmd ∉ [0x10#8, 0x11#8, 0x20#8, 0x21#8, 0x22#8, 0x30#8, 0x40#8, 0x41#8] := by
  obtain ⟨hc, e⟩ | ⟨hc, e⟩ | ⟨hc, e⟩ | ⟨hc, e⟩ | ⟨hc, e⟩ | ⟨hc, e⟩ | ⟨hc, e⟩ | ⟨hc, e⟩ | ⟨hc, e⟩ := decode_cases p
  case inr.inr.inl => obtain ⟨-, e'⟩ | ⟨-, e'⟩ := decodeDmode_cases p.opa <;> simp [e, e', hc]
  case inr.inr.inr.inr.inl => obtain ⟨-, e'⟩ | ⟨-, e'⟩ := decodeDwrite_cases p.opa <;> simp [e, e', hc]
  case inr.inr.inr.inr.inr.inr.inr.inr => exact iff_of_true e hc
  all_goals simp [e, hc]

theorem decode_eq_reservedOperand_iff (p : PortWord) : decode p = .error .reservedOperand ↔
    (p.cmd = 0x20#8 ∧ 2 ≤ p.opa.toNat) ∨ (p.cmd = 0x22#8 ∧ 2 ^ 8 ≤ p.opa.toNat) := by
  obtain ⟨hc, e⟩ | ⟨hc, e⟩ | ⟨hc, e⟩ | ⟨hc, e⟩ | ⟨hc, e⟩ | ⟨hc, e⟩ | ⟨hc, e⟩ | ⟨hc, e⟩ | ⟨hc, e⟩ := decode_cases p
  case inr.inr.inl => obtain ⟨h, e'⟩ | ⟨h, e'⟩ := decodeDmode_cases p.opa <;> simp [e, e', hc, h]
  case inr.inr.inr.inr.inl => obtain ⟨h, e'⟩ | ⟨h, e'⟩ := decodeDwrite_cases p.opa <;> simp [e, e', hc] <;> omega
  case inr.inr.inr.inr.inr.inr.inr.inr =>
    simp only [List.mem_cons, not_or] at hc
    simp [e, hc]
  all_goals simp [e, hc]

/-- Settles O2: the decoder's answers sorted by `CMD` (`decode_cases`); the 248 is a count over the 256 values of one byte. -/
theorem reservedEncodingsExactly : Obligations.ReservedEncodingsExactly := by
  refine ⟨fun p => ?_, fun p => ?_, by decide +kernel⟩
  · rw [decode_eq_reservedCommand_iff]
    simp [← BitVec.toNat_inj]
  · rw [decode_eq_reservedOperand_iff]
    simp [← BitVec.toNat_inj]

/-- Settles O3: nine literal words, decoded by evaluation. -/
theorem writtenWordsDecode : Obligations.WrittenWordsDecode := by
  unfold Obligations.WrittenWordsDecode
  decide

end Sys2Proof

namespace Sys2Proof.Machine

/-! ### Frames of the single operations -/

/-- A DataBus command moves the DataBus unit, `RES_DATA`, the samples, the free counter and the trace only. -/
structure OnlyData (s t : State) : Prop where
  board : t.board = s.board
  profile : t.profile = s.profile
  port : t.port = s.port
  resOk : t.res.ok = s.res.ok
  addr : t.addr = s.addr
  we : t.we = s.we
  dbg : t.dbg = s.dbg
  pending : t.pending = s.pending
  inputs : t.inputs = s.inputs
  oracle : t.oracle = s.oracle

theorem onlyData_dmode (d : Direction) (s : State) : OnlyData s (dmodeRun d s).state := by
  cases d <;> constructor <;> rfl

theorem onlyData_dread (s : State) : OnlyData s (dreadRun s).state := by
  unfold dreadRun
  split <;> constructor <;> rfl

theorem onlyData_dwrite (v : Byte) (s : State) : OnlyData s (dwriteRun v s).state := by
  unfold dwriteRun
  split <;> constructor <;> rfl

/-- What a hardware reset leaves, be it between commands or inside one (10_state.md R53, 70_reset_and_hazards.md R230 to R232). -/
structure ResetFrom (s t : State) : Prop where
  begun : t.addr.aBegun = false
  pins : t.addr.pinsOut = false
  mode : t.data.mode = .unconf
  busy : t.we.busy = false
  pending : t.pending = .idle
  board : t.board = s.board
  profile : t.profile = s.profile
  buf : t.port.buf = s.port.buf
  inputs : t.inputs = s.inputs

theorem resetFrom_hardReset (s : State) : ResetFrom s (hardReset s) := by constructor <;> rfl

theorem resetFrom_cutAt (n : Nat) (s v : State) : ResetFrom s (cutAt n s v) := by constructor <;> rfl

theorem hardReset_trace (s : State) : (hardReset s).trace = s.trace ++ [.hardwareReset] := rfl

theorem cutAt_trace (n : Nat) (s v : State) :
    (cutAt n s v).trace = s.trace ++ (eventsSince s v).take n ++ [.hardwareReset] := rfl

/-! ### What a step can do -/

theorem runCut_next {n : Nat} {i : Instr} {s t : State} (h : runCut n i s = .next t) : t = cutAt n s (instrRun i s).state := by
  unfold runCut at h
  rcases hr : instrRun i s with v | v | ⟨why, v⟩ <;> rw [hr] at h <;> dsimp only at h
  · cases h; rfl
  · cases h; rfl
  · split at h <;> cases h
    rfl

/-- All that a step which goes on can be: the idle core's, a started command's, or a reset inside one (30_encoding.md R100,
70_reset_and_hazards.md R232). -/
theorem step_next {s t : State} (h : step s = .next t) :
    (s.pending = .idle ∧ t = idleStep s) ∨
    (∃ i, s.pending = .command ∧ decode s.portWord = .ok i ∧ exec i s.taken = .next t) ∨
    ∃ n i, s.pending = .commandCutAt n ∧ t = cutAt n s.taken (instrRun i s.taken).state := by
  unfold step at h
  rcases hp : s.pending with _ | _ | n <;> rw [hp] at h <;> dsimp only at h
  · cases h
    exact .inl ⟨rfl, rfl⟩
  · rcases hd : decode s.portWord with e | i <;> rw [hd] at h
    · cases h
    · exact .inr (.inl ⟨i, rfl, rfl, h⟩)
  · rcases hd : decode s.portWord with e | i <;> rw [hd] at h
    · cases h
    · exact .inr (.inr ⟨n, i, rfl, runCut_next h⟩)

/-- All that the idle core's step can be: it waits, takes a command, is reset, or a debug register is written. -/
theorem idleStep_cases (s : State) :
    idleStep s = s ∨
    (∃ rest p pend, idleStep s = { s with inputs := rest, pending := pend, port := p } ∧ p.buf.wf = true) ∨
    (∃ rest, s.inputs = .reset :: rest ∧ idleStep s = hardReset { s with inputs := rest }) ∨
    ∃ rest d, idleStep s = { s with inputs := rest, dbg := d } := by
  unfold idleStep
  split
  · exact .inl rfl
  · rename_i x rest hx
    cases x with
    | issue p bytes => exact .inr (.inl ⟨rest, _, _, rfl, Memory.wf_place bytes⟩)
    | issueCutAt n p bytes => exact .inr (.inl ⟨rest, _, _, rfl, Memory.wf_place bytes⟩)
    | reset => exact .inr (.inr (.inl ⟨rest, hx, rfl⟩))
    | debug r v => exact .inr (.inr (.inr ⟨rest, _, rfl⟩))

/-! ### What every piece keeps, every command keeps -/

/-- Nothing fails but a primitive call of a `WDATA` (60_exceptions.md R201). -/
theorem instrRun_ne_failed {i : Instr} (hi : isWdata i = false) (s v : State) : instrRun i s ≠ .failed v := by
  intro h
  cases i with
  | abegin => rcases abeginRun_cases s with ⟨-, e⟩ | ⟨-, e⟩ <;> rw [instrRun, e] at h <;> cases h
  | aset a => rcases asetRun_cases a s with ⟨-, e⟩ | ⟨-, -, e⟩ | ⟨-, -, e⟩ <;> rw [instrRun, e] at h <;> cases h
  | dmode d => cases d <;> cases h
  | dread =>
    by_cases hm : s.data.mode = .input
    · rw [instrRun, dreadRun_input hm] at h; cases h
    · rw [instrRun, dreadRun_other hm] at h; cases h
  | dwrite x =>
    by_cases hm : s.data.mode = .output
    · rw [instrRun, dwriteRun_output x hm] at h; cases h
    · rw [instrRun, dwriteRun_other x hm] at h; cases h
  | wdata a l => cases hi
  | dbgrst => cases h
  | dbgprint => cases h

/-- A command other than `WDATA` ends where its run goes. -/
theorem instrRun_of_next {i : Instr} {s t : State} (hi : isWdata i = false) (h : exec i s = .next t) : instrRun i s = .going t := by
  rw [exec_eq_finish] at h
  obtain h | ⟨v, hv, -⟩ := finish_eq_next.mp h
  · exact h
  · exact absurd hv (instrRun_ne_failed hi s v)

/-- What a command other than `WDATA` leaves unchanged (10_state.md R54); each of the last four has one writer. -/
structure CommandFrame (i : Instr) (s t : State) : Prop where
  board : t.board = s.board
  profile : t.profile = s.profile
  port : t.port = s.port
  we : t.we = s.we
  pending : t.pending = s.pending
  inputs : t.inputs = s.inputs
  resOk : t.res.ok = s.res.ok
  resData : i ≠ .dread → t.res.data = s.res.data
  dbg : i ≠ .dbgrst → t.dbg = s.dbg
  begun : i ≠ .abegin → t.addr.aBegun = s.addr.aBegun
  mode : (∀ d, i ≠ .dmode d) → t.data.mode = s.data.mode

theorem exec_frame {i : Instr} {s t : State} (hi : isWdata i = false) (h : exec i s = .next t) : CommandFrame i s t := by
  have h := instrRun_of_next hi h
  cases i with
  | abegin =>
    rcases abeginRun_cases s with ⟨-, e⟩ | ⟨-, e⟩ <;> rw [instrRun, e] at h <;> cases h
    constructor <;> simp
  | aset a =>
    obtain ⟨-, -, rfl⟩ := asetRun_going h
    obtain ⟨u, n, es, e, hb, -⟩ := onlyAddr_present a s
    rw [e]
    constructor <;> simp [hb]
  | dmode d => cases d <;> cases h <;> constructor <;> simp
  | dread =>
    by_cases hm : s.data.mode = .input
    · rw [instrRun, dreadRun_input hm] at h
      cases h
      constructor <;> simp
    · rw [instrRun, dreadRun_other hm] at h
      cases h
  | dwrite v =>
    by_cases hm : s.data.mode = .output
    · rw [instrRun, dwriteRun_output v hm] at h
      cases h
      constructor <;> simp [hm]
    · rw [instrRun, dwriteRun_other v hm] at h
      cases h
  | wdata a l => cases hi
  | dbgrst => cases h; constructor <;> simp
  | dbgprint => cases h; constructor <;> simp

/-- A relation from a state to a later one that every piece of every command keeps. -/
structure KeptCommand (R : State → State → Prop) : Prop extends Kept R where
  abegin : ∀ s, R s (abeginRun s).state
  report : ∀ s, R s (s.emit [.report s.dbg])
  endWrite : ∀ ok s, R s (endWrite ok s)

/-- What every piece of every command keeps, every command keeps. -/
theorem KeptCommand.exec {R : State → State → Prop} (k : KeptCommand R) {i : Instr} {s t : State} (h : exec i s = .next t) :
    R s t := by
  cases hi : isWdata i with
  | true =>
    cases i with
    | wdata a l => exact k.toKept.wdata k.endWrite h
    | _ => cases hi
  | false =>
    have e : t = (instrRun i s).state := by rw [instrRun_of_next hi h]; rfl
    rw [e]
    cases i with
    | abegin => exact k.abegin s
    | aset a => exact kept_aset k.refl k.present a s
    | dmode d => exact k.dmode d s
    | dread => exact k.dread s
    | dwrite v => exact k.dwrite v s
    | wdata a l => cases hi
    | dbgrst => exact k.dbg _ s
    | dbgprint => exact k.report s

/-! ### What no command changes (10_state.md sections 7 and 9) -/

/-- What a `WDATA` that ends leaves alone, whatever its primitives do. -/
structure WriteFrame (s t : State) : Prop where
  board : t.board = s.board
  profile : t.profile = s.profile
  buf : t.port.buf = s.port.buf
  opl : t.port.opl = s.port.opl
  begun : t.addr.aBegun = s.addr.aBegun
  pending : t.pending = s.pending
  inputs : t.inputs = s.inputs

theorem execWdata_frame {a l : Word} {s t : State} (h : execWdata a l s = .next t) : WriteFrame s t := by
  obtain ⟨v, es, hf, ht, -⟩ := execWdata_cases h
  rw [ht]
  exact ⟨hf.board, hf.profile, hf.buf, hf.opl, hf.begun, hf.pending, hf.inputs⟩

/-- What no command changes. -/
structure ConfigFrame (s t : State) : Prop where
  board : t.board = s.board
  profile : t.profile = s.profile
  buf : t.port.buf = s.port.buf
  pending : t.pending = s.pending
  inputs : t.inputs = s.inputs

theorem exec_config {i : Instr} {s t : State} (h : exec i s = .next t) : ConfigFrame s t := by
  cases hi : isWdata i with
  | true =>
    cases i with
    | wdata a l =>
      have hf := execWdata_frame h
      exact ⟨hf.board, hf.profile, hf.buf, hf.pending, hf.inputs⟩
    | _ => cases hi
  | false =>
    have hf := exec_frame hi h
    exact ⟨hf.board, hf.profile, congrArg Port.buf hf.port, hf.pending, hf.inputs⟩

/-! ### The invariant of the machine (40_address_bus.md R119) -/

/-- The part of the invariant that speaks of the board and the AddressBus unit. -/
structure State.AddressInv (s : State) : Prop where
  board : s.board.wf = true
  addr : s.addr.Inv s.board

theorem State.AddressInv.congr {s t : State} (h : s.AddressInv) (hb : t.board = s.board) (ha : t.addr = s.addr) : t.AddressInv := by
  refine ⟨hb ▸ h.board, ?_⟩
  rw [ha, hb]
  exact h.addr

theorem OnlyData.addressInv {s t : State} (h : OnlyData s t) (hs : s.AddressInv) : t.AddressInv := hs.congr h.board h.addr

theorem addressInv_abegin (s : State) (hs : s.AddressInv) : (abeginRun s).state.AddressInv := by
  rcases abeginRun_cases s with ⟨-, e⟩ | ⟨-, e⟩ <;> rw [e]
  · exact ⟨hs.board, begun_inv s.board s.addr⟩
  · exact hs

theorem addressInv_present (a : Word) (s : State) (hb : s.addr.aBegun = true) (hs : s.AddressInv) : (present a s).AddressInv := by
  have hp := present_presents a s hs.board hs.addr hb
  rw [(onlyAddr_present a s).frame]
  exact ⟨hs.board, hp.inv⟩

/-- Every piece of every command keeps 40_address_bus.md R119. -/
theorem addressInv_kept : KeptCommand fun s t => s.AddressInv → t.AddressInv where
  refl _ := id
  trans _ _ _ h h' hs := h' (h hs)
  present a s hb _ := addressInv_present a s hb
  dmode d s := (onlyData_dmode d s).addressInv
  dread s := (onlyData_dread s).addressInv
  dwrite v s := (onlyData_dwrite v s).addressInv
  issue _ _ hs := hs.congr rfl rfl
  dbg _ _ hs := hs.congr rfl rfl
  we _ _ hs := hs.congr rfl rfl
  callOut _ _ _ hs := hs.congr rfl rfl
  ret _ _ hs := hs.congr rfl rfl
  abegin := addressInv_abegin
  report _ hs := hs.congr rfl rfl
  endWrite _ _ hs := hs.congr rfl rfl

/-- The write engine is idle at the end of a command that found it idle (10_state.md R38): a `WDATA` writes `WE_BUSY` at its end,
no other command writes it. -/
theorem exec_idle {i : Instr} {s t : State} (hs : s.we.busy = false) (h : exec i s = .next t) : t.we.busy = false := by
  cases hi : isWdata i with
  | false => rw [(exec_frame hi h).we, hs]
  | true =>
    cases i with
    | wdata a l => obtain ⟨-, ⟨v, -, rfl⟩ | ⟨v, -, rfl⟩⟩ := execWdata_next h <;> rfl
    | _ => cases hi

theorem exec_keeps_inv {i : Instr} {s t : State} (hs : s.Inv) (h : exec i s = .next t) : t.Inv := by
  obtain ⟨hboard, haddr⟩ := addressInv_kept.exec h ⟨hs.board, hs.addr⟩
  exact ⟨hboard, haddr, by rw [(exec_config h).buf]; exact hs.buf, exec_idle hs.idle h⟩

/-- A hardware reset establishes the invariant: `A_BEGUN` and the pins are off, so 40_address_bus.md R119 says nothing yet. -/
theorem ResetFrom.inv {s t : State} (h : ResetFrom s t) (hs : s.Inv) : t.Inv where
  board := h.board ▸ hs.board
  addr := ⟨fun _ => h.pins, fun hb => by simp [h.begun] at hb⟩
  buf := h.buf ▸ hs.buf
  idle := h.busy

theorem idleStep_keeps_inv {s : State} (hs : s.Inv) : (idleStep s).Inv := by
  obtain e | ⟨rest, p, pend, e, hp⟩ | ⟨rest, -, e⟩ | ⟨rest, d, e⟩ := idleStep_cases s <;> rw [e]
  · exact hs
  · exact ⟨hs.board, hs.addr, hp, hs.idle⟩
  · exact (resetFrom_hardReset _).inv ⟨hs.board, hs.addr, hs.buf, hs.idle⟩
  · exact ⟨hs.board, hs.addr, hs.buf, hs.idle⟩

/-- Settles O46: the three kinds of step. Inside a command the invariant of the address unit is kept piece by piece
(`addressInv_kept`); a reset, where it comes, establishes it anew. -/
theorem everyStepKeepsTheInvariant : Obligations.EveryStepKeepsTheInvariant := by
  intro s t hs h
  have htaken : s.taken.Inv := ⟨hs.board, hs.addr, hs.buf, hs.idle⟩
  obtain ⟨-, rfl⟩ | ⟨i, -, -, hi⟩ | ⟨n, i, -, rfl⟩ := step_next h
  · exact idleStep_keeps_inv hs
  · exact exec_keeps_inv htaken hi
  · exact (resetFrom_cutAt n _ _).inv htaken

/-- Settles O47: the maps of the reset board are checked pin by pin; nothing else is driven yet. -/
theorem resetMeetsTheInvariant : Obligations.ResetMeetsTheInvariant where
  board := by decide
  addr := ⟨fun _ => rfl, nofun⟩
  buf := rfl
  idle := rfl

/-- Settles O48: the fields of the state named reset. -/
theorem resetValues : Obligations.ResetValues := ⟨rfl, rfl, rfl, rfl, rfl⟩

end Sys2Proof.Machine

namespace Sys2Proof.Machine

/-! ### The step around a command (30_encoding.md section 1) -/

theorem step_command {s : State} {i : Instr} (hp : s.pending = .command) (hd : decode s.portWord = .ok i) :
    step s = exec i s.taken := by
  simp only [step, hp, hd]

theorem step_reserved {s : State} {e : DecodeError} (hp : s.pending = .command) (hd : decode s.portWord = .error e) :
    step s = .refused (refusalOf e) := by
  simp only [step, hp, hd]

theorem step_cut {s : State} {n : Nat} {i : Instr} (hp : s.pending = .commandCutAt n) (hd : decode s.portWord = .ok i) :
    step s = runCut n i s.taken := by
  simp only [step, hp, hd]

theorem step_idle {s : State} (hp : s.pending = .idle) : step s = .next (idleStep s) := by
  simp only [step, hp]

theorem idleStep_cons {s : State} {x : Input} {rest : List Input} (h : s.inputs = x :: rest) :
    idleStep s = applyInput x { s with inputs := rest } := by
  simp only [idleStep, h]

theorem decodeTableWord_eq_some {n w : Nat} {i : Instr} : decodeTableWord n w = some i ↔ decode (portWordOfNat n w) = .ok i := by
  unfold decodeTableWord
  cases decode (portWordOfNat n w) <;> simp

/-- Settles O4: the started branch of the step, with and without a decoded command; a placed word stands on the ports of
`withFetchWord`. -/
theorem stepRunsTheStartedCommand : Obligations.StepRunsTheStartedCommand :=
  ⟨fun _ _ hp hd => step_command hp hd, fun _ _ hp hd => step_reserved hp hd,
    fun s n w _ hd => step_command (s := s.withFetchWord n w) rfl (decodeTableWord_eq_some.mp hd)⟩

/-- A collaborator's write, register by register. -/
theorem put_eq (r : DebugReg) (v : Word) (d : Debug) : d.put r v =
    { blkcnt := d.blkcnt
      lastAddr := if r = .lastAddr then v else d.lastAddr
      lastExp := if r = .lastExp then v.extractLsb' 0 8 else d.lastExp
      lastRb := if r = .lastRb then v.extractLsb' 0 8 else d.lastRb
      dup := if r = .dup then v else d.dup
      extra := if r = .extra then v else d.extra
      sync := if r = .sync then v else d.sync } := by
  have hlow : v.setWidth 8 = v.extractLsb' 0 8 := by
    rw [← BitVec.toNat_inj, BitVec.toNat_setWidth, BitVec.extractLsb'_toNat, Nat.shiftRight_zero]
  cases r <;> simp [Debug.put, hlow]

/-- Settles O5: the idle core's step, input by input; a placed buffer reads back byte by byte. -/
theorem idleCoreWaitsForTheHost : Obligations.IdleCoreWaitsForTheHost := by
  refine ⟨fun s hp hi => ?_, fun s p bytes rest hp hi => ?_, fun s n p bytes rest hp hi => ?_, fun s r v rest hp hi => ?_⟩
  · rw [step_idle hp]
    simp only [idleStep, hi]
  · rw [step_idle hp, idleStep_cons hi]
    exact ⟨_, rfl, rfl, rfl, rfl, rfl, rfl, Memory.read_place bytes, rfl⟩
  · rw [step_idle hp, idleStep_cons hi]
    exact ⟨_, rfl, rfl, rfl, rfl, rfl, rfl, Memory.read_place bytes, rfl⟩
  · rw [step_idle hp, idleStep_cons hi, applyInput, put_eq]
    rfl

/-! ### Hardware reset (70_reset_and_hazards.md section 1) -/

/-- Settles O49: the reset at the head of the inputs is taken by the idle core. -/
theorem hardwareResetBetweenCommands : Obligations.HardwareResetBetweenCommands := by
  intro s rest hp hi
  have h := resetFrom_hardReset { s with inputs := rest }
  exact ⟨hardReset { s with inputs := rest }, by rw [step_idle hp, idleStep_cons hi, applyInput], h.begun, h.pins, h.mode, h.busy,
    h.pending, h.inputs, hardReset_trace _, h.board, h.profile, h.buf, rfl, rfl⟩

/-- A reset wins over all that would come after it (60_exceptions.md R204). -/
theorem runCut_wins {n : Nat} {i : Instr} {s : State}
    (h : ∀ why v, instrRun i s = .stopped why v → n ≤ (eventsSince s v).length) :
    runCut n i s = .next (cutAt n s (instrRun i s).state) := by
  unfold runCut
  rcases hr : instrRun i s with v | v | ⟨why, v⟩
  · rfl
  · rfl
  · exact if_neg (Nat.not_lt.mpr (h why v hr))

/-- An undefined point met before the cut is refused as it is without one. -/
theorem runCut_refused {n : Nat} {i : Instr} {s v : State} {why : Refusal} (hr : instrRun i s = .stopped why v)
    (h : (eventsSince s v).length < n) : runCut n i s = .refused why := by
  unfold runCut
  rw [hr]
  exact if_pos h

/-- Settles O50: the cut is a reset from the state with the first `n` events shown; which side of the undefined point it falls on
is a count of events. -/
theorem hardwareResetInsideACommand : Obligations.HardwareResetInsideACommand := by
  refine ⟨exec_eq_finish, fun s n i hp hd hwins => ?_, fun s v n i why hp hd hr hlt => ?_⟩
  · have h := resetFrom_cutAt n s.taken (instrRun i s.taken).state
    refine ⟨_, (step_cut hp hd).trans (runCut_wins hwins), h.begun, h.pins, h.mode, h.busy, h.pending, h.board, h.profile, h.buf,
      h.inputs, ?_⟩
    rw [cutAt_trace, List.append_assoc]
    rfl
  · exact (step_cut hp hd).trans (runCut_refused hr hlt)

/-! ### The configuration (10_state.md section 7) -/

/-- No input between commands changes the board or the profile. -/
theorem idleStep_board_profile (s : State) : (idleStep s).board = s.board ∧ (idleStep s).profile = s.profile := by
  obtain e | ⟨rest, p, pend, e, -⟩ | ⟨rest, -, e⟩ | ⟨rest, d, e⟩ := idleStep_cases s <;> rw [e] <;> exact ⟨rfl, rfl⟩

/-- Settles O43: the three kinds of step, and the frames of the commands. -/
theorem configurationNeverChanges : Obligations.ConfigurationNeverChanges := by
  refine ⟨fun s t h => ?_, fun s t i h => ?_⟩
  · obtain ⟨-, rfl⟩ | ⟨i, -, -, hi⟩ | ⟨n, i, -, rfl⟩ := step_next h
    · exact idleStep_board_profile s
    · exact ⟨(exec_config hi).board, (exec_config hi).profile⟩
    · exact ⟨rfl, rfl⟩
  · have hf := exec_config h
    exact ⟨hf.buf, fun hi => (exec_frame hi h).port, hf.inputs, hf.pending⟩

/-! ### What the scripted primitives decide (42_write_engine.md R165) -/

/-- A relation that the engine's own acts keep, and every act of an answer with the property `P`. -/
structure KeptQuietly (P : Answer → Prop) (Q : State → State → Prop) : Prop where
  refl : ∀ s, Q s s
  trans : ∀ s t v, Q s t → Q t v → Q s v
  present : ∀ a s, Q s (present a s)
  count : ∀ s, Q s s.countBlock
  we : ∀ w s, Q s (s.setWe w)
  callOut : ∀ c s, Q s (s.callOut c)
  ret : ∀ b s, Q s (s.emit [.ret b])
  endWrite : ∀ ok s, Q s (endWrite ok s)
  act : ∀ x, P x → ∀ y ∈ x.acts, ∀ s, Q s (actRun y s).state

theorem KeptQuietly.wdata {P : Answer → Prop} {Q : State → State → Prop} (k : KeptQuietly P Q) {a l : Word} {s t : State}
    (h : execWdata a l s = .next t) (hlen : (writePlan s a l).length ≤ s.oracle.length)
    (hp : ∀ x ∈ s.oracle.take (writePlan s a l).length, P x) : Q s t :=
  KeptScripted.wdata
    { refl := k.refl, trans := k.trans, present := k.present, count := k.count, we := k.we
      call := fun c s x rest ho hx => callPrimitive_scripted k.refl k.trans k.callOut k.ret c s x rest ho (k.act x hx) }
    k.endWrite h hlen hp

/-! ### The writers of RES_OK, RES_DATA and D_MODE (10_state.md R32, R36) -/

/-- Over a piece of a command `RES_DATA` moves only with a sample of the lines, and `D_MODE` only with a switch of the data pins
to the mode it ends in. -/
def Announced (s t : State) : Prop :=
  ∃ es, t.trace = s.trace ++ es ∧ ((∀ e ∈ es, e.isSample = false) → t.res.data = s.res.data) ∧
    (t.data.mode = s.data.mode ∨ .dataMode t.data.mode ∈ es)

theorem announced_of_eq {s t : State} {es : List Event} (ht : t.trace = s.trace ++ es) (hr : t.res.data = s.res.data)
    (hm : t.data.mode = s.data.mode) : Announced s t := ⟨es, ht, fun _ => hr, .inl hm⟩

theorem Announced.trans {s t v : State} (h : Announced s t) (h' : Announced t v) : Announced s v := by
  obtain ⟨es, ht, hr, hm⟩ := h
  obtain ⟨es', ht', hr', hm'⟩ := h'
  refine ⟨es ++ es', by rw [ht', ht, List.append_assoc], fun hq => ?_, ?_⟩
  · rw [hr' fun e he => hq e (List.mem_append_right _ he), hr fun e he => hq e (List.mem_append_left _ he)]
  · rcases hm' with e | hin
    · rw [e]
      exact hm.imp_right (List.mem_append_left _)
    · exact .inr (List.mem_append_right _ hin)

theorem announced_present (a : Word) (s : State) : Announced s (present a s) := by
  obtain ⟨u, n, es, e, -, -⟩ := onlyAddr_present a s
  rw [e]
  exact announced_of_eq rfl rfl rfl

theorem announced_dmode (d : Direction) (s : State) : Announced s (dmodeRun d s).state := by
  cases d
  · exact ⟨[.dataMode .input], rfl, fun _ => rfl, .inr (List.mem_cons_self ..)⟩
  · exact ⟨[.dataMode .output], rfl, fun _ => rfl, .inr (List.mem_cons_self ..)⟩

theorem announced_dread (s : State) : Announced s (dreadRun s).state := by
  by_cases hm : s.data.mode = .input
  · rw [dreadRun_input hm]
    exact ⟨[.sample s.nextEnv], rfl, fun hq => absurd (hq _ (List.mem_cons_self ..)) (by simp [Event.isSample]), .inl rfl⟩
  · rw [dreadRun_other hm]
    exact announced_of_eq (List.append_nil _).symm rfl rfl

theorem announced_dwrite (v : Byte) (s : State) : Announced s (dwriteRun v s).state := by
  by_cases hm : s.data.mode = .output
  · rw [dwriteRun_output v hm]
    exact announced_of_eq rfl rfl hm.symm
  · rw [dwriteRun_other v hm]
    exact announced_of_eq (List.append_nil _).symm rfl rfl

theorem announced_abegin (s : State) : Announced s (abeginRun s).state := by
  rcases abeginRun_cases s with ⟨-, e⟩ | ⟨-, e⟩ <;> rw [e]
  · exact announced_of_eq rfl rfl rfl
  · exact announced_of_eq (List.append_nil _).symm rfl rfl

theorem announced_kept : KeptCommand Announced where
  refl _ := announced_of_eq (List.append_nil _).symm rfl rfl
  trans _ _ _ := Announced.trans
  present a s _ _ := announced_present a s
  dmode := announced_dmode
  dread := announced_dread
  dwrite := announced_dwrite
  issue _ _ := announced_of_eq (List.append_nil _).symm rfl rfl
  dbg _ _ := announced_of_eq (List.append_nil _).symm rfl rfl
  we _ _ := announced_of_eq (List.append_nil _).symm rfl rfl
  callOut _ _ _ := announced_of_eq rfl rfl rfl
  ret _ _ := announced_of_eq rfl rfl rfl
  abegin := announced_abegin
  report _ := announced_of_eq rfl rfl rfl
  endWrite _ _ := announced_of_eq (List.append_nil _).symm rfl rfl

/-- `announced_kept` for a whole command, in the terms of its events. -/
theorem exec_announced {i : Instr} {s t : State} (h : exec i s = .next t) :
    ((∀ e ∈ eventsSince s t, e.isSample = false) → t.res.data = s.res.data) ∧
    (t.data.mode = s.data.mode ∨ .dataMode t.data.mode ∈ eventsSince s t) := by
  obtain ⟨es, ht, hr, hm⟩ := announced_kept.exec h
  rw [eventsSince_of_append ht]
  exact ⟨hr, hm⟩

/-- The frame of `ASET`, legal or not. -/
theorem onlyAddr_aset (a : Word) (s : State) : OnlyAddr s (asetRun a s).state :=
  kept_aset OnlyAddr.refl (fun a s _ _ => onlyAddr_present a s) a s

/-- An act other than a `DREAD` leaves `RES_DATA`. -/
theorem actRun_keeps_resData {y : PrimAct} (hy : y ≠ .bus .dread) (s : State) : (actRun y s).state.res.data = s.res.data := by
  cases y with
  | debug r v => rfl
  | bus c =>
    cases c with
    | aset a => exact congrArg (·.res.data) (onlyAddr_aset a (s.issue (.aset a))).frame
    | dmode d => cases d <;> rfl
    | dread => exact absurd rfl hy
    | dwrite v =>
      by_cases hm : (s.issue (.dwrite v)).data.mode = .output
      · rw [actRun, busRun, dwriteRun_output v hm]
        rfl
      · rw [actRun, busRun, dwriteRun_other v hm]
        rfl

theorem resData_keptQuietly : KeptQuietly (fun x => Answer.reads x = false) fun s t => t.res.data = s.res.data where
  refl _ := rfl
  trans _ _ _ h h' := h'.trans h
  present a s := by rw [(onlyAddr_present a s).frame]
  count _ := rfl
  we _ _ := rfl
  callOut _ _ := rfl
  ret _ _ := rfl
  endWrite _ _ := rfl
  act x hx y hy s := actRun_keeps_resData (by simpa using List.any_eq_false.mp hx y hy) s

/-- Settles O44: outside a `WDATA` the frames name the writers; inside one, `RES_DATA` moves only with a sample, and the script
says whether there is a `DREAD`. -/
theorem resultFlagsHaveTheirWriters : Obligations.ResultFlagsHaveTheirWriters :=
  ⟨fun _ _ _ h => ⟨fun hi => ⟨(exec_frame hi h).resOk, (exec_frame hi h).resData⟩, (exec_announced h).1⟩,
    fun _ _ _ _ => resData_keptQuietly.wdata⟩

/-- An act other than a `DMODE` leaves `D_MODE`. -/
theorem actRun_keeps_mode {y : PrimAct} (hy : ∀ d, y ≠ .bus (.dmode d)) (s : State) :
    (actRun y s).state.data.mode = s.data.mode := by
  cases y with
  | debug r v => rfl
  | bus c =>
    cases c with
    | aset a => exact congrArg (·.data.mode) (onlyAddr_aset a (s.issue (.aset a))).frame
    | dmode d => exact absurd rfl (hy d)
    | dread =>
      by_cases hm : (s.issue .dread).data.mode = .input
      · rw [actRun, busRun, dreadRun_input hm]
        rfl
      · rw [actRun, busRun, dreadRun_other hm]
        rfl
    | dwrite v =>
      by_cases hm : (s.issue (.dwrite v)).data.mode = .output
      · rw [actRun, busRun, dwriteRun_output v hm]
        exact hm.symm
      · rw [actRun, busRun, dwriteRun_other v hm]
        rfl

theorem mode_keptQuietly : KeptQuietly (fun x => Answer.setsMode x = false) fun s t => t.data.mode = s.data.mode where
  refl _ := rfl
  trans _ _ _ h h' := h'.trans h
  present a s := by rw [(onlyAddr_present a s).frame]
  count _ := rfl
  we _ _ := rfl
  callOut _ _ := rfl
  ret _ _ := rfl
  endWrite _ _ := rfl
  act x hx y hy s := actRun_keeps_mode (fun d hd => List.any_eq_false.mp hx _ (hd ▸ hy) rfl) s

/-- Only `ABEGIN` moves `A_BEGUN` (10_state.md R22). -/
theorem exec_begun {i : Instr} {s t : State} (h : exec i s = .next t) (hne : t.addr.aBegun ≠ s.addr.aBegun) : i = .abegin := by
  cases hi : isWdata i with
  | true =>
    cases i with
    | wdata a l => exact absurd (execWdata_frame h).begun hne
    | _ => cases hi
  | false =>
    by_contra hab
    exact hne ((exec_frame hi h).begun hab)

/-- `ABEGIN` ends with `A_BEGUN = 1`. -/
theorem exec_abegin_begun {s t : State} (h : exec .abegin s = .next t) : t.addr.aBegun = true := by
  have h := instrRun_of_next rfl h
  rcases abeginRun_cases s with ⟨-, e⟩ | ⟨-, e⟩ <;> rw [instrRun, e] at h <;> cases h
  exact begun_aBegun ..

/-- A command that moves `D_MODE` is a `DMODE`, or a `WDATA` that showed the switch. -/
theorem exec_mode {i : Instr} {s t : State} (h : exec i s = .next t) (hne : t.data.mode ≠ s.data.mode) :
    (∃ d, i = .dmode d ∧ t.data.mode = modeOf d) ∨ (isWdata i = true ∧ .dataMode t.data.mode ∈ eventsSince s t) := by
  cases hi : isWdata i with
  | true => exact .inr ⟨rfl, (exec_announced h).2.resolve_left hne⟩
  | false =>
    by_cases hd : ∃ d, i = .dmode d
    · obtain ⟨d, rfl⟩ := hd
      refine .inl ⟨d, rfl, ?_⟩
      cases d <;> cases h <;> rfl
    · exact absurd ((exec_frame hi h).mode fun d e => hd ⟨d, e⟩) hne

/-- The idle core moves `A_BEGUN` and `D_MODE` by a reset only. -/
theorem idleStep_flags {s : State} (hp : s.pending = .idle) :
    ((idleStep s).addr.aBegun = s.addr.aBegun ∧ (idleStep s).data.mode = s.data.mode) ∨
    ((idleStep s).addr.aBegun = false ∧ wasReset s (idleStep s)) := by
  obtain e | ⟨rest, p, pend, e, -⟩ | ⟨rest, hi, e⟩ | ⟨rest, d, e⟩ := idleStep_cases s <;> rw [e]
  · exact .inl ⟨rfl, rfl⟩
  · exact .inl ⟨rfl, rfl⟩
  · refine .inr ⟨(resetFrom_hardReset _).begun, .inl ⟨hp, rest, hi⟩, [], ?_⟩
    rw [hardReset_trace, List.append_nil]
  · exact .inl ⟨rfl, rfl⟩

theorem wasReset_cutAt {s v : State} {n : Nat} (hp : s.pending = .commandCutAt n) : wasReset s (cutAt n s.taken v) :=
  ⟨.inr ⟨n, hp⟩, _, cutAt_trace n s.taken v⟩

/-- Settles O45: for each kind of step, who moves the two flags; inside a `WDATA` the trace announces a new `D_MODE`, and the
script says whether there is a `DMODE`. -/
theorem modeFlagsHaveTheirWriters : Obligations.ModeFlagsHaveTheirWriters := by
  refine ⟨fun s t h => ?_, fun _ _ _ _ => mode_keptQuietly.wdata⟩
  obtain ⟨hp, rfl⟩ | ⟨i, hp, hd, hi⟩ | ⟨n, i, hp, rfl⟩ := step_next h
  · obtain ⟨hb, hm⟩ | ⟨hb, hr⟩ := idleStep_flags hp
    · exact ⟨fun h0 h1 => by simp [hb, h0] at h1, fun h1 h0 => by simp [hb, h1] at h0, fun hne => absurd hm hne⟩
    · exact ⟨fun _ h1 => by simp [hb] at h1, fun _ _ => hr, fun _ => .inl hr⟩
  · refine ⟨fun h0 h1 => ?_, fun h1 h0 => ?_, fun hne => .inr ⟨i, hp, hd, exec_mode (s := s.taken) hi hne⟩⟩
    · obtain rfl := exec_begun hi (by simp [h0, h1])
      exact ⟨hp, hd⟩
    · obtain rfl := exec_begun hi (by simp [h0, h1])
      simp [exec_abegin_begun hi] at h0
  · have hr := wasReset_cutAt (v := (instrRun i s.taken).state) hp
    exact ⟨fun _ h1 => by simp [(resetFrom_cutAt n _ _).begun] at h1, fun _ _ => hr, fun _ => .inl hr⟩

/-! ### The frame of WDATA (10_state.md section 9) -/

/-- What moves while the primitives only answer: the AddressBus unit, the engine, the counter of calls, the answers. -/
structure QuietFrame (s t : State) : Prop where
  port : t.port = s.port
  data : t.data = s.data
  resData : t.res.data = s.res.data
  env : t.env = s.env
  dbg : t.dbg = { s.dbg with blkcnt := t.dbg.blkcnt }

theorem quietFrame_keptQuietly : KeptQuietly (fun x => Answer.quiet x = true) QuietFrame where
  refl _ := by constructor <;> rfl
  trans _ _ _ h h' := ⟨h'.port.trans h.port, h'.data.trans h.data, h'.resData.trans h.resData, h'.env.trans h.env, by
    rw [h'.dbg, h.dbg]⟩
  present a s := by
    rw [(onlyAddr_present a s).frame]
    constructor <;> rfl
  count _ := by constructor <;> rfl
  we _ _ := by constructor <;> rfl
  callOut _ _ := by constructor <;> rfl
  ret _ _ := by constructor <;> rfl
  endWrite _ _ := by constructor <;> rfl
  act x hx y hy _ := by
    rw [List.isEmpty_iff.mp hx] at hy
    cases hy

/-- Settles O37: the frame of the engine holds whatever the primitives do; the rest is kept where the scripted answers have no
acts. -/
theorem wdataFrame : Obligations.WdataFrame := by
  refine ⟨fun s t a l h => ?_, fun s t a l hlen hq h => ?_⟩
  · have hf := execWdata_frame h
    refine ⟨hf.buf, hf.opl, hf.begun, ?_⟩
    rw [← hf.board, ← hf.profile, ← hf.pending, ← hf.inputs]
  · obtain ⟨hport, hdata, hres, henv, hdbg⟩ := quietFrame_keptQuietly.wdata h hlen (List.all_eq_true.mp hq)
    obtain ⟨v, es, hf, ht, htrace, -⟩ := execWdata_cases h
    refine ⟨hport, hdata, hres, henv, hdbg, ?_⟩
    rw [eventsSince_of_append htrace, ht]
    exact hf.oracle

end Sys2Proof.Machine

namespace Sys2Proof.Machine

/-! ### Two runs: what every piece respects, every command respects -/

/-- A relation between states that every piece of every command but the two diagnostics respects. -/
structure RespectedCommand (E : State → State → Prop) : Prop extends Respected E where
  abegin : ∀ s t, E s t → Run.Related E (abeginRun s) (abeginRun t)
  endWrite : ∀ ok s t, E s t → E (endWrite ok s) (endWrite ok t)

theorem RespectedCommand.instr {E : State → State → Prop} (k : RespectedCommand E) {i : Instr} (hrst : i ≠ .dbgrst)
    (hprint : i ≠ .dbgprint) {s t : State} (h : E s t) : Run.Related E (instrRun i s) (instrRun i t) := by
  cases i with
  | abegin => exact k.abegin s t h
  | aset a => exact k.aset a h
  | dmode d => exact k.dmode d s t h
  | dread => exact k.dread s t h
  | dwrite v => exact k.dwrite v s t h
  | wdata a l => exact k.wdata k.endWrite a l h
  | dbgrst => exact absurd rfl hrst
  | dbgprint => exact absurd rfl hprint

/-- Two runs behind one guard, as those of `DREAD` and `DWRITE` (41_data_bus.md R143). -/
theorem related_guard {E : State → State → Prop} {c : Prop} [Decidable c] {why : Refusal} {s t s' t' : State} (h : E s t)
    (h' : E s' t') : Run.Related E (if c then .going s' else .stopped why s) (if c then .going t' else .stopped why t) := by
  split
  · exact h'
  · exact ⟨rfl, h⟩

theorem Unseen.related_abegin {f : State → State} (k : Unseen f) {E : State → State → Prop} (hf : ∀ s, E s (f s)) (s : State) :
    Run.Related E (Machine.abeginRun s) (Machine.abeginRun (f s)) := by
  obtain ⟨t, e, e'⟩ | ⟨e, e'⟩ := k.abeginRun s <;> rw [e, e']
  · exact hf t
  · exact ⟨rfl, hf s⟩

/-! ### The debug registers (43_diagnostics.md R192) -/

/-- The two states agree on everything but the debug registers. -/
def SameButDebug (s t : State) : Prop := ∃ d, t = s.setDbg d

theorem unseen_setDbg (d : Debug) : Unseen fun s => s.setDbg d := by constructor <;> intros <;> rfl

theorem sameButDebug_respected : RespectedCommand SameButDebug where
  begun := by rintro s _ ⟨d, rfl⟩; rfl
  block := by rintro s _ ⟨d, rfl⟩; rfl
  buf := by rintro s _ ⟨d, rfl⟩; rfl
  we := by rintro s _ ⟨d, rfl⟩; rfl
  answer := by rintro s _ ⟨d, rfl⟩; rfl
  present := by rintro a s _ ⟨d, rfl⟩; exact ⟨d, (unseen_setDbg d).present a s⟩
  dmode := by rintro (_ | _) s _ ⟨d, rfl⟩ <;> exact ⟨d, rfl⟩
  dread := by rintro s _ ⟨d, rfl⟩; exact related_guard (c := s.data.mode = .input) ⟨d, rfl⟩ ⟨d, rfl⟩
  dwrite := by rintro v s _ ⟨d, rfl⟩; exact related_guard (c := s.data.mode = .output) ⟨d, rfl⟩ ⟨d, rfl⟩
  issue := by rintro i s _ ⟨d, rfl⟩; exact ⟨d, rfl⟩
  debug := by rintro r v s _ ⟨d, rfl⟩; exact ⟨d.put r v, rfl⟩
  count := by rintro s _ ⟨d, rfl⟩; exact ⟨d.countBlock, rfl⟩
  setWe := by rintro w s _ ⟨d, rfl⟩; exact ⟨d, rfl⟩
  callOut := by rintro c s _ ⟨d, rfl⟩; exact ⟨d, rfl⟩
  emit := by rintro es s _ ⟨d, rfl⟩; exact ⟨d, rfl⟩
  abegin := by rintro s _ ⟨d, rfl⟩; exact (unseen_setDbg d).related_abegin (fun _ => ⟨d, rfl⟩) s
  endWrite := by rintro ok s _ ⟨d, rfl⟩; exact ⟨d, rfl⟩

/-- An act leaves a debug register unless it is a write of that register. -/
theorem actRun_keeps_debug {r : DebugReg} {y : PrimAct} (hy : ∀ v, y ≠ .debug r v) (s : State) :
    (actRun y s).state.dbg.get r = s.dbg.get r := by
  cases y with
  | debug r' v => exact get_put_of_ne (fun e => hy v (by rw [e])) v s.dbg
  | bus c =>
    cases c with
    | aset a => exact congrArg (·.dbg.get r) (onlyAddr_aset a (s.issue (.aset a))).frame
    | dmode d => exact congrArg (·.get r) (onlyData_dmode d (s.issue (.dmode d))).dbg
    | dread => exact congrArg (·.get r) (onlyData_dread (s.issue .dread)).dbg
    | dwrite v => exact congrArg (·.get r) (onlyData_dwrite v (s.issue (.dwrite v))).dbg

theorem debug_keptQuietly (r : DebugReg) :
    KeptQuietly (fun x => Answer.writesDebug r x = false) fun s t => t.dbg.get r = s.dbg.get r where
  refl _ := rfl
  trans _ _ _ h h' := h'.trans h
  present a s := by rw [(onlyAddr_present a s).frame]
  count _ := by cases r <;> rfl
  we _ _ := rfl
  callOut _ _ := rfl
  ret _ _ := rfl
  endWrite _ _ := rfl
  act x hx y hy s := actRun_keeps_debug (fun v e => List.any_eq_false.mp hx (.debug r v) (e ▸ hy) (by simp)) s

/-- Settles O41: the frames of the commands; the script of a `WDATA`; and two runs side by side, which differ in the debug
registers only at every piece (`sameButDebug_respected`). -/
theorem debugRegistersAreSideState : Obligations.DebugRegistersAreSideState := by
  refine ⟨fun s t i hi hrst h => (exec_frame hi h).dbg hrst, fun s t a l r => (debug_keptQuietly r).wdata,
    fun s d i hprint => ?_⟩
  by_cases hrst : i = .dbgrst
  · subst hrst
    rfl
  · rw [exec_eq_finish, exec_eq_finish]
    have h := sameButDebug_respected.instr hrst hprint (s := s) ⟨d, rfl⟩
    obtain ⟨v, w, e, e', d', rfl⟩ | ⟨why, e, e'⟩ := h.finish sameButDebug_respected.endWrite
    · rw [e, e']
      rfl
    · rw [e, e']

/-! ### The parameters no command reads (70_reset_and_hazards.md R246) -/

section

variable (u : Nat) (size twrite : Word) (poll : Bool)

theorem unseen_withUnread : Unseen (State.withUnread u size twrite poll) := by constructor <;> intros <;> rfl

/-- The second state is the first with other values in the four. -/
def SameButUnread (s t : State) : Prop := t = s.withUnread u size twrite poll

variable {u size twrite poll}

theorem sameButUnread_respected : RespectedCommand (SameButUnread u size twrite poll) where
  begun := by rintro s _ rfl; rfl
  block := by rintro s _ rfl; rfl
  buf := by rintro s _ rfl; rfl
  we := by rintro s _ rfl; rfl
  answer := by rintro s _ rfl; rfl
  present := by rintro a s _ rfl; exact (unseen_withUnread u size twrite poll).present a s
  dmode := by rintro d s _ rfl; cases d <;> exact rfl
  dread := by rintro s _ rfl; exact related_guard (c := s.data.mode = .input) rfl rfl
  dwrite := by rintro v s _ rfl; exact related_guard (c := s.data.mode = .output) rfl rfl
  issue := by rintro i s _ rfl; rfl
  debug := by rintro r v s _ rfl; rfl
  count := by rintro s _ rfl; rfl
  setWe := by rintro w s _ rfl; rfl
  callOut := by rintro c s _ rfl; rfl
  emit := by rintro es s _ rfl; rfl
  abegin := by
    rintro s _ rfl
    exact (unseen_withUnread u size twrite poll).related_abegin (E := SameButUnread u size twrite poll) (fun _ => rfl) s
  endWrite := by rintro ok s _ rfl; rfl

end

/-- Settles O42: the change of the four commutes with every piece of a command, and with the two diagnostics. -/
theorem timeAndIdleProfileFieldsAreUnread : Obligations.TimeAndIdleProfileFieldsAreUnread := by
  intro s i u size twrite poll
  by_cases hrst : i = .dbgrst
  · subst hrst
    rfl
  by_cases hprint : i = .dbgprint
  · subst hprint
    rfl
  have h := sameButUnread_respected.instr hrst hprint (s := s) (rfl : SameButUnread u size twrite poll s _)
  rw [exec_eq_finish, exec_eq_finish]
  obtain ⟨v, w, e, e', rfl⟩ | ⟨why, e, e'⟩ := h.finish sameButUnread_respected.endWrite
  · rw [e, e']
    rfl
  · rw [e, e']
    rfl

end Sys2Proof.Machine

namespace Sys2Proof.Machine

/-! ### The pin level of a piece of a command (00_scope.md R13) -/

/-- The events `es` from `s` to `t`, replayed one by one, give the pins, registers and latches of `t`, and its DataBus unit. -/
structure PinLevel (s t : State) (es : List Event) : Prop where
  board : t.board = s.board
  trace : t.trace = s.trace ++ es
  addr : (s.addr.replay es).pinState = t.addr.pinState
  data : s.data.Replays es t.data

theorem PinLevel.trans {s t v : State} {es es' : List Event} (h : PinLevel s t es) (h' : PinLevel t v es') :
    PinLevel s v (es ++ es') where
  board := h'.board.trans h.board
  trace := by rw [h'.trace, h.trace, List.append_assoc]
  addr := by rw [replay_append, pinState_replay es' _ _ h.addr, h'.addr]
  data := h.data.trans h'.data

/-- Some events lead from `s` to `t` at the pin level. -/
def ShownByPins (s t : State) : Prop := ∃ es, PinLevel s t es

theorem ShownByPins.trans {s t v : State} (h : ShownByPins s t) (h' : ShownByPins t v) : ShownByPins s v := by
  obtain ⟨es, h⟩ := h
  obtain ⟨es', h'⟩ := h'
  exact ⟨es ++ es', h.trans h'⟩

/-! Pieces that show nothing, and events that move no pin -/

/-- A piece that moves neither bus unit but the flag and the caches, and shows nothing. -/
theorem shownByPins_of_eq {s t : State} (hb : t.board = s.board) (ht : t.trace = s.trace)
    (ha : t.addr.pinState = s.addr.pinState) (hd : t.data = s.data) : ShownByPins s t :=
  ⟨[], hb, by rw [ht, List.append_nil], ha.symm, by rw [hd]; exact .quiet _ _ (by simp) (by simp)⟩

theorem ShownByPins.refl (s : State) : ShownByPins s s := shownByPins_of_eq rfl rfl rfl rfl

/-- An event that moves no pin of either unit. -/
structure Event.Still (e : Event) : Prop where
  addr : ∀ u : AddrUnit, u.onEvent e = u
  data : ∀ undet (d : DataUnit), d.onEvent undet e = d
  noPin : ∀ p b, e ≠ .pin p b

theorem shownByPins_still {e : Event} (he : e.Still) {s t : State} (hb : t.board = s.board) (ht : t.trace = s.trace ++ [e])
    (ha : t.addr = s.addr) (hd : t.data = s.data) : ShownByPins s t := by
  refine ⟨[e], hb, ht, ?_, ?_⟩
  · rw [ha, AddrUnit.replay, List.foldl_cons, List.foldl_nil, he.addr]
  · rw [hd]
    exact .quiet _ _ (by simpa using he.data) fun p b hm => he.noPin _ _ (List.mem_singleton.mp hm).symm

theorem still_call {c : Event} (hc : c.isCall = true) : c.Still := by
  cases c with
  | callByte d a => exact ⟨fun _ => rfl, fun _ _ => rfl, nofun⟩
  | callBlock off n a => exact ⟨fun _ => rfl, fun _ _ => rfl, nofun⟩
  | _ => cases hc

theorem still_ret (b : Bool) : (Event.ret b).Still := ⟨fun _ => rfl, fun _ _ => rfl, nofun⟩
theorem still_report (d : Debug) : (Event.report d).Still := ⟨fun _ => rfl, fun _ _ => rfl, nofun⟩
theorem still_sample (e : EnvVector) : (Event.sample e).Still := ⟨fun _ => rfl, fun _ _ => rfl, nofun⟩

/-! The AddressBus unit -/

/-- Events of the address pins leave the DataBus unit. -/
theorem replays_pinLevel {es : List Event} (h : ∀ e ∈ es, e.isPinLevel) (d : DataUnit) : d.Replays es d := by
  refine .quiet d es (fun e he undet c => ?_) fun p b hm => by simpa [Event.isPinLevel] using h _ hm
  have := h e he
  cases e with
  | pin p b =>
    cases p with
    | bus q => cases this
    | _ => rfl
  | addrOutputs => rfl
  | delay n => rfl
  | _ => cases this

/-- A piece of an address command: its events, replayed, give its unit up to the flag and the caches. -/
theorem shownByPins_addr {s t : State} {es : List Event} (he : ∀ e ∈ es, e.isPinLevel) (hb : t.board = s.board)
    (ht : t.trace = s.trace ++ es) (ha : (s.addr.replay es).pinState = t.addr.pinState) (hd : t.data = s.data) : ShownByPins s t :=
  ⟨es, hb, ht, ha, by rw [hd]; exact replays_pinLevel he _⟩

theorem shownByPins_drive (p : Pin) (b : Bool) (s : State) (h : (Event.pin p b).isPinLevel = true) : ShownByPins s (s.drive p b) :=
  shownByPins_addr (es := [.pin p b]) (by simpa using h) rfl rfl rfl rfl

theorem shownByPins_delay (n : Nat) (s : State) : ShownByPins s (s.delay n) :=
  shownByPins_addr (es := [.delay n]) (by simp [Event.isPinLevel]) rfl rfl rfl rfl

theorem shownByPins_shiftOneBit (p : BytePlane) (b : Bool) (s : State) : ShownByPins s (shiftOneBit p b s) :=
  (((shownByPins_drive _ _ _ rfl).trans (shownByPins_drive _ _ _ (isPinLevel_shiftClock ..))).trans
    (shownByPins_delay ..)).trans (shownByPins_drive _ _ _ (isPinLevel_shiftClock ..))

theorem shownByPins_shiftBits (p : BytePlane) (n : Nat) (t : Byte) (s : State) : ShownByPins s (shiftBits p n t s) := by
  induction n generalizing t s with
  | zero => exact .refl s
  | succ n ih => exact (shownByPins_shiftOneBit ..).trans (ih ..)

theorem shownByPins_latchPulse (s : State) : ShownByPins s (latchPulse s) :=
  (((shownByPins_drive _ _ _ rfl).trans (shownByPins_delay ..)).trans (shownByPins_drive _ _ _ rfl)).trans (shownByPins_delay ..)

theorem shownByPins_transmitByte (p : BytePlane) (b : Byte) (s : State) : ShownByPins s (transmitByte p b s) :=
  (shownByPins_shiftBits ..).trans (shownByPins_latchPulse _)

/-- The one update of `P_EXT` is the three pin writes, in whatever order they come. -/
theorem shownByPins_transmitExt (e : Ext) (s : State) : ShownByPins s (transmitExt e s) := by
  refine shownByPins_addr (es := orderBy 3 (Config.freeOrder s.free) (extEvents e)) (fun x hx => ?_) rfl rfl ?_ rfl
  · have := mem_orderBy.mp hx
    simp only [extEvents, List.mem_map] at this
    obtain ⟨i, -, rfl⟩ := this
    rfl
  · rw [replay_extEvents e _ (orderBy_perm ..)]
    rfl

theorem shownByPins_planeStepExt (e : Ext) (s : State) : ShownByPins s (planeStepExt e s) := by
  unfold planeStepExt
  split
  · exact .refl s
  · exact (shownByPins_transmitExt e s).trans (shownByPins_of_eq rfl rfl rfl rfl)

theorem shownByPins_planeStepHi (h : Byte) (s : State) : ShownByPins s (planeStepHi h s) := by
  unfold planeStepHi
  split
  · exact .refl s
  · exact (shownByPins_transmitByte .hi h s).trans (shownByPins_of_eq rfl rfl rfl rfl)

/-- The one update of the nineteen pins is the nineteen pin writes, in whatever order they come. -/
theorem shownByPins_presentDirect (a : Word) (s : State) (hw : s.board.wf = true) : ShownByPins s (presentDirect a s) := by
  refine shownByPins_addr (es := orderBy 19 (Config.freeOrder s.free) (directEvents s.board.addrPinMap a)) (fun x hx => ?_) rfl rfl
    ?_ rfl
  · have := mem_orderBy.mp hx
    simp only [directEvents, List.mem_map] at this
    obtain ⟨i, -, rfl⟩ := this
    rfl
  · rw [replay_directEvents s.board.addrPinMap (Board.wf_addr hw) a _ (orderBy_perm ..)]
    rfl

theorem shownByPins_present (a : Word) (s : State) (hw : s.board.wf = true) : ShownByPins s (present a s) := by
  unfold present
  split
  · exact ((shownByPins_planeStepExt ..).trans (shownByPins_planeStepHi ..)).trans (shownByPins_transmitByte ..)
  · exact shownByPins_presentDirect a s hw

theorem shownByPins_driveLow (pins : List Pin) (s : State) (h : ∀ p ∈ pins, (Event.pin p false).isPinLevel = true) :
    ShownByPins s (pins.foldl (fun t p => t.drive p false) s) := by
  induction pins generalizing s with
  | nil => exact .refl s
  | cons p rest ih =>
    exact (shownByPins_drive p false s (h p (List.mem_cons_self ..))).trans (ih _ fun q hq => h q (List.mem_cons_of_mem _ hq))

theorem isPinLevel_addressPins (r : Realization) : ∀ p ∈ addressPins r, (Event.pin p false).isPinLevel = true := by
  cases r <;> decide

theorem shownByPins_abegin (s : State) : ShownByPins s (abeginRun s).state := by
  unfold abeginRun
  split
  · exact .refl s
  · have houtputs : ShownByPins s ((s.setAddr s.addr.makeOutputs).emit [.addrOutputs]) :=
      shownByPins_addr (es := [.addrOutputs]) (by simp [Event.isPinLevel]) rfl rfl rfl rfl
    exact (houtputs.trans (shownByPins_driveLow _ _ (isPinLevel_addressPins _))).trans (shownByPins_of_eq rfl rfl rfl rfl)

/-! The DataBus unit -/

theorem replay_busPins {es : List Event} (h : ∀ e ∈ es, ∃ p b, e = .pin (.bus p) b) (u : AddrUnit) : u.replay es = u := by
  induction es generalizing u with
  | nil => rfl
  | cons e rest ih =>
    obtain ⟨p, b, rfl⟩ := h e (List.mem_cons_self ..)
    exact ih (fun x hx => h x (List.mem_cons_of_mem _ hx)) u

/-- A switch to output leaves the driven byte open (U8); no pin is written by it. -/
theorem shownByPins_dmode (d : Direction) (s : State) : ShownByPins s (dmodeRun d s).state := by
  have hnone : ∀ m pre post p b, [Event.dataMode m] = pre ++ .pin (.bus p) b :: post → False := by
    intro m pre post p b h
    have : Event.pin (.bus p) b ∈ [Event.dataMode m] := by rw [h]; simp
    simp at this
  cases d
  · exact ⟨[.dataMode .input], rfl, rfl, rfl, ⟨0#8, rfl⟩, fun pre post p b h => (hnone _ _ _ _ _ h).elim⟩
  · exact ⟨[.dataMode .output], rfl, rfl, rfl, ⟨s.freeBits 8 0, rfl⟩, fun pre post p b h => (hnone _ _ _ _ _ h).elim⟩

theorem shownByPins_dread (s : State) : ShownByPins s (dreadRun s).state := by
  by_cases hm : s.data.mode = .input
  · rw [dreadRun_input hm]
    exact shownByPins_still (still_sample s.nextEnv) rfl rfl rfl rfl
  · rw [dreadRun_other hm]
    exact .refl s

/-- The one update of the eight pins is the eight pin writes, in whatever order they come and whatever the pins drove. -/
theorem shownByPins_dwrite (v : Byte) (s : State) (hw : s.board.wf = true) : ShownByPins s (dwriteRun v s).state := by
  by_cases hm : s.data.mode = .output
  · rw [dwriteRun_output v hm]
    have hmap := Board.wf_data hw
    have hperm := orderBy_perm 8 (Config.freeOrder s.free) (busEvents s.board.dataPinMap v)
    refine ⟨orderBy 8 (Config.freeOrder s.free) (busEvents s.board.dataPinMap v), rfl, rfl, ?_, ⟨0#8, ?_⟩, ?_⟩
    · refine congrArg AddrUnit.pinState (replay_busPins (fun e he => ?_) s.addr)
      have := mem_orderBy.mp he
      simp only [busEvents, List.mem_map] at this
      obtain ⟨i, -, rfl⟩ := this
      exact ⟨_, _, rfl⟩
    · rw [DataUnit.replay_busEvents _ _ hmap v _ hperm, hm]
      rfl
    · intro pre post p b _ _ undet c hc
      rw [DataUnit.replay_busEvents _ _ hmap v _ hperm, hc, hm, scatter_total _ hmap v c.dOut s.data.dOut]
      rfl
  · rw [dwriteRun_other v hm]
    exact .refl s

/-! Whole commands -/

theorem ShownByPins.board {s t : State} (h : ShownByPins s t) : t.board = s.board := by
  obtain ⟨es, h⟩ := h
  exact h.board

/-- Every piece of a command is shown by its events, on a board whose maps are bijections. -/
theorem shownByPins_kept : KeptCommand fun s t => s.board.wf = true → ShownByPins s t where
  refl s _ := .refl s
  trans s t v h h' hw := (h hw).trans (h' (by rw [(h hw).board]; exact hw))
  present a s _ _ := shownByPins_present a s
  dmode d s _ := shownByPins_dmode d s
  dread s _ := shownByPins_dread s
  dwrite := shownByPins_dwrite
  issue _ _ _ := shownByPins_of_eq rfl rfl rfl rfl
  dbg _ _ _ := shownByPins_of_eq rfl rfl rfl rfl
  we _ _ _ := shownByPins_of_eq rfl rfl rfl rfl
  callOut _ _ hc _ := shownByPins_still (still_call hc) rfl rfl rfl rfl
  ret b _ _ := shownByPins_still (still_ret b) rfl rfl rfl rfl
  abegin s _ := shownByPins_abegin s
  report s _ := shownByPins_still (still_report s.dbg) rfl rfl rfl rfl
  endWrite _ _ _ := shownByPins_of_eq rfl rfl rfl rfl

/-- Settles O19: every piece of a command is the replay of its events (`shownByPins_kept`); between pieces the undetermined byte
of the last `DMODE OUT` is carried by `DataUnit.Replays`. -/
theorem pinLevelAgreesWithCommandLevel : Obligations.PinLevelAgreesWithCommandLevel := by
  intro s t i hw h
  obtain ⟨es, hp⟩ := shownByPins_kept.exec h hw
  obtain ⟨hsome, hany⟩ := hp.data
  rw [eventsSince_of_append hp.trace]
  exact ⟨⟨es, hp.trace⟩, hp.addr, hsome, fun pre post p b he hpost undet => hany pre post p b he hpost undet s.data rfl⟩

end Sys2Proof.Machine

namespace Sys2Proof.Machine

/-! ### Sequences of commands, and the address they leave (40_address_bus.md R121) -/

theorem execAll_append_next {xs ys : List Instr} {s u : State} (h : execAll (xs ++ ys) s = .next u) :
    ∃ t, execAll xs s = .next t ∧ execAll ys t = .next u := by
  induction xs generalizing s with
  | nil => exact ⟨s, rfl, h⟩
  | cons i rest ih =>
    obtain ⟨t, hi, hrest⟩ := execAll_cons_next h
    obtain ⟨v, hv, hu⟩ := ih hrest
    exact ⟨v, by rw [execAll, hi]; exact hv, hu⟩

/-- What every command keeps, a sequence keeps. -/
theorem execAll_kept {R : State → State → Prop} (refl : ∀ s, R s s) (trans : ∀ s t v, R s t → R t v → R s v)
    (step : ∀ i s t, exec i s = .next t → R s t) {is : List Instr} {s u : State} (h : execAll is s = .next u) : R s u := by
  induction is generalizing s with
  | nil =>
    cases h
    exact refl _
  | cons i rest ih =>
    obtain ⟨t, hi, hrest⟩ := execAll_cons_next h
    exact trans _ _ _ (step i s t hi) (ih hrest)

/-- No command clears `A_BEGUN` (10_state.md R22). -/
theorem exec_keeps_begun {i : Instr} {s t : State} (h : exec i s = .next t) (hb : s.addr.aBegun = true) : t.addr.aBegun = true := by
  by_contra hne
  obtain rfl := exec_begun h fun e => hne (e.trans hb)
  exact hne (exec_abegin_begun h)

/-- What a completed `ASET` was. -/
theorem exec_aset_next {a : Word} {s t : State} (h : exec (.aset a) s = .next t) :
    s.addr.aBegun = true ∧ a.toNat < 2 ^ 19 ∧ t = present a s :=
  asetRun_going (instrRun_of_next rfl h)

/-- The address at the end of a sequence is that of its last `ASET`. -/
theorem xa_of_last_aset {before after : List Instr} {a : Word} {s t : State} (hs : s.AddressInv)
    (hafter : ∀ i ∈ after, isAset i = false ∧ isWdata i = false) (h : execAll (before ++ .aset a :: after) s = .next t)
    (undet : Addr) : t.xa undet = onBus a := by
  obtain ⟨u, hu, h⟩ := execAll_append_next h
  obtain ⟨v, hv, h⟩ := execAll_cons_next h
  have hinv : u.AddressInv := execAll_kept (R := fun s t => s.AddressInv → t.AddressInv) (fun _ => id)
    (fun _ _ _ h h' hs => h' (h hs)) (fun _ _ _ => addressInv_kept.exec) hu hs
  obtain ⟨hub, -, rfl⟩ := exec_aset_next hv
  obtain ⟨haddr, hboard⟩ := execAll_keeps_addr hafter (exec_keeps_begun hv hub) h
  rw [State.xa, haddr, hboard]
  exact xa_present_of_addrInv hinv.board hinv.addr hub undet

/-- A sequence with an `ASET` in it has a last one. -/
theorem exists_last_aset {is : List Instr} (h : ∃ a, .aset a ∈ is) :
    ∃ before a after, is = before ++ .aset a :: after ∧ ∀ i ∈ after, isAset i = false := by
  induction is with
  | nil => simp at h
  | cons i rest ih =>
    by_cases hr : ∃ a, Instr.aset a ∈ rest
    · obtain ⟨before, a, after, rfl, hafter⟩ := ih hr
      exact ⟨i :: before, a, after, rfl, hafter⟩
    · obtain ⟨a, ha⟩ := h
      obtain rfl | ha := List.mem_cons.mp ha
      · refine ⟨[], a, rest, rfl, fun j hj => ?_⟩
        cases j with
        | aset b => exact absurd ⟨b, hj⟩ hr
        | _ => rfl
      · exact absurd ⟨a, ha⟩ hr

/-- After `ABEGIN` and a sequence with a last `ASET a` the device sees `a`, on either board and whatever the unit held before. -/
theorem xa_after_abegin {before after : List Instr} {a : Word} {s t : State} (hw : s.board.wf = true) (hn : s.addr.aBegun = false)
    (hafter : ∀ i ∈ after, isAset i = false ∧ isWdata i = false)
    (h : execAll (.abegin :: (before ++ .aset a :: after)) s = .next t) (undet : Addr) : t.xa undet = onBus a := by
  obtain ⟨u, hu, h⟩ := execAll_cons_next h
  rw [exec_abegin_first hn] at hu
  cases hu
  refine xa_of_last_aset ?_ hafter h undet
  exact ⟨hw, begun_inv s.board s.addr⟩

/-- Settles O16: both boards run the same commands, so the last `ASET` is the same, and on either board it decides what the device
sees. -/
theorem realizationsShowTheSameAddress : Obligations.RealizationsShowTheSameAddress := by
  intro s1 s2 t1 t2 is u1 u2 hw1 hw2 _ _ hn1 hn2 hwrite hset h1 h2
  obtain ⟨before, a, after, rfl, hlast⟩ := exists_last_aset hset
  have hafter : ∀ i ∈ after, isAset i = false ∧ isWdata i = false := fun i hi =>
    ⟨hlast i hi, hwrite i (List.mem_append_right _ (List.mem_cons_of_mem _ hi))⟩
  rw [xa_after_abegin hw1 hn1 hafter h1, xa_after_abegin hw2 hn2 hafter h2]

/-! ### ABEGIN and the refusals of the unit (40_address_bus.md sections 1 to 3) -/

/-- Driving pins low raises none. -/
theorem raisesOf_driveLow (q : Pin) (pins : List Pin) :
    raisesOf q (.addrOutputs :: pins.map fun p => .pin p false) = 0 := by
  rw [raisesOf, List.countP_eq_zero]
  simp

/-- All pins low read as zero. -/
theorem gather_low {n : Nat} (m : Vector (Fin n) n) : gather m (fun _ => false) = 0#n := by
  apply BitVec.eq_of_getLsbD_eq
  intro i hi
  have := getLsbD_gather m (fun _ => false) ⟨i, hi⟩
  rw [BitVec.getLsbD_zero]
  exact this

/-- Settles O6: the closed form of `ABEGIN` on each board. -/
theorem abeginInitialisesTheUnit : Obligations.AbeginInitialisesTheUnit := by
  intro s hn
  have h := exec_abegin_first hn
  cases hr : s.board.realization with
  | shift =>
    rw [hr] at h
    refine ⟨_, h, rfl, rfl, rfl, rfl, rfl, rfl, rfl, rfl, fun _ => ⟨rfl, rfl, rfl, rfl, rfl, rfl, fun undet => ?_⟩, nofun,
      ⟨_, rfl, fun q => raisesOf_driveLow q _⟩, rfl⟩
    rw [State.xa, emit_addr, setAddr_addr, emit_board, setAddr_board, xa_shift hr undet rfl]
    rfl
  | direct =>
    rw [hr] at h
    refine ⟨_, h, rfl, rfl, rfl, rfl, rfl, rfl, rfl, rfl, nofun, fun _ => ⟨rfl, rfl, rfl, rfl, rfl, rfl, fun undet => ?_⟩,
      ⟨_, rfl, fun q => raisesOf_driveLow q _⟩, rfl⟩
    rw [State.xa, emit_addr, setAddr_addr, emit_board, setAddr_board]
    simp only [AddrUnit.xa, hr, AddrUnit.begun, if_true, BitVec.getLsbD_zero, gather_low]

/-- Settles O7: the two outcomes of `ABEGIN` and the three of `ASET` exclude each other. -/
theorem addressCommandsRefusedExactly : Obligations.AddressCommandsRefusedExactly := by
  refine ⟨fun s => ?_, fun s => ?_, fun s a => ?_, fun s a => ?_, fun s a => ?_⟩
  · obtain ⟨h, e⟩ | ⟨h, e⟩ := abeginRun_cases s <;> simp [exec_eq_finish, instrRun, e, h]
  · obtain ⟨h, e⟩ | ⟨h, e⟩ := abeginRun_cases s <;> simp [exec_eq_finish, instrRun, e, h]
  all_goals
    obtain ⟨h, e⟩ | ⟨h, ha, e⟩ | ⟨h, ha, e⟩ := asetRun_cases a s <;> simp [exec_eq_finish, instrRun, e, h] <;> omega

/-! ### The unit after a legal ASET (40_address_bus.md R111) -/

/-- `presentShift_closed` on the state's own board. -/
theorem present_shift (a : Word) {s : State} (hs : s.board.realization = .shift) (hc : s.addr.ClocksLow) :
    present a s = ((s.setAddr (s.addr.presented a)).drew (if s.addr.cExt = some (extPlane a) then 0 else 1)).emit
        (presentShiftEvents a s.addr s.free) := by
  rw [present, hs]
  exact presentShift_closed a s hc

/-- Settles O9: `present_presents` has the caches; in SHIFT the closed form has the registers, where an untransmitted plane was
there already (`presented_planes`). -/
theorem asetLeavesTheUnitAtTheAddress : Obligations.AsetLeavesTheUnitAtTheAddress := by
  intro s a hs hb ha
  have hp := present_presents a s hs.board hs.addr hb
  refine ⟨present a s, exec_aset_legal hb ha, hp.begun, hp.pins, hp.cExt, hp.cHi, fun hr => ?_⟩
  obtain ⟨hc, hsc⟩ := hs.addr.2 hb
  have hsc := hsc hr
  obtain ⟨hext, hsr, hq⟩ := presented_planes a hr hc hsc
  rw [present_shift a hr hsc.clocksLow]
  exact ⟨rfl, rfl, hsr, hq, hext, rfl, hsc.rclk, hsc.sclkHi, hsc.sclkLo, rfl⟩

/-- Settles O10: the closed form of the events, plane by plane. -/
theorem asetTransmitsChangedPlanes : Obligations.AsetTransmitsChangedPlanes := by
  intro s a hs hr hb ha
  have hc := ((hs.addr.2 hb).2 hr).clocksLow
  have hp := present_presents a s hs.board hs.addr hb
  refine ⟨present a s, planeExtEvents (extPlane a) s.addr.cExt s.free, planeHiEvents (hiPlane a) s.addr.cHi, exec_aset_legal hb ha,
    eventsSince_present_shift a hr hc, fun h => if_pos h, fun h => ?_, fun h => if_pos h, fun h => if_neg h, hp.cExt, hp.cHi⟩
  rw [planeExtEvents, extPlane, if_neg h]
  exact orderBy_perm ..

/-! ### Counting pulses and waits (40_address_bus.md R122, 70_reset_and_hazards.md R249) -/

@[simp] theorem raisesOf_append (p : Pin) (xs ys : List Event) : raisesOf p (xs ++ ys) = raisesOf p xs + raisesOf p ys :=
  List.countP_append ..

@[simp] theorem extWrites_append (xs ys : List Event) : extWrites (xs ++ ys) = extWrites xs + extWrites ys :=
  List.countP_append ..

@[simp] theorem delayTotal_append (xs ys : List Event) : delayTotal (xs ++ ys) = delayTotal xs + delayTotal ys := by
  induction xs with
  | nil => simp [delayTotal]
  | cons e rest ih => cases e <;> simp [delayTotal, ih, Nat.add_assoc]

theorem delayTotal_pins {es : List Event} (h : ∀ e ∈ es, ∃ p b, e = .pin p b) : delayTotal es = 0 := by
  induction es with
  | nil => rfl
  | cons e rest ih =>
    obtain ⟨p, b, rfl⟩ := h e (List.mem_cons_self ..)
    exact ih fun x hx => h x (List.mem_cons_of_mem _ hx)

/-- One byte shifted out and latched: eight rises of its own clock, one of the latch clock, 8 * 3 + 2 time-units, no write of
`P_EXT`. -/
theorem counts_transmit (p : BytePlane) (b : Byte) :
    raisesOf .sclkLo (shiftOutEvents p b ++ latchEvents) = (match p with | .hi => 0 | .lo => 8) ∧
    raisesOf .sclkHi (shiftOutEvents p b ++ latchEvents) = (match p with | .hi => 8 | .lo => 0) ∧
    raisesOf .rclk (shiftOutEvents p b ++ latchEvents) = 1 ∧
    extWrites (shiftOutEvents p b ++ latchEvents) = 0 ∧
    delayTotal (shiftOutEvents p b ++ latchEvents) = 26 := by
  cases p <;> simp [shiftOutEvents, latchEvents, List.range_succ, raisesOf, extWrites, delayTotal, shiftClock, Config.tShift,
    Config.tLatch]

/-- The extended bits in any order: three writes of `P_EXT`, no clock, no wait. -/
theorem counts_ext {e : Ext} {es : List Event} (h : es.Perm (extEvents e)) :
    raisesOf .sclkLo es = 0 ∧ raisesOf .sclkHi es = 0 ∧ raisesOf .rclk es = 0 ∧ extWrites es = 3 ∧ delayTotal es = 0 := by
  have hpins : ∀ x ∈ es, ∃ p b, x = .pin p b := fun x hx => by
    have := h.mem_iff.mp hx
    simp only [extEvents, List.mem_map] at this
    obtain ⟨i, -, rfl⟩ := this
    exact ⟨_, _, rfl⟩
  refine ⟨?_, ?_, ?_, ?_, delayTotal_pins hpins⟩
  · rw [raisesOf, h.countP_eq]
    simp [extEvents]
  · rw [raisesOf, h.countP_eq]
    simp [extEvents]
  · rw [raisesOf, h.countP_eq]
    simp [extEvents]
  · rw [extWrites, h.countP_eq]
    rfl

/-- Settles O12: the counts of the three planes, each transmitted or not, add up. -/
theorem asetPulseCountsAndDelays : Obligations.AsetPulseCountsAndDelays := by
  intro s a hs hr hb ha
  refine ⟨present a s, exec_aset_legal hb ha, ?_⟩
  rw [eventsSince_present_shift a hr ((hs.addr.2 hb).2 hr).clocksLow, presentShiftEvents, planeExtEvents, planeHiEvents]
  obtain ⟨lo1, lo2, lo3, lo4, lo5⟩ := counts_transmit .lo (loPlane a)
  obtain ⟨hi1, hi2, hi3, hi4, hi5⟩ := counts_transmit .hi (hiPlane a)
  obtain ⟨ext1, ext2, ext3, ext4, ext5⟩ := counts_ext (orderBy_perm 3 (Config.freeOrder s.free) (extEvents (extPlane a)))
  generalize shiftOutEvents .lo (loPlane a) ++ latchEvents = lo at lo1 lo2 lo3 lo4 lo5 ⊢
  generalize shiftOutEvents .hi (hiPlane a) ++ latchEvents = hi at hi1 hi2 hi3 hi4 hi5 ⊢
  generalize orderBy 3 (Config.freeOrder s.free) (extEvents (extPlane a)) = ext at ext1 ext2 ext3 ext4 ext5 ⊢
  change _ ∧ _ = (if s.addr.cHi = some (hiPlane a) then _ else _) ∧ _ = (if s.addr.cHi = some (hiPlane a) then _ else _) ∧
    _ = (if s.addr.cExt = some (extPlane a) then _ else _) ∧ _ = (if s.addr.cHi = some (hiPlane a) then _ else _)
  by_cases he : s.addr.cExt = some (extPlane a) <;> by_cases hh : s.addr.cHi = some (hiPlane a) <;> simp_all

end Sys2Proof.Machine

namespace Sys2Proof.Machine

/-! ### A DIRECT ASET (40_address_bus.md R116) -/

theorem getLsbD_onBus (a : Word) (i : Fin 19) : (onBus a).getLsbD i = a.getLsbD i := by
  rw [onBus, BitVec.getLsbD_extractLsb', Nat.zero_add]
  simp [i.isLt]

/-- Settles O13: the closed form in DIRECT; a bijective map keeps what is written through it apart. -/
theorem directAsetWritesEveryPin : Obligations.DirectAsetWritesEveryPin := by
  intro s a hw hr hb ha
  have hevents := eventsSince_present_direct a hr
  refine ⟨present a s, exec_aset_legal hb ha, fun i => ?_, hevents, delayTotal_pins fun e he => ?_, ?_⟩
  · rw [present_direct a s hr, ← getLsbD_onBus]
    exact getLsbD_scatter _ (Board.wf_addr hw) (onBus a) _ i
  · have := hevents.mem_iff.mp he
    simp only [directEvents, List.mem_map] at this
    obtain ⟨i, -, rfl⟩ := this
    exact ⟨_, _, rfl⟩
  · rw [present_direct a s hr]
    rfl

/-! ### Two equal ASETs (40_address_bus.md R120) -/

theorem presented_presented (a : Word) (u : AddrUnit) : (u.presented a).presented a = u.presented a := by
  simp [AddrUnit.presented]

theorem presentedDirect_presentedDirect (m : Vector (Fin 19) 19) (hm : ∀ i j, m.get i = m.get j → i = j) (a : Word)
    (u : AddrUnit) : (u.presentedDirect m a).presentedDirect m a = u.presentedDirect m a := by
  simp only [AddrUnit.presentedDirect, scatter_old m hm (onBus a) (scatter m (onBus a) u.pAddr) u.pAddr]

/-- `ASET a` where `a` is on the bus already moves nothing of the unit. -/
theorem present_present_addr (a : Word) {s : State} (hs : s.Inv) (hb : s.addr.aBegun = true) :
    (present a (present a s)).addr = (present a s).addr := by
  have hboard : (present a s).board = s.board := by rw [(onlyAddr_present a s).frame]
  cases hr : s.board.realization with
  | shift =>
    have hc := ((hs.addr.2 hb).2 hr).clocksLow
    have haddr : (present a s).addr = s.addr.presented a := by rw [present_shift a hr hc]; rfl
    have hc' : (present a s).addr.ClocksLow := by
      rw [haddr]
      exact ⟨hc.rclk, hc.sclkHi, hc.sclkLo⟩
    rw [present_shift a (hboard ▸ hr) hc', haddr]
    exact presented_presented a s.addr
  | direct =>
    have haddr : (present a s).addr = s.addr.presentedDirect s.board.addrPinMap a := by rw [present_direct a s hr]; rfl
    rw [present_direct a (present a s) (hboard ▸ hr), hboard, haddr]
    exact presentedDirect_presentedDirect _ (Board.wf_addr hs.board) a s.addr

/-- Settles O14: the unit after the second `ASET` is that after the first, and so is the address it shows. -/
theorem asetTwiceIsIdempotent : Obligations.AsetTwiceIsIdempotent := by
  intro s a hs hb ha
  have hp := present_presents a s hs.board hs.addr hb
  have haddr := present_present_addr a hs hb
  have hf := (onlyAddr_present a (present a s)).frame
  have hboard : (present a (present a s)).board = (present a s).board := by rw [hf]
  have hdata : (present a (present a s)).data = (present a s).data := by rw [hf]
  refine ⟨present a s, present a (present a s), exec_aset_legal hb ha, exec_aset_legal hp.begun ha, haddr, hdata, fun undet => ?_⟩
  rw [State.xa, State.xa, haddr, hboard]

/-! ### The addresses on the way (40_address_bus.md R118) -/

theorem length_addressesSeen (b : Board) (undet : Addr) (u : AddrUnit) (es : List Event) :
    (addressesSeen b undet u es).length = es.length := by
  induction es generalizing u with
  | nil => rfl
  | cons e rest ih => rw [addressesSeen, List.length_cons, List.length_cons, ih]

theorem AddrUnit.ClocksLow.latched {u : AddrUnit} (h : u.ClocksLow) : u.latched.ClocksLow := ⟨h.rclk, h.sclkHi, h.sclkLo⟩

/-- While one byte is transmitted the device sees the old address 32 times, then both registers, four times. -/
theorem addressesSeen_transmit {b : Board} (hb : b.realization = .shift) (undet : Addr) {u : AddrUnit} (hp : u.pinsOut = true)
    (hc : u.ClocksLow) (p : BytePlane) (v : Byte) :
    addressesSeen b undet u (shiftOutEvents p v ++ latchEvents) =
      List.replicate 32 (u.xa b undet) ++
        List.replicate 4 ((u.shifted p v).pExt ++ (u.shifted p v).srHi ++ (u.shifted p v).srLo : BitVec 19) := by
  have hp' : (u.shifted p v).pinsOut = true := by cases p <;> exact hp
  rw [addressesSeen_append, addressesSeen_shiftOut b hb undet u hp, replay_shiftOut u hc,
    addressesSeen_latch b hb undet _ hp' (hc.shifted p v)]

theorem replay_transmit {u : AddrUnit} (hc : u.ClocksLow) (p : BytePlane) (v : Byte) :
    u.replay (shiftOutEvents p v ++ latchEvents) = (u.shifted p v).latched := by
  rw [replay_append, replay_shiftOut u hc, replay_latch _ (hc.shifted p v)]

/-- The extended bits, transmitted or not: the new ones stand on the pins afterwards. -/
theorem replay_planeExtEvents {u : AddrUnit} {e : Ext} {draw : Nat} (h : u.cExt = some e → u.pExt = e) :
    u.replay (planeExtEvents e u.cExt draw) = { u with pExt := e } := by
  unfold planeExtEvents
  split
  · rw [← h ‹_›]
    rfl
  · exact replay_extEvents e _ (orderBy_perm ..) u

/-- While the extended bits are transmitted, if they are, at most three addresses are seen; their low sixteen bits are old, each
extended bit is old or new. -/
theorem addressesSeen_planeExtEvents {b : Board} (hb : b.realization = .shift) (undet : Addr) {u : AddrUnit} (hp : u.pinsOut = true)
    (e : Ext) (draw : Nat) :
    (addressesSeen b undet u (planeExtEvents e u.cExt draw)).length ≤ 3 ∧
    ∀ x ∈ addressesSeen b undet u (planeExtEvents e u.cExt draw), x.extractLsb' 0 16 = (u.xa b undet).extractLsb' 0 16 ∧
      ∀ j, 16 ≤ j → j < 19 → x.getLsbD j = (u.xa b undet).getLsbD j ∨ x.getLsbD j = e.getLsbD (j - 16) := by
  unfold planeExtEvents
  split
  · simp [addressesSeen]
  · have hlen : (orderBy 3 (Config.freeOrder draw) (extEvents e)).length = 3 := length_orderBy ..
    obtain ⟨k, hk⟩ := exists_map_of_forall (fun i : Fin 3 => Event.pin (.ext i) (e.getLsbD i))
      (orderBy 3 (Config.freeOrder draw) (extEvents e)) fun x hx => by
        have := mem_orderBy.mp hx
        simp only [extEvents, List.mem_map] at this
        obtain ⟨i, -, rfl⟩ := this
        exact ⟨i, rfl⟩
    rw [hk] at hlen ⊢
    exact ⟨by rw [length_addressesSeen]; exact hlen.le, addressesSeen_ext b hb undet u hp e k⟩

theorem getLsbD_extPlane (a : Word) {j : Nat} (h : 16 ≤ j) (h' : j < 19) : (extPlane a).getLsbD (j - 16) = a.getLsbD j := by
  have h1 : j - 16 < 3 := by omega
  have h2 : 16 + (j - 16) = j := by omega
  rw [extPlane, BitVec.getLsbD_extractLsb', h2]
  simp [h1]

/-- Once the extended bits are out: the old bytes, the new high byte over the old low byte, both new bytes. An unchanged high byte
is the old one, and the low byte's register is in its latch, so the high byte's latch pulse shows it unmoved. -/
theorem addressesSeen_bytes {b : Board} (hb : b.realization = .shift) (undet : Addr) {u : AddrUnit} (hp : u.pinsOut = true)
    (hsc : u.ShiftCoherent) (hhi : u.cHi ≠ none) (h l : Byte) :
    ∃ m k, addressesSeen b undet u (planeHiEvents h u.cHi ++ (shiftOutEvents .lo l ++ latchEvents)) =
      List.replicate m (u.pExt ++ u.qHi ++ u.qLo : BitVec 19) ++ List.replicate k (u.pExt ++ h ++ u.qLo : BitVec 19) ++
        List.replicate 4 (u.pExt ++ h ++ l : BitVec 19) := by
  have hc := hsc.clocksLow
  by_cases hh : u.cHi = some h
  · obtain ⟨hsr, hq⟩ := hsc.hi h hh
    refine ⟨0, 32, ?_⟩
    rw [planeHiEvents, if_pos hh, List.nil_append, addressesSeen_transmit hb undet hp hc, xa_shift hb undet hp, hq]
    simp [AddrUnit.shifted, hsr]
  · have hlo := hsc.lo hhi
    refine ⟨32, 4 + 32, ?_⟩
    rw [planeHiEvents, if_neg hh, addressesSeen_append, replay_transmit hc, addressesSeen_transmit hb undet hp hc,
      addressesSeen_transmit hb undet (u := (u.shifted .hi h).latched) hp (hc.shifted .hi h).latched,
      xa_shift hb undet (u := (u.shifted .hi h).latched) hp, xa_shift hb undet hp, List.replicate_add]
    simp [AddrUnit.shifted, AddrUnit.latched, hlo]

/-- Settles O15: the extended bits first (`addressesSeen_planeExtEvents`), then the two bytes under the new ones
(`addressesSeen_bytes`). -/
theorem asetIntermediateAddresses : Obligations.AsetIntermediateAddresses := by
  intro s a undet hs hr hb hhi ha
  obtain ⟨hc, hsc⟩ := hs.addr.2 hb
  have hsc := hsc hr
  have hext : s.addr.cExt = some (extPlane a) → s.addr.pExt = extPlane a := fun h => by
    have := (presented_planes a hr hc hsc).1
    rwa [AddrUnit.presented, if_pos h] at this
  obtain ⟨hlen, hpre⟩ := addressesSeen_planeExtEvents hr undet hc.pins (extPlane a) s.free
  obtain ⟨m, k, hbytes⟩ := addressesSeen_bytes hr undet (u := { s.addr with pExt := extPlane a }) hc.pins
    ⟨hsc.rclk, hsc.sclkHi, hsc.sclkLo, hsc.hi, hsc.lo⟩ hhi (hiPlane a) (loPlane a)
  refine ⟨present a s, _, m, k, 4, exec_aset_legal hb ha, ?_, by decide, hlen, fun x hx => ⟨(hpre x hx).1, fun j h h' => ?_⟩⟩
  · have hold := xa_shift hr undet hc.pins
    rw [eventsSince_present_shift a hr hsc.clocksLow, presentShiftEvents, List.append_assoc, addressesSeen_append,
      replay_planeExtEvents hext, hbytes, State.xa, hold, append_hi, append_lo, planes_append]
    simp only [List.append_assoc]
    rfl
  · rw [← getLsbD_extPlane a h h']
    exact (hpre x hx).2 j h h'

/-! ### ShiftOut bit by bit (40_address_bus.md R114) -/

/-- The register of a plane. -/
def AddrUnit.reg (p : BytePlane) (u : AddrUnit) : Byte :=
  match p with
  | .hi => u.srHi
  | .lo => u.srLo

/-- The unit with a level on `P_DATA` and a value in the register of a plane. -/
def AddrUnit.setReg (p : BytePlane) (d : Bool) (r : Byte) (u : AddrUnit) : AddrUnit :=
  match p with
  | .hi => { u with pData := d, srHi := r }
  | .lo => { u with pData := d, srLo := r }

/-- The events of bit `k`, counted from the most significant. -/
def shiftBitEvents (p : BytePlane) (b : Byte) (k : Nat) : List Event :=
  [.pin .data (b.getLsbD (7 - k)), .pin (shiftClock p) true, .delay Config.tShift, .pin (shiftClock p) false]

theorem shiftOutEvents_take (p : BytePlane) (b : Byte) {n : Nat} (hn : n ≤ 8) :
    (shiftOutEvents p b).take (4 * n) = (List.range n).flatMap (shiftBitEvents p b) := by
  interval_cases n <;> rfl

/-- One bit: from low shift clocks the data line goes into the plane's register, nothing else moves. -/
theorem replay_shiftBit (p : BytePlane) (b : Byte) (k : Nat) {u : AddrUnit} (hhi : u.pSclkHi = false) (hlo : u.pSclkLo = false) :
    u.replay (shiftBitEvents p b k) = u.setReg p (b.getLsbD (7 - k)) (shiftIn (u.reg p) (b.getLsbD (7 - k))) := by
  obtain ⟨a1, a2, a3, a4, a5, a6, a7, a8, a9, a10, a11, a12, a13, a14⟩ := u
  subst hhi hlo
  cases p <;> rfl

/-- Bit `n` shifted in after the top `n` bits of the byte. -/
theorem shiftIn_topBits (r b : Byte) {n : Nat} (hn : n < 8) :
    shiftIn (r <<< n ||| b >>> (8 - n)) (b.getLsbD (7 - n)) = r <<< (n + 1) ||| b >>> (8 - (n + 1)) := by
  apply BitVec.eq_of_getLsbD_eq
  intro i hi
  rw [getLsbD_shiftIn _ _ _ hi]
  simp only [BitVec.getLsbD_or, BitVec.getLsbD_shiftLeft, BitVec.getLsbD_ushiftRight]
  by_cases h0 : i = 0
  · subst h0
    simp [show 8 - (n + 1) = 7 - n by omega]
  · have h1 : 8 - n + (i - 1) = 7 - n + i := by omega
    have h2 : i - (n + 1) = i - 1 - n := by omega
    have h3 : i - 1 < 8 := by omega
    have h4 : i < n + 1 ↔ i - 1 < n := by omega
    simp [h0, h1, h2, h3, h4, hi]

/-- After `n` bits the register holds its old bits shifted up by `n` and the top `n` bits of the byte. -/
theorem replay_shiftBits (p : BytePlane) (b : Byte) {u : AddrUnit} (hhi : u.pSclkHi = false) (hlo : u.pSclkLo = false) {n : Nat}
    (hn : n ≤ 8) : ∃ d, u.replay ((List.range n).flatMap (shiftBitEvents p b)) = u.setReg p d (u.reg p <<< n ||| b >>> (8 - n)) ∧
      (n ≠ 0 → d = b.getLsbD (8 - n)) := by
  induction n with
  | zero =>
    have hout : b >>> 8 = 0#8 := BitVec.ushiftRight_eq_zero (Nat.le_refl 8)
    refine ⟨u.pData, ?_, fun h => absurd rfl h⟩
    cases p <;> simp [AddrUnit.replay, AddrUnit.setReg, AddrUnit.reg, hout]
  | succ n ih =>
    obtain ⟨d, h, -⟩ := ih (by omega)
    refine ⟨b.getLsbD (7 - n), ?_, fun _ => by rw [show 8 - (n + 1) = 7 - n by omega]⟩
    rw [List.range_succ, List.flatMap_append, List.flatMap_singleton, replay_append, h, ← shiftIn_topBits _ _ (by omega)]
    cases p
    · exact replay_shiftBit .hi b n hhi hlo
    · exact replay_shiftBit .lo b n hhi hlo

/-- Every step of `ShiftOut` is a pin event or a wait, so its unit is the replay of its events. -/
theorem shiftOut_replay (p : BytePlane) (b : Byte) (s : State) :
    (shiftOut p b s).trace = s.trace ++ shiftOutEvents p b ∧ (shiftOut p b s).addr = s.addr.replay (shiftOutEvents p b) := by
  simp [shiftOut, shiftBits, shiftOneBit, shiftOutEvents, List.range_succ, AddrUnit.replay, AddrUnit.onEvent]

/-- Settles O17: by induction on the bits (`replay_shiftBits`); after the eighth nothing of the old register is left. -/
theorem shiftOutSerializesTheByte : Obligations.ShiftOutSerializesTheByte := by
  intro p b s hhi hlo
  obtain ⟨htrace, haddr⟩ := shiftOut_replay p b s
  refine ⟨?_, fun n hn => ?_, ?_⟩
  · rw [htrace]
    cases p <;> rfl
  · obtain ⟨d, h, -⟩ := replay_shiftBits p b hhi hlo hn
    dsimp only
    rw [shiftOutEvents_take p b hn, h]
    cases p <;> rfl
  · obtain ⟨d, h, hd⟩ := replay_shiftBits p b hhi hlo (Nat.le_refl 8)
    rw [← shiftOutEvents_take p b (Nat.le_refl 8), List.take_of_length_le (by simp [shiftOutEvents])] at h
    rw [haddr, h, hd (by decide)]
    cases p <;> simp [AddrUnit.setReg]

/-- Settles O18: the closed form of the latch pulse; and pin by pin, a register or latch is written under its own clock's `rises`
only. -/
theorem latchesAndRegistersFollowTheirClocks : Obligations.LatchesAndRegistersFollowTheirClocks := by
  refine ⟨fun s h => ?_, fun u p b => ?_⟩
  · rw [latchPulse_closed s h]
    exact ⟨rfl, rfl⟩
  · cases p with
    | rclk => cases hr : u.pRclk <;> cases b <;> simp [AddrUnit.drive, rises, hr]
    | sclkHi => cases hr : u.pSclkHi <;> cases b <;> simp [AddrUnit.drive, rises, hr]
    | sclkLo => cases hr : u.pSclkLo <;> cases b <;> simp [AddrUnit.drive, rises, hr]
    | _ => simp [AddrUnit.drive]

end Sys2Proof.Machine

namespace Sys2Proof.Machine

/-! ### The commands of the DataBus unit, each with its outcome (41_data_bus.md sections 1 to 3) -/

theorem exec_dmode_input (s : State) :
    exec (.dmode .input) s = .next { s with data := ⟨.input, s.data.dOut⟩, trace := s.trace ++ [.dataMode .input] } := rfl

theorem exec_dmode_output (s : State) :
    exec (.dmode .output) s = .next { s with
      data := ⟨.output, s.freeBits 8 0⟩, free := s.free + 1, trace := s.trace ++ [.dataMode .output] } := rfl

theorem exec_dread_input {s : State} (h : s.data.mode = .input) :
    exec .dread s = .next { s with
      res := ⟨s.res.ok, readByte s.board s.nextEnv⟩, env := s.env.tail, free := s.free + 1,
      trace := s.trace ++ [.sample s.nextEnv] } := by
  rw [exec_eq_finish, instrRun, dreadRun_input h, finish_going]

theorem exec_dread_other {s : State} (h : s.data.mode ≠ .input) : exec .dread s = .refused .dreadOutsideInput := by
  rw [exec_eq_finish, instrRun, dreadRun_other h, finish_stopped]

theorem exec_dwrite_output {s : State} (v : Byte) (h : s.data.mode = .output) :
    exec (.dwrite v) s = .next { s with
      data := ⟨.output, scatter s.board.dataPinMap v s.data.dOut⟩, free := s.free + 1,
      trace := s.trace ++ orderBy 8 (Config.freeOrder s.free) (busEvents s.board.dataPinMap v) } := by
  rw [exec_eq_finish, instrRun, dwriteRun_output v h, finish_going]

theorem exec_dwrite_other {s : State} (v : Byte) (h : s.data.mode ≠ .output) :
    exec (.dwrite v) s = .refused .dwriteOutsideOutput := by
  rw [exec_eq_finish, instrRun, dwriteRun_other v h, finish_stopped]

/-- Settles O20: both directions of `DMODE` in closed form. -/
theorem dmodeSelectsTheMode : Obligations.DmodeSelectsTheMode := fun s =>
  ⟨⟨_, exec_dmode_input s, rfl, rfl, rfl⟩, ⟨_, exec_dmode_output s, rfl, rfl⟩⟩

/-- In input mode `XD` is what a `DREAD` would return for the same lines, with nothing undetermined (10_state.md R34, R35). -/
theorem xd_input {s : State} (h : s.data.mode = .input) (undet : Byte) (env : EnvVector) :
    s.xd undet env = readByte s.board env := by
  have hline : s.data.line undet env = fun p => inputLevel (env.get p) := by
    funext p
    simp only [DataUnit.line, h]
  rw [State.xd, hline, readByte]

/-- Settles O21: `DREAD` returns `readByte`, which is `XD` in input mode and reads 0 only where a line is driven low. -/
theorem dreadReturnsTheLines : Obligations.DreadReturnsTheLines := by
  refine ⟨fun _ _ => rfl, fun _ => exec_dread_other, fun s h => ⟨_, exec_dread_input h, fun i => ?_, fun undet => ?_, ?_, rfl, rfl⟩⟩
  · rw [getLsbD_readByte, inputLevel_eq]
  · exact (xd_input h undet s.nextEnv).symm
  · exact readByte_undriven s.board s.nextEnv

/-- Settles O22: the byte goes through the map to its pins, and back to the device through the same map (`xd_driven`). -/
theorem dwriteDrivesTheByte : Obligations.DwriteDrivesTheByte := by
  refine ⟨fun opa opl h => ?_, fun _ v => exec_dwrite_other v, fun s v hw h => ⟨_, exec_dwrite_output v h, rfl, fun i => ?_,
    fun undet env henv => ?_, ?_, rfl⟩⟩
  · obtain ⟨-, e⟩ | ⟨hge, -⟩ := decodeDwrite_cases opa
    · exact e
    · omega
  · exact getLsbD_scatter _ (Board.wf_data hw) v _ i
  · exact xd_driven s.board hw v s.data.dOut undet env henv
  · rw [eventsSince_of_append rfl]
    exact orderBy_perm ..

/-! ### Sequences of DataBus commands (41_data_bus.md section 5) -/

theorem inputLevel_looped (b : Bool) : inputLevel (if b then Drive.high else Drive.low) = b := by
  cases b <;> rfl

/-- Settles O24: the lines carry what the pins drove, which the same map reads back (`gather_scatter`). -/
theorem loopBackReturnsTheByte : Obligations.LoopBackReturnsTheByte := by
  intro s s1 s2 s3 x rest hw h1 h2 h3 henv
  rw [exec_dmode_output] at h1
  cases h1
  rw [exec_dwrite_output x rfl] at h2
  cases h2
  rw [exec_dmode_input] at h3
  cases h3
  refine ⟨_, exec_dread_input rfl, ?_⟩
  simp only [State.nextEnv, henv, readByte, Vector.get_ofFn, inputLevel_looped]
  exact gather_scatter s.board.dataPinMap (Board.wf_data hw) x _

/-- Settles O25: `DMODE IN` keeps the samples, and the next one drives nothing. -/
theorem undrivenReadIsAllOnes : Obligations.UndrivenReadIsAllOnes := by
  intro s e rest henv hz
  refine ⟨_, _, exec_dmode_input s, exec_dread_input rfl, readByte_undriven s.board _ ?_⟩
  simpa only [State.nextEnv, henv] using hz

/-! ### The two units do not see each other (41_data_bus.md R151) -/

/-- A DataBus command runs the same whatever the AddressBus unit holds. -/
theorem exec_setAddr {i : Instr} (hi : i = .dread ∨ (∃ d, i = .dmode d) ∨ ∃ v, i = .dwrite v) {s t : State}
    (h : exec i s = .next t) (u : AddrUnit) : t.addr = s.addr ∧ exec i (s.setAddr u) = .next (t.setAddr u) := by
  obtain rfl | ⟨d, rfl⟩ | ⟨v, rfl⟩ := hi
  · by_cases hm : s.data.mode = .input
    · rw [exec_dread_input hm] at h
      cases h
      exact ⟨rfl, exec_dread_input (s := s.setAddr u) hm⟩
    · rw [exec_dread_other hm] at h
      cases h
  · cases d <;> cases h <;> exact ⟨rfl, rfl⟩
  · by_cases hm : s.data.mode = .output
    · rw [exec_dwrite_output v hm] at h
      cases h
      exact ⟨rfl, exec_dwrite_output (s := s.setAddr u) v hm⟩
    · rw [exec_dwrite_other v hm] at h
      cases h

theorem unseen_setData (d : DataUnit) : Unseen fun s => s.setData d := by constructor <;> intros <;> rfl

/-- An AddressBus command runs the same whatever the DataBus unit holds. -/
theorem exec_setData {i : Instr} (hi : i = .abegin ∨ ∃ a, i = .aset a) {s t : State} (h : exec i s = .next t) (d : DataUnit) :
    t.data = s.data ∧ exec i (s.setData d) = .next (t.setData d) := by
  obtain rfl | ⟨a, rfl⟩ := hi
  · have h := instrRun_of_next rfl h
    obtain ⟨t', e, e'⟩ | ⟨e, -⟩ := (unseen_setData d).abeginRun s <;> rw [instrRun, e] at h <;> cases h
    obtain ⟨-, hrun⟩ | ⟨-, hrun⟩ := abeginRun_cases s <;> rw [e] at hrun <;> cases hrun
    rw [exec_eq_finish, instrRun, e', finish_going]
    exact ⟨rfl, rfl⟩
  · obtain ⟨hb, ha, rfl⟩ := exec_aset_next h
    refine ⟨by rw [(onlyAddr_present a s).frame], ?_⟩
    rw [exec_aset_legal (s := s.setData d) hb ha]
    exact congrArg _ ((unseen_setData d).present a s)

/-- Settles O26: a command of one unit commutes with any change of the other. -/
theorem busUnitsAreIndependent : Obligations.BusUnitsAreIndependent := by
  refine ⟨fun s t i hi h => ⟨(exec_setAddr hi h s.addr).1, fun u => ?_⟩,
    fun s t i hi h => ⟨(exec_setData hi h s.data).1, fun d => ?_⟩⟩
  · rw [(exec_setAddr hi h u).2]
    rfl
  · rw [(exec_setData hi h d).2]
    rfl

/-! ### Diagnostics and Fail (43_diagnostics.md, 60_exceptions.md R205) -/

/-- Settles O38: `takeFail` field by field. -/
theorem failWritesTheResultOnly : Obligations.FailWritesTheResultOnly := fun s =>
  ⟨(takeFail s).we, by rw [finish_failed]; rfl, by rw [takeFail_we]⟩

/-- Settles O39: `DBGRST` sets the debug registers to `Debug.zero`. -/
theorem dbgrstZeroesTheSeven : Obligations.DbgrstZeroesTheSeven := fun _ => rfl

/-- Settles O40: `DBGPRINT` appends one report of the registers as they stand. -/
theorem dbgprintReportsTheSeven : Obligations.DbgprintReportsTheSeven := fun _ => rfl

end Sys2Proof.Machine

namespace Sys2Proof.Machine

/-! ### How a WDATA ends, from what its loops come to (42_write_engine.md R160) -/

theorem wdataRun_admitted {s : State} (hb : blockAdmitted s.profile.block = true) (a l : Word) :
    wdataRun a l s = (wdataLoops a l s).andThen fun t => .going (endWrite true t) := by
  rw [wdataRun_eq, if_neg (by simp [hb])]

theorem exec_wdata_going {s v : State} {a l : Word} (hb : blockAdmitted s.profile.block = true)
    (h : wdataLoops a l s = .going v) : exec (.wdata a l) s = .next (endWrite true v) := by
  rw [exec_eq_finish, instrRun, wdataRun_admitted hb, h]
  rfl

theorem exec_wdata_failed {s v : State} {a l : Word} (hb : blockAdmitted s.profile.block = true)
    (h : wdataLoops a l s = .failed v) : exec (.wdata a l) s = .next (endWrite false v) := by
  rw [exec_eq_finish, instrRun, wdataRun_admitted hb, h]
  rfl

theorem wdataRun_stopped {s v : State} {a l : Word} {why : Refusal} (hb : blockAdmitted s.profile.block = true)
    (h : wdataLoops a l s = .stopped why v) : wdataRun a l s = .stopped why v := by
  rw [wdataRun_admitted hb, h]
  rfl

/-- Settles O27: `execWdata_cases` in the terms of the events since the start. -/
theorem wdataHandsOverThePlan : Obligations.WdataHandsOverThePlan := by
  intro s t a l h
  obtain ⟨v, es, -, ht, htrace, hcalls⟩ := execWdata_cases h
  rw [eventsSince_of_append htrace]
  exact ⟨by rw [ht]; rfl, ⟨es, htrace⟩, hcalls⟩

/-! ### An empty plan (42_write_engine.md R173) -/

theorem byteCalls_eq_nil_iff (buf : Memory) (a l : Word) : byteCalls buf a l = [] ↔ l = 0#32 := by
  rw [byteCalls, List.map_eq_nil_iff, List.range_eq_nil, ← BitVec.toNat_inj]
  rfl

theorem blockPlan_eq_nil_iff {b : Nat} (hb : 0 < b) (a l : Nat) : blockPlan b a l = [] ↔ a % b = 0 ∧ l = 0 := by
  unfold blockPlan
  split
  · rename_i hm
    rw [← List.length_eq_zero_iff, length_blockRun _ _ _ _ hb, Nat.div_eq_zero_iff]
    omega
  · rename_i hm
    simp [hm]

/-- A plan is empty exactly for length 0 in byte mode or at a block boundary. -/
theorem writePlan_eq_nil_iff (s : State) (a l : Word) :
    writePlan s a l = [] ↔ l = 0#32 ∧ (s.profile.block = 0#32 ∨ a.toNat % s.profile.block.toNat = 0) := by
  unfold writePlan
  by_cases hb : s.profile.block = 0#32
  · simp [hb, byteCalls_eq_nil_iff]
  · have hl : l.toNat = 0 ↔ l = 0#32 := by rw [← BitVec.toNat_inj]; rfl
    rw [if_neg hb, List.map_eq_nil_iff, blockPlan_eq_nil_iff (toNat_pos hb), hl]
    simp [hb, and_comm]

theorem leadIn_aligned {a l : Word} {s : State} (h : a.toNat % s.profile.block.toNat = 0) :
    leadIn (startWrite a l s) = .going (startWrite a l s) :=
  if_pos ((mod_eq_zero_iff a s.profile.block).mpr h)

theorem leadIn_unaligned {a l : Word} {s : State} (h : a.toNat % s.profile.block.toNat ≠ 0) :
    leadIn (startWrite a l s) = chunk (minWord (s.profile.block - a % s.profile.block) l) (startWrite a l s) :=
  if_neg fun e => h ((mod_eq_zero_iff a s.profile.block).mp e)

/-- With an empty plan the loops do nothing, not even an `ASET`. -/
theorem wdataLoops_of_nil {s : State} {a l : Word} (h : writePlan s a l = []) : wdataLoops a l s = .going (startWrite a l s) := by
  obtain ⟨rfl, hm⟩ := (writePlan_eq_nil_iff s a l).mp h
  unfold wdataLoops
  by_cases hb : s.profile.block = 0#32
  · rw [if_pos hb]
    rfl
  · rw [if_neg hb, blockMode, leadIn_aligned (hm.resolve_left hb)]
    rfl

/-! ### Before ABEGIN (40_address_bus.md R117) -/

theorem asetRun_unbegun (a : Word) {s : State} (h : s.addr.aBegun = false) : asetRun a s = .stopped .asetBeforeBegin s := if_pos h

theorem byteLoop_unbegun {s : State} (h : s.addr.aBegun = false) (hr : s.we.rem ≠ 0#32) (n : Nat) :
    byteLoop (n + 1) s = .stopped .asetBeforeBegin s := by
  rw [byteLoop, if_neg hr, byteStep, asetRun_unbegun _ h]
  rfl

theorem chunk_unbegun (c : Word) {s : State} (h : s.addr.aBegun = false) : chunk c s = .stopped .asetBeforeBegin s := by
  rw [chunk, asetRun_unbegun _ h]
  rfl

theorem blockLoop_unbegun {s : State} (h : s.addr.aBegun = false) (hr : s.we.rem ≠ 0#32) (n : Nat) :
    blockLoop (n + 1) s = .stopped .asetBeforeBegin s := by
  rw [blockLoop, if_neg hr, chunk_unbegun _ h]
  rfl

/-- The first call of a plan is due: its `ASET` is refused. -/
theorem wdataLoops_unbegun {s : State} {a l : Word} (h : s.addr.aBegun = false) (hp : writePlan s a l ≠ []) :
    wdataLoops a l s = .stopped .asetBeforeBegin (startWrite a l s) := by
  have hrem : l ≠ 0#32 → ∃ n, l.toNat = n + 1 := fun hl => ⟨l.toNat - 1, by have := toNat_pos hl; omega⟩
  rw [Ne, writePlan_eq_nil_iff, not_and_or] at hp
  unfold wdataLoops
  by_cases hb : s.profile.block = 0#32
  · have hl : l ≠ 0#32 := hp.resolve_right fun hn => hn (.inl hb)
    obtain ⟨n, hn⟩ := hrem hl
    rw [if_pos hb, byteMode, startWrite_we, hn]
    exact byteLoop_unbegun (s := startWrite a l s) h hl n
  · rw [if_neg hb, blockMode]
    by_cases hm : a.toNat % s.profile.block.toNat = 0
    · have hl : l ≠ 0#32 := hp.resolve_right fun hn => hn (.inr hm)
      obtain ⟨n, hn⟩ := hrem hl
      rw [leadIn_aligned hm, going_andThen, startWrite_we, hn]
      exact blockLoop_unbegun (s := startWrite a l s) h hl n
    · rw [leadIn_unaligned hm, chunk_unbegun _ (by exact h), stopped_andThen]

theorem blockAdmitted_iff (b : Word) : blockAdmitted b = true ↔ b = 0#32 ∨ ∃ k, k < 32 ∧ b.toNat = 2 ^ k := by
  have hpow : ∀ k, k < 32 → (b = BitVec.twoPow 32 k ↔ b.toNat = 2 ^ k) := fun k hk => by
    rw [← BitVec.toNat_inj, BitVec.toNat_twoPow, Nat.mod_eq_of_lt (Nat.pow_lt_pow_right (by decide) hk)]
  simp only [blockAdmitted, Bool.or_eq_true, decide_eq_true_eq, List.any_eq_true, List.mem_range]
  exact or_congr_right (exists_congr fun k => and_congr_right (hpow k))

/-- Settles O31: the block size is tested first; then the first call that is due meets the refused `ASET`. -/
theorem wdataRefusedWithoutItsPremises : Obligations.WdataRefusedWithoutItsPremises := by
  refine ⟨blockAdmitted_iff, fun s a l hb => ?_, fun s a l hb h hp => ?_⟩
  · rw [exec_eq_finish, instrRun, wdataRun_eq, if_pos hb]
    rfl
  · rw [exec_eq_finish, instrRun, wdataRun_stopped hb (wdataLoops_unbegun h hp)]
    rfl

/-! ### Where a WDATA with a script gets to (42_write_engine.md R163, R172) -/

/-- `follows_wdataLoops` for the first `n` answers of the script. -/
theorem wdataLoops_script {s : State} {a l : Word} {n : Nat} (hb : s.addr.aBegun = true) (hn : n ≤ (writePlan s a l).length)
    (ho : n ≤ s.oracle.length) (hc : ∀ c ∈ (writePlan s a l).take n, (callAddressOf c).toNat < 2 ^ 19)
    (hd : scriptDefined s.data.mode (s.oracle.take n) = true) :
    ((s.oracle.take n).all Answer.ok = true →
      (n = (writePlan s a l).length → ∃ t, wdataLoops a l s = .going t) ∧
      ∀ c, (writePlan s a l)[n]? = some c → 2 ^ 19 ≤ (callAddressOf c).toNat →
        ∃ t, wdataLoops a l s = .stopped .addressTooWide t ∧ Made (startWrite a l s) t ((writePlan s a l).take n)) ∧
    ((s.oracle.take n).all Answer.ok = false → ∃ t, wdataLoops a l s = .failed t) := by
  obtain ⟨hok, hfail⟩ := follows_wdataLoops a l s n (s.oracle.take n) (s.oracle.drop n) hn (List.take_append_drop ..).symm
    (List.length_take_of_le ho) hb hc hd
  refine ⟨fun h => ⟨fun e => ?_, (hok h).2⟩, hfail⟩
  obtain ⟨t, ht, -⟩ := (hok h).1 e
  exact ⟨t, ht⟩

/-- Settles O29: an empty plan needs nothing; for another the script decides whether the loops go through or fail. -/
theorem wdataCompletes : Obligations.WdataCompletes := by
  intro s a l n hb hbegun hn ho hc hd hend
  by_cases hp : writePlan s a l = []
  · have hn0 : n = 0 := by simpa [hp] using hn
    subst hn0
    exact ⟨_, exec_wdata_going hb (wdataLoops_of_nil hp), rfl, rfl⟩
  · obtain ⟨hok, hfail⟩ := wdataLoops_script (hbegun hp) hn ho hc hd
    cases hall : (s.oracle.take n).all Answer.ok with
    | true =>
      obtain ⟨t, ht⟩ := (hok hall).1 (hend.resolve_right (by simp [hall]))
      exact ⟨_, exec_wdata_going hb ht, rfl, rfl⟩
    | false =>
      obtain ⟨t, ht⟩ := hfail hall
      exact ⟨_, exec_wdata_failed hb ht, rfl, rfl⟩

/-- Settles O30: the first `k` calls are made and answered 1; the `ASET` of the next is refused, and the write has no other end.
-/
theorem wdataStopsAtTheFirstAddressOffTheBus : Obligations.WdataStopsAtTheFirstAddressOffTheBus := by
  intro s a l k c hb hbegun hk hwide hc ho hd hall
  have hlen : k < (writePlan s a l).length := (List.getElem?_eq_some_iff.mp hk).1
  obtain ⟨v, hv, es, htrace, hcalls, hrets⟩ := ((wdataLoops_script hbegun hlen.le ho hc hd).1 hall).2 c hk hwide
  have hrun := wdataRun_stopped hb hv
  refine ⟨by rw [exec_eq_finish, instrRun, hrun]; rfl, v, es, hrun, htrace, hcalls, ?_⟩
  rw [hrets, List.length_take_of_le hlen.le]

/-! ### The calls of a WDATA that ends -/

/-- The calls made are the first of the plan, all of it on success; each is counted in block mode. -/
theorem execWdata_calls {a l : Word} {s t : State} (h : execWdata a l s = .next t) :
    (∃ k, callsOf (eventsSince s t) = (writePlan s a l).take k) ∧
    (t.res.ok = true → callsOf (eventsSince s t) = writePlan s a l) ∧
    t.dbg.blkcnt = s.dbg.blkcnt + BitVec.ofNat 32 (countedCalls s * (callsOf (eventsSince s t)).length) := by
  obtain ⟨v, es, hf, ht, htrace, hcalls⟩ := execWdata_cases h
  rw [eventsSince_of_append htrace]
  have hcount : t.dbg.blkcnt = v.dbg.blkcnt := by rw [ht]; rfl
  refine ⟨?_, fun hok => ?_, hcount.trans hf.blkcnt⟩
  · obtain ⟨e, -, -⟩ | ⟨k, -, e, -, -⟩ := hcalls
    · exact ⟨(writePlan s a l).length, by rw [e, List.take_length]⟩
    · exact ⟨k + 1, e⟩
  · obtain ⟨e, -, -⟩ | ⟨k, -, -, -, hno⟩ := hcalls
    · exact e
    · simp [hno] at hok

/-- Settles O36: `countedCalls` is 0 in byte mode and 1 in block mode. -/
theorem wdataCountsBlockCalls : Obligations.WdataCountsBlockCalls := by
  intro s t a l h
  obtain ⟨-, -, hcount⟩ := execWdata_calls h
  rw [hcount, countedCalls]
  by_cases hb : s.profile.block = 0#32 <;> simp [hb]

/-- Settles O34: the plan's length bounds the calls and is reached on success. -/
theorem wdataCallCounts : Obligations.WdataCallCounts := by
  refine ⟨fun s t a l hb h => ?_, fun s t a l hb _ h => ?_⟩ <;> obtain ⟨⟨k, hk⟩, hok, -⟩ := execWdata_calls h
  · have hplan : (writePlan s a l).length = l.toNat := by simp [writePlan, hb, byteCalls]
    refine ⟨?_, fun h1 => by rw [hok h1, hplan]⟩
    rw [hk, ← hplan]
    exact List.length_take_le' ..
  · have hplan : (writePlan s a l).length = (blockPlan s.profile.block.toNat a.toNat l.toNat).length := by
      simp [writePlan, hb]
    obtain ⟨hbound, hexact⟩ := length_blockPlan s.profile.block.toNat a.toNat l.toNat (toNat_pos hb)
    refine ⟨?_, fun h1 hl => by rw [hok h1, hplan, hexact hl]⟩
    refine Nat.le_trans ?_ hbound
    rw [hk, ← hplan]
    exact List.length_take_le' ..

/-- Settles O33: the call is a chunk of the plan (`mem_blockPlan`), and none of its numbers wraps. -/
theorem wdataChunksRespectBlocks : Obligations.WdataChunksRespectBlocks := by
  intro s t a l off n x hb hfit h hmem
  obtain ⟨⟨k, hk⟩, -, -⟩ := execWdata_calls h
  rw [hk] at hmem
  have hmem := List.mem_of_mem_take hmem
  rw [writePlan, if_neg hb, List.mem_map] at hmem
  obtain ⟨⟨o, m, y⟩, hc, e⟩ := hmem
  obtain ⟨hy, hle, hm, hstart, hblock, hwhole, hempty⟩ := mem_blockPlan _ _ _ (toNat_pos hb) _ hc
  dsimp only at hy hle hm hstart hblock hwhole hempty
  have hl := l.isLt
  have ha := a.isLt
  injection e with e1 e2 e3
  have ho : off.toNat = o := by rw [← e1, BitVec.toNat_ofNat, Nat.mod_eq_of_lt (by dsimp only; omega)]
  have hn : n.toNat = m := by rw [← e2, BitVec.toNat_ofNat, Nat.mod_eq_of_lt (by dsimp only; omega)]
  have hx : x.toNat = y := by rw [← e3, BitVec.toNat_ofNat, Nat.mod_eq_of_lt (by dsimp only; omega)]
  have hzero : ∀ w : Word, w = 0#32 ↔ w.toNat = 0 := fun w => by rw [← BitVec.toNat_inj]; rfl
  rw [ne_eq, hzero, hzero, ← BitVec.toNat_inj (x := n) (y := s.profile.block), ho, hn, hx]
  exact ⟨hy, hle, hm, hstart, hblock, hwhole⟩

/-- At an unaligned start a plan of length 0 is one empty call (decision D22). -/
theorem writePlan_zero_unaligned {s : State} {a : Word} (hb : s.profile.block ≠ 0#32)
    (hm : a.toNat % s.profile.block.toNat ≠ 0) : writePlan s a 0#32 = [.callBlock 0#32 0#32 a] := by
  rw [writePlan, if_neg hb, blockPlan, if_neg hm]
  simp [blockRun_zero, chunkCall]

/-- Settles O32: with an empty plan the write only starts and ends; with the one empty call its answer is the result. -/
theorem wdataOfLengthZero : Obligations.WdataOfLengthZero := by
  refine ⟨fun s a hb hm => ?_, fun s t a hb hm h => ?_⟩
  · exact ⟨_, exec_wdata_going hb (wdataLoops_of_nil ((writePlan_eq_nil_iff s a 0#32).mpr ⟨rfl, hm⟩)), rfl, rfl⟩
  · have hplan := writePlan_zero_unaligned hb hm
    obtain ⟨-, -, hcount⟩ := execWdata_calls h
    obtain ⟨v, es, -, -, htrace, hcalls⟩ := execWdata_cases h
    rw [eventsSince_of_append htrace] at hcount ⊢
    rw [hplan] at hcalls
    have hone : callsOf es = [.callBlock 0#32 0#32 a] ∧ retsOf es = [t.res.ok] := by
      obtain ⟨hc, hr, hok⟩ | ⟨k, hk, hc, hr, hok⟩ := hcalls
      · exact ⟨hc, by rw [hr, hok]; rfl⟩
      · obtain rfl : k = 0 := by simpa using hk
        exact ⟨hc, by rw [hr, hok]; rfl⟩
    refine ⟨hone.1, hone.2, ?_⟩
    rw [hcount, hone.1, countedCalls, if_neg hb]
    rfl

end Sys2Proof.Machine

namespace Sys2Proof.Machine

/-! ### A WDATA step by step: an ASET and its call are one piece -/

/-- A relation that every step of the write engine keeps, the `ASET`, the call and the advance together one step. -/
structure KeptSteps (R : State → State → Prop) : Prop where
  refl : ∀ s, R s s
  trans : ∀ s t v, R s t → R t v → R s v
  we : ∀ w s, R s (s.setWe w)
  byteStep : ∀ s, R s (byteStep s).state
  chunk : ∀ c s, R s (chunk c s).state
  endWrite : ∀ ok s, R s (endWrite ok s)

variable {R : State → State → Prop}

theorem KeptSteps.byteLoop (k : KeptSteps R) (n : Nat) (s : State) : R s (byteLoop n s).state := by
  induction n generalizing s with
  | zero => exact k.refl s
  | succ n ih =>
    unfold Machine.byteLoop
    split
    · exact k.refl s
    · exact kept_andThen k.trans (k.byteStep s) fun t _ => ih t

theorem KeptSteps.blockLoop (k : KeptSteps R) (n : Nat) (s : State) : R s (blockLoop n s).state := by
  induction n generalizing s with
  | zero => exact k.refl s
  | succ n ih =>
    unfold Machine.blockLoop
    split
    · exact k.refl s
    · exact kept_andThen k.trans (k.chunk _ s) fun t _ => ih t

theorem KeptSteps.wdataLoops (k : KeptSteps R) (a l : Word) (s : State) : R s (wdataLoops a l s).state := by
  refine k.trans _ (startWrite a l s) _ (k.we _ s) ?_
  unfold Machine.wdataLoops
  split
  · exact k.byteLoop _ _
  · refine kept_andThen k.trans ?_ fun t _ => k.blockLoop _ t
    unfold leadIn
    dsimp only
    split
    · exact k.refl _
    · exact k.chunk _ _

theorem KeptSteps.wdata (k : KeptSteps R) {a l : Word} {s t : State} (h : execWdata a l s = .next t) : R s t := by
  have hl := k.wdataLoops a l s
  obtain ⟨-, ⟨v, e, rfl⟩ | ⟨v, e, rfl⟩⟩ := execWdata_next h <;> rw [e] at hl
  · exact k.trans _ _ _ hl (k.endWrite true v)
  · exact k.trans _ _ _ hl (k.endWrite false v)

/-! ### The address at the moment of a call (42_write_engine.md R164) -/

/-- The flag and the caches show on no line. -/
theorem xa_pinState (b : Board) (undet : Addr) (u : AddrUnit) : u.pinState.xa b undet = u.xa b undet := rfl

theorem xa_congr (b : Board) (undet : Addr) {u v : AddrUnit} (h : u.pinState = v.pinState) : u.xa b undet = v.xa b undet := by
  rw [← xa_pinState, h, xa_pinState]

/-- The unit shows the device the address of the call, and the bus has it. -/
def AddrUnit.Shows (b : Board) (c : Event) (u : AddrUnit) : Prop :=
  (callAddressOf c).toNat < 2 ^ 19 ∧ ∀ undet, u.xa b undet = onBus (callAddressOf c)

/-- `PinLevel`, and at each call among the events the pins show its address. -/
structure CallsShown (s t : State) (es : List Event) : Prop extends PinLevel s t es where
  inv : t.AddressInv
  shows : ∀ pre c post, es = pre ++ c :: post → c.isCall = true → (s.addr.replay pre).Shows s.board c

theorem CallsShown.trans {s t v : State} {es es' : List Event} (h : CallsShown s t es) (h' : CallsShown t v es') :
    CallsShown s v (es ++ es') where
  toPinLevel := h.toPinLevel.trans h'.toPinLevel
  inv := h'.inv
  shows pre c post he hc := by
    rcases List.append_eq_append_iff.mp he with ⟨mid, rfl, e⟩ | ⟨mid, e, e'⟩
    · obtain ⟨hlegal, hxa⟩ := h'.shows mid c post e hc
      refine ⟨hlegal, fun undet => ?_⟩
      rw [replay_append, xa_congr s.board undet (pinState_replay mid _ _ h.addr), ← h.board]
      exact hxa undet
    · cases mid with
      | nil =>
        obtain ⟨hlegal, hxa⟩ := h'.shows [] c post e'.symm hc
        refine ⟨hlegal, fun undet => ?_⟩
        rw [List.append_nil] at e
        rw [← e, xa_congr s.board undet h.addr, ← h.board]
        exact hxa undet
      | cons x rest =>
        injection e' with e1 e2
        subst e1
        exact h.shows pre c rest e hc

/-- Events with no call among them. -/
theorem callsShown_quiet {s t : State} {es : List Event} (hp : PinLevel s t es) (ht : t.AddressInv) (hq : callsOf es = []) :
    CallsShown s t es where
  toPinLevel := hp
  inv := ht
  shows pre c post he hc := by
    have : c ∈ callsOf es := List.mem_filter.mpr ⟨by rw [he]; simp, hc⟩
    rw [hq] at this
    cases this

/-- Every call from `s` to `t` is shown, if 40_address_bus.md R119 holds at `s`. -/
def ShowsItsCalls (s t : State) : Prop := s.AddressInv → ∃ es, CallsShown s t es

theorem ShowsItsCalls.trans {s t v : State} (h : ShowsItsCalls s t) (h' : ShowsItsCalls t v) : ShowsItsCalls s v := by
  intro hs
  obtain ⟨es, h⟩ := h hs
  obtain ⟨es', h'⟩ := h' h.inv
  exact ⟨es ++ es', h.trans h'⟩

/-- A piece that moves no pin, shows nothing and leaves the unit. -/
theorem showsItsCalls_of_eq {s t : State} (hb : t.board = s.board) (ht : t.trace = s.trace) (ha : t.addr = s.addr)
    (hd : t.data = s.data) : ShowsItsCalls s t := by
  intro hs
  obtain ⟨es, hp⟩ := shownByPins_of_eq hb ht (by rw [ha]) hd
  have hes : es = [] := by
    have := hp.trace
    rw [ht] at this
    exact List.self_eq_append_right.mp this
  exact ⟨es, callsShown_quiet hp (hs.congr hb ha) (by rw [hes]; rfl)⟩

theorem showsItsCalls_present (a : Word) {s : State} (hb : s.addr.aBegun = true) : ShowsItsCalls s (present a s) := by
  intro hs
  obtain ⟨es, hp⟩ := shownByPins_present a s hs.board
  obtain ⟨es', hf⟩ := (onlyAddr_present a s).actsFrame
  have he : es = es' := List.append_cancel_left (hp.trace.symm.trans hf.trace)
  exact ⟨es, callsShown_quiet hp (addressInv_present a s hb hs) (he ▸ hf.calls)⟩

/-- Whatever a primitive does, its call is the first event and the only call. -/
theorem callPrimitive_trace (c : Event) (s : State) :
    ∃ rest, (callPrimitive c s).state.trace = s.trace ++ c :: rest ∧ callsOf rest = [] := by
  rcases callPrimitive_cases c s with ⟨t, e, h⟩ | ⟨t, e, h⟩ | ⟨r, t, e, -, rest, ht, hc⟩ <;> rw [e]
  · obtain ⟨es, ht, hc, -⟩ := h.trace
    exact ⟨es ++ [Event.ret true], ht, by rw [callsOf_append, hc]; rfl⟩
  · obtain ⟨es, ht, hc, -⟩ := h.trace
    exact ⟨es ++ [Event.ret false], ht, by rw [callsOf_append, hc]; rfl⟩
  · exact ⟨rest, ht, hc⟩

/-- A call made while the pins show its address. -/
theorem showsItsCalls_call {c : Event} (hc : c.isCall = true) {s : State} (hshow : s.addr.Shows s.board c) :
    ShowsItsCalls s (callPrimitive c s).state := by
  intro hs
  obtain ⟨es, hp⟩ := shownByPins_kept.toKept.call c s hc hs.board
  obtain ⟨rest, ht, hrest⟩ := callPrimitive_trace c s
  obtain rfl : es = c :: rest := List.append_cancel_left (hp.trace.symm.trans ht)
  refine ⟨c :: rest, hp, addressInv_kept.toKept.call c s hc hs, fun pre c' post he hc' => ?_⟩
  cases pre with
  | nil =>
    injection he with e1 e2
    subst e1
    exact hshow
  | cons x pre =>
    injection he with e1 e2
    have : c' ∈ callsOf rest := List.mem_filter.mpr ⟨by rw [e2]; simp, hc'⟩
    rw [hrest] at this
    cases this

/-- One step of the engine: the `ASET` puts the call's address on the pins, and the call follows at once. -/
theorem showsItsCalls_step {count : State → State} (hcount : ∀ t, ∃ d, count t = t.setDbg d) {call : Event}
    (hc : call.isCall = true) (n : Word) {s : State} (ha : callAddressOf call = s.callAddress) :
    ShowsItsCalls s
      (((asetRun s.callAddress s).andThen fun t => callPrimitive call (count t)).andThen fun t => .going (t.advance n)).state := by
  intro hs
  rcases asetRun_cases s.callAddress s with ⟨-, e⟩ | ⟨-, -, e⟩ | ⟨hb, hlegal, e⟩ <;> rw [e]
  · exact showsItsCalls_of_eq rfl rfl rfl rfl hs
  · exact showsItsCalls_of_eq rfl rfl rfl rfl hs
  · obtain ⟨d, hd⟩ := hcount (present s.callAddress s)
    have hshow : ((present s.callAddress s).setDbg d).addr.Shows ((present s.callAddress s).setDbg d).board call := by
      refine ⟨by rw [ha]; exact hlegal, fun undet => ?_⟩
      rw [ha]
      exact xa_present_of_addrInv hs.board hs.addr hb undet
    rw [going_andThen, hd]
    refine kept_andThen (R := ShowsItsCalls) (fun _ _ _ => ShowsItsCalls.trans)
      (ShowsItsCalls.trans ?_ (showsItsCalls_call hc hshow)) (fun t _ => showsItsCalls_of_eq rfl rfl rfl rfl) hs
    exact (showsItsCalls_present _ hb).trans (showsItsCalls_of_eq rfl rfl rfl rfl)

theorem showsItsCalls_kept : KeptSteps ShowsItsCalls where
  refl _ := showsItsCalls_of_eq rfl rfl rfl rfl
  trans _ _ _ := ShowsItsCalls.trans
  we _ _ := showsItsCalls_of_eq rfl rfl rfl rfl
  byteStep s := showsItsCalls_step (count := id) (fun t => ⟨t.dbg, rfl⟩) (call := byteCall s) rfl 1#32 rfl
  chunk c s := showsItsCalls_step (count := State.countBlock) (fun t => ⟨t.dbg.countBlock, rfl⟩)
    (call := .callBlock s.we.off c s.callAddress) rfl c rfl
  endWrite _ _ := showsItsCalls_of_eq rfl rfl rfl rfl

/-- Settles O35: each step presents its address at the pin level and calls at once, so replaying the events up to the call shows
that address, whatever earlier primitives did to the bus. -/
theorem wdataPresentsEachCallAddress : Obligations.WdataPresentsEachCallAddress := by
  intro s t a l pre post c hs h he hc
  obtain ⟨es, hes⟩ := showsItsCalls_kept.wdata h ⟨hs.board, hs.addr⟩
  rw [eventsSince_of_append hes.trace] at he
  exact hes.shows pre c post he hc

end Sys2Proof.Machine
